-- ==== Sys2Proof/Word.lean ====
section
/-! DEFINITION. The word types of CRSF-PE: bytes (R15), 32-bit times (R10) and 32-bit field values (R17). -/

namespace Sys2Proof

/-- An unsigned byte, bit 0 least significant (R15). -/
abbrev Byte := BitVec 8

/-- The 32-bit time input and the registers stamped with it (R10). -/
abbrev Time := BitVec 32

/-- A 32-bit field value, signed or unsigned as its field says (R17). -/
abbrev Word32 := BitVec 32

/-- A byte sequence, byte 0 first (R16). -/
abbrev Bytes := List Byte

end Sys2Proof
end

