-- ==== Sys2Proof/Config.lean ====
section
/-! DEFINITION. The fixed constants of R6 and R7, and the configuration parameters of R8 to R13 (93 P1 to P12). A parameter
the spec leaves OPEN is a constant with no body (log 6). -/

namespace Sys2Proof

/-- SYNC, the first byte of every frame (R6). -/
def syncByte : Byte := 0xC8
/-- POLY (R6). -/
def crcPoly : Byte := 0xD5
/-- CRC_INIT (R6). -/
def crcInit : Byte := 0x00
/-- MAX_FRAME, the size of RXBUF and PTBUF (R6). -/
def maxFrame : Nat := 64
/-- MAX_PAYLOAD (R6): the bytes between TYPE and CRC of a standard frame, whose LEN is then RX_LEN_MAX (R7, C2). -/
def maxPayload : Nat := 60
/-- EXT_MAX_PAYLOAD (R7, C2). -/
def extMaxPayload : Nat := 58
/-- The longest WRITE_PARAM value: its payload `[param] ++ v` is an extended payload (R101, R122). -/
def writeMaxValue : Nat := 57
/-- REASM_CAP (R6). -/
def reasmCap : Nat := 256
/-- EXT_TYPE_MIN (R6). -/
def extTypeMin : Byte := 0x28
/-- ADDR_BROADCAST (R6). -/
def addrBroadcast : Byte := 0x00
/-- ADDR_SELF (R6). -/
def addrSelf : Byte := 0xEA
/-- T_DEVICE_PING (R6). -/
def typeDevicePing : Byte := 0x28
/-- T_DEVICE_INFO (R6). -/
def typeDeviceInfo : Byte := 0x29
/-- T_PARAM_ENTRY (R6). -/
def typeParamEntry : Byte := 0x2B
/-- T_PARAM_READ (R6). -/
def typeParamRead : Byte := 0x2C
/-- T_PARAM_WRITE (R6). -/
def typeParamWrite : Byte := 0x2D
/-- RX_LEN_MIN (R6). -/
def rxLenMin : Nat := 1
/-- RX_LEN_MAX (R6); the detector's upper bound too (R96, D27). -/
def rxLenMax : Nat := 62
/-- PT_LEN_MIN (R6). -/
def ptLenMin : Nat := 3

/-- The twelve parameter kinds (R108, C1). -/
inductive ParamKind where
  | uint8 | int8 | uint16 | int16 | uint32 | int32
  | float | textSelection | string | folder | info | command
deriving DecidableEq, Repr

/-- TRUNC_POLICY (R12): what a tail that ends too early gives. -/
inductive TruncPolicy where
  | partialRecord
  | reject
deriving DecidableEq, Repr, Inhabited

/-- A capacity of R9, an integer at least 1, held as its predecessor so that no value is out of range.
For a string that is the number of bytes stored, the terminator not counted. -/
structure Capacity where
  pred : Nat
deriving DecidableEq, Repr, Inhabited

/-- The capacity as the spec counts it. -/
def Capacity.size (k : Capacity) : Nat := k.pred + 1

/-- The configuration of one block, fixed when it is built (R30): R8 to R12. -/
structure Config where
  scanTimeout  : Time
  paramTimeout : Time
  capDevName   : Capacity
  capPName     : Capacity
  capUnit      : Capacity
  capOptions   : Capacity
  capStrVal    : Capacity
  capInfo      : Capacity
  maxDevices   : Capacity
  kindCode     : List (BitVec 6 × ParamKind)
  truncPolicy  : TruncPolicy
deriving DecidableEq, Repr

/-- SCAN_TIMEOUT, left OPEN (R8, P1; log 6). -/
opaque Config.openScanTimeout : Time
/-- PARAM_TIMEOUT, left OPEN (R8, P2; log 6). -/
opaque Config.openParamTimeout : Time
/-- CAP_DEVNAME, left OPEN (R9, P3; log 6). -/
opaque Config.openCapDevName : Capacity
/-- CAP_PNAME, left OPEN (R9, P4; log 6). -/
opaque Config.openCapPName : Capacity
/-- CAP_UNIT, left OPEN (R9, P5; log 6). -/
opaque Config.openCapUnit : Capacity
/-- CAP_OPTIONS, left OPEN (R9, P6; log 6). -/
opaque Config.openCapOptions : Capacity
/-- CAP_STRVAL, left OPEN (R9, P7; log 6). -/
opaque Config.openCapStrVal : Capacity
/-- CAP_INFO, left OPEN (R9, P8; log 6). -/
opaque Config.openCapInfo : Capacity
/-- MAX_DEVICES, left OPEN (R9, P9; log 6). -/
opaque Config.openMaxDevices : Capacity
/-- TRUNC_POLICY, one of two (R12, P11; log 9). -/
opaque Config.openTruncPolicy : TruncPolicy
/-- FLOAT_RENDER, a total function from a fixed-point pair to a machine float, here 64 bits wide (R13, P12; log 10). -/
opaque Config.floatRender : Word32 → Byte → BitVec 64

end Sys2Proof
end

