-- ==== Sys2Proof/Machine/Crc.lean ====
section
/-! DEFINITION. The CRC-8 Engine (40_frame_codec.md section 1). -/

namespace Sys2Proof.Machine

/-- One of the 8 iterations: shift left, and XOR with the polynomial if the top bit was set (R140). -/
def crcShift (c : Byte) : Byte := if c.msb then (c <<< 1) ^^^ crcPoly else c <<< 1

/-- `n` iterations (R140). -/
def crcRounds : Nat → Byte → Byte
  | 0, c => c
  | n + 1, c => crcRounds n (crcShift c)

/-- One input byte: XOR it in, then 8 iterations (R140). -/
def crcByte (c b : Byte) : Byte := crcRounds 8 (c ^^^ b)

/-- The CRC of a byte sequence, no final XOR (R140). -/
def crc8 (s : Bytes) : Byte := s.foldl crcByte crcInit

end Sys2Proof.Machine
end

