-- ==== Sys2Proof/Syntax.lean ====
section
/-! DEFINITION. The instructions: one constructor per row of spec/opcode_table.json, in the table's order. The table has three
formats: ten host commands (R120), five frame types (R97) and twelve parameter kinds (R108). -/

namespace Sys2Proof

/-- The three formats of the opcode table, each an encoding space of its own (log 13). -/
inductive Format where
  | hostCmd
  | frameType
  | paramKind
deriving DecidableEq, Repr

/-- An instruction. A host command carries the operands of R120; a frame type the destination, origin and payload of R92; a
parameter kind the parent id, the hidden flag and the record's bytes from offset 2 on, name and tail (R106; log 12). -/
inductive Instr where
  | rxByte (b : Byte)
  | tick
  | startScan
  | cancelScan
  | loadParams (dev cnt : Byte)
  | cancelLoad
  | writeParam (dev param : Byte) (v : Bytes)
  | ptByte (b : Byte)
  | ptConsume
  | txFrame (type dest origin : Byte) (p : Bytes)
  | devicePing (dest origin : Byte) (p : Bytes)
  | deviceInfo (dest origin : Byte) (p : Bytes)
  | paramEntry (dest origin : Byte) (p : Bytes)
  | paramRead (dest origin : Byte) (p : Bytes)
  | paramWrite (dest origin : Byte) (p : Bytes)
  | uint8 (parent : Byte) (hidden : Bool) (body : Bytes)
  | int8 (parent : Byte) (hidden : Bool) (body : Bytes)
  | uint16 (parent : Byte) (hidden : Bool) (body : Bytes)
  | int16 (parent : Byte) (hidden : Bool) (body : Bytes)
  | uint32 (parent : Byte) (hidden : Bool) (body : Bytes)
  | int32 (parent : Byte) (hidden : Bool) (body : Bytes)
  | float (parent : Byte) (hidden : Bool) (body : Bytes)
  | textSelection (parent : Byte) (hidden : Bool) (body : Bytes)
  | string (parent : Byte) (hidden : Bool) (body : Bytes)
  | folder (parent : Byte) (hidden : Bool) (body : Bytes)
  | info (parent : Byte) (hidden : Bool) (body : Bytes)
  | command (parent : Byte) (hidden : Bool) (body : Bytes)
deriving DecidableEq, Repr

/-- The format of an instruction's row. -/
def Instr.format : Instr → Format
  | .rxByte .. | .tick | .startScan | .cancelScan | .loadParams .. | .cancelLoad | .writeParam .. | .ptByte ..
  | .ptConsume | .txFrame .. => .hostCmd
  | .devicePing .. | .deviceInfo .. | .paramEntry .. | .paramRead .. | .paramWrite .. => .frameType
  | .uint8 .. | .int8 .. | .uint16 .. | .int16 .. | .uint32 .. | .int32 .. | .float .. | .textSelection ..
  | .string .. | .folder .. | .info .. | .command .. => .paramKind

/-- The fields of an extended frame that Route reads (R149, R260). -/
structure Frame where
  type    : Byte
  dest    : Byte
  origin  : Byte
  payload : Bytes
deriving DecidableEq, Repr

/-- The head of a parameter record, and its bytes from offset 2 on (R106, R190). -/
structure RecordHead where
  parent : Byte
  hidden : Bool
  kind   : ParamKind
  body   : Bytes
deriving DecidableEq, Repr

/-- Why a host command is Malformed (R122); the number is the reason of CMD_ERROR. -/
inductive CmdReason where
  | unknownOpcode
  | badLength
  | badOperand
deriving DecidableEq, Repr

end Sys2Proof
end

