-- ==== Sys2Proof/WellFormed.lean ====
section
/-! DEFINITION. Which instructions the encodings of 30_encoding.md can hold: the operand ranges of R122, the payload bound of an
extended frame (R7, R92), and the three bytes a record has at least (R106, R189). -/

namespace Sys2Proof

/-- The operand ranges of a WRITE_PARAM (R122). -/
def writeOperandsOk (v : Bytes) : Bool := v.length ≤ writeMaxValue

/-- The operand ranges of a TX_FRAME (R122). -/
def txOperandsOk (type : Byte) (p : Bytes) : Bool := extTypeMin ≤ type && p.length ≤ extMaxPayload

/-- The payload of an extended frame fits the frame (R7). -/
def payloadOk (p : Bytes) : Bool := p.length ≤ extMaxPayload

/-- A record has at least 3 bytes, parent and type byte included (R189). -/
def bodyOk (body : Bytes) : Bool := 1 ≤ body.length

/-- An instruction its format can encode. -/
def Instr.wf : Instr → Bool
  | .rxByte _ | .tick | .startScan | .cancelScan | .loadParams _ _ | .cancelLoad | .ptByte _ | .ptConsume => true
  | .writeParam _ _ v => writeOperandsOk v
  | .txFrame type _ _ p => txOperandsOk type p
  | .devicePing _ _ p | .deviceInfo _ _ p | .paramEntry _ _ p | .paramRead _ _ p | .paramWrite _ _ p => payloadOk p
  | .uint8 _ _ b | .int8 _ _ b | .uint16 _ _ b | .int16 _ _ b | .uint32 _ _ b | .int32 _ _ b | .float _ _ b
  | .textSelection _ _ b | .string _ _ b | .folder _ _ b | .info _ _ b | .command _ _ b => bodyOk b

end Sys2Proof
end

