-- ==== Sys2Proof/Decode.lean ====
section
/-! DEFINITION. Decoding the three formats of the opcode table from bytes, total and rejecting by name, and after it the encoder.
Host commands: R120 to R122. Frames: R90 to R97, R149, R260. Parameter records: R106, R107, R189 to R191. -/

namespace Sys2Proof

/-- Why a byte sequence is no instruction of its format. -/
inductive Reject where
  /-- A host command that R122 calls Malformed with reason 1 or 2. -/
  | command (r : CmdReason)
  /-- No frame: the first byte is not SYNC, or there is no length byte (R90). -/
  | notSync
  /-- The length byte is outside [1, 62] or is not the frame's length (R93). -/
  | frameLength
  /-- The CRC byte is wrong (R94). -/
  | frameCrc
  /-- A frame of LEN 1 has no TYPE (R93, R261). -/
  | noType
  /-- A standard frame, TYPE below 0x28 (R262). -/
  | standardFrame
  /-- An extended TYPE with no room for DEST and ORIGIN (R93, R261). -/
  | noAddresses
  /-- An extended TYPE that R97 does not list (R113). -/
  | unknownType
  /-- A record of fewer than 3 bytes (R189). -/
  | recordTooShort
  /-- KIND_CODE maps the kind field to no kind (R191). -/
  | unknownKind
deriving DecidableEq, Repr

/-! ### Host commands -/

/-- A host command's opcode and length (R120, R121; R122 checks 1 and 2). Its operand ranges, check 3, are the meaning's own first
test (log 16). -/
def decodeCommand : Bytes → Except CmdReason Instr
  | [] => .error .unknownOpcode
  | op :: args =>
    if op = 0x01 then
      match args with
      | [b] => .ok (.rxByte b)
      | _ => .error .badLength
    else if op = 0x02 then
      match args with
      | [] => .ok .tick
      | _ => .error .badLength
    else if op = 0x10 then
      match args with
      | [] => .ok .startScan
      | _ => .error .badLength
    else if op = 0x11 then
      match args with
      | [] => .ok .cancelScan
      | _ => .error .badLength
    else if op = 0x12 then
      match args with
      | [dev, cnt] => .ok (.loadParams dev cnt)
      | _ => .error .badLength
    else if op = 0x13 then
      match args with
      | [] => .ok .cancelLoad
      | _ => .error .badLength
    else if op = 0x14 then
      match args with
      | dev :: param :: n :: v => if v.length = n.toNat then .ok (.writeParam dev param v) else .error .badLength
      | _ => .error .badLength
    else if op = 0x20 then
      match args with
      | [b] => .ok (.ptByte b)
      | _ => .error .badLength
    else if op = 0x21 then
      match args with
      | [] => .ok .ptConsume
      | _ => .error .badLength
    else if op = 0x30 then
      match args with
      | type :: dest :: origin :: n :: p =>
        if p.length = n.toNat then .ok (.txFrame type dest origin p) else .error .badLength
      | _ => .error .badLength
    else .error .unknownOpcode

/-- WellFormed of R122 and R230: the reason a command is Malformed, or none. -/
def malformedReason (c : Bytes) : Option CmdReason :=
  match decodeCommand c with
  | .error r => some r
  | .ok i => if i.wf then none else some .badOperand

/-! ### Frames -/

/-- Route's checks on a completed frame, in its order, and the fields it reads (R149, R260): `f[1]` is LEN, `f[2]` TYPE, `f[3]`
DEST, `f[4]` ORIGIN, `f[5..L]` the payload. -/
def parseFrame : Bytes → Except Reject Frame
  | _ :: len :: rest =>
    if len.toNat < 2 then .error .noType
    else
      match rest with
      | [] => .error .noType
      | t :: addressed =>
        if t < extTypeMin then .error .standardFrame
        else if len.toNat < 4 then .error .noAddresses
        else
          match addressed with
          | dest :: origin :: tail => .ok ⟨t, dest, origin, tail.take (len.toNat - 4)⟩
          | _ => .error .noAddresses
  | _ => .error .noType

/-- The instruction a frame's TYPE names (R97). -/
def frameInstr (f : Frame) : Except Reject Instr :=
  if f.type = typeDevicePing then .ok (.devicePing f.dest f.origin f.payload)
  else if f.type = typeDeviceInfo then .ok (.deviceInfo f.dest f.origin f.payload)
  else if f.type = typeParamEntry then .ok (.paramEntry f.dest f.origin f.payload)
  else if f.type = typeParamRead then .ok (.paramRead f.dest f.origin f.payload)
  else if f.type = typeParamWrite then .ok (.paramWrite f.dest f.origin f.payload)
  else .error .unknownType

/-- A whole frame from the wire: SYNC, a legal LEN that is the frame's, a matching CRC (R90, R93, R94), then its fields. -/
def decodeFrame : Bytes → Except Reject Instr
  | sync :: len :: rest =>
    if sync ≠ syncByte then .error .notSync
    else if len.toNat < rxLenMin ∨ rxLenMax < len.toNat ∨ rest.length ≠ len.toNat then .error .frameLength
    else if Machine.crc8 (rest.take (len.toNat - 1)) ≠ rest.getD (len.toNat - 1) 0 then .error .frameCrc
    else (parseFrame (sync :: len :: rest)).bind frameInstr
  | _ => .error .notSync

/-! ### Parameter records -/

/-- The default KIND_CODE table (R11, G1): PRESUMED, the spec marks it as general knowledge (log 7). -/
def kindCodeDefault : List (BitVec 6 × ParamKind) :=
  [(0, .uint8), (1, .int8), (2, .uint16), (3, .int16), (4, .uint32), (5, .int32), (8, .float), (9, .textSelection),
   (10, .string), (11, .folder), (12, .info), (13, .command)]

/-- Bits 5:0 of the type byte (R107). -/
def kindField (tb : Byte) : BitVec 6 := tb.extractLsb' 0 6

/-- Bit 7 of the type byte, the hidden flag (R107); bit 6 is read by no definition. -/
def hiddenBit (tb : Byte) : Bool := tb.getLsbD 7

/-- The head of a record under a KIND_CODE table (R106, R189 to R191). -/
def parseRecord (kinds : List (BitVec 6 × ParamKind)) : Bytes → Except Reject RecordHead
  | parent :: tb :: c :: tail =>
    match kinds.lookup (kindField tb) with
    | none => .error .unknownKind
    | some k => .ok ⟨parent, hiddenBit tb, k, c :: tail⟩
  | _ => .error .recordTooShort

/-- The instruction a record's kind names (R108). -/
def recordInstr (h : RecordHead) : Instr :=
  match h.kind with
  | .uint8 => .uint8 h.parent h.hidden h.body
  | .int8 => .int8 h.parent h.hidden h.body
  | .uint16 => .uint16 h.parent h.hidden h.body
  | .int16 => .int16 h.parent h.hidden h.body
  | .uint32 => .uint32 h.parent h.hidden h.body
  | .int32 => .int32 h.parent h.hidden h.body
  | .float => .float h.parent h.hidden h.body
  | .textSelection => .textSelection h.parent h.hidden h.body
  | .string => .string h.parent h.hidden h.body
  | .folder => .folder h.parent h.hidden h.body
  | .info => .info h.parent h.hidden h.body
  | .command => .command h.parent h.hidden h.body

/-- A record under the default table. -/
def decodeRecord (d : Bytes) : Except Reject Instr := (parseRecord kindCodeDefault d).map recordInstr

/-- Decoding in one of the three encoding spaces. -/
def decode : Format → Bytes → Except Reject Instr
  | .hostCmd, bs => (decodeCommand bs).mapError Reject.command
  | .frameType, bs => decodeFrame bs
  | .paramKind, bs => decodeRecord bs

/-! ### The encoder -/

/-- The layout of an extended frame (R92, R155). -/
def frameBytes (t d o : Byte) (p : Bytes) : Bytes :=
  [syncByte, BitVec.ofNat 8 (p.length + 4), t, d, o] ++ p ++ [Machine.crc8 ([t, d, o] ++ p)]

/-- Encode(t, d, o, p) (R155): the frame, or none where the encoder refuses it: a payload of more than EXT_MAX_PAYLOAD bytes (R7), or a
TYPE that is not extended (DESIGN CHOICE, log 27). -/
def encodeFrame (t d o : Byte) (p : Bytes) : Option Bytes := if txOperandsOk t p then some (frameBytes t d o p) else none

/-- The default code of a kind (R11, R108). -/
def kindCodeOf : ParamKind → BitVec 6
  | .uint8 => 0
  | .int8 => 1
  | .uint16 => 2
  | .int16 => 3
  | .uint32 => 4
  | .int32 => 5
  | .float => 8
  | .textSelection => 9
  | .string => 10
  | .folder => 11
  | .info => 12
  | .command => 13

/-- The type byte of a kind and a hidden flag, bit 6 zero (R107; log 19). -/
def typeByte (hidden : Bool) (k : ParamKind) : Byte := BitVec.ofBool hidden ++ (0 : BitVec 1) ++ kindCodeOf k

/-- A parameter record from its head (R106). -/
def encodeRecord (parent : Byte) (hidden : Bool) (k : ParamKind) (body : Bytes) : Bytes := parent :: typeByte hidden k :: body

/-- The bytes of a well-formed instruction in its format (R92, R106, R120). -/
def encode : Instr → Bytes
  | .rxByte b => [0x01, b]
  | .tick => [0x02]
  | .startScan => [0x10]
  | .cancelScan => [0x11]
  | .loadParams dev cnt => [0x12, dev, cnt]
  | .cancelLoad => [0x13]
  | .writeParam dev param v => [0x14, dev, param, BitVec.ofNat 8 v.length] ++ v
  | .ptByte b => [0x20, b]
  | .ptConsume => [0x21]
  | .txFrame type dest origin p => [0x30, type, dest, origin, BitVec.ofNat 8 p.length] ++ p
  | .devicePing d o p => frameBytes typeDevicePing d o p
  | .deviceInfo d o p => frameBytes typeDeviceInfo d o p
  | .paramEntry d o p => frameBytes typeParamEntry d o p
  | .paramRead d o p => frameBytes typeParamRead d o p
  | .paramWrite d o p => frameBytes typeParamWrite d o p
  | .uint8 parent hidden body => encodeRecord parent hidden .uint8 body
  | .int8 parent hidden body => encodeRecord parent hidden .int8 body
  | .uint16 parent hidden body => encodeRecord parent hidden .uint16 body
  | .int16 parent hidden body => encodeRecord parent hidden .int16 body
  | .uint32 parent hidden body => encodeRecord parent hidden .uint32 body
  | .int32 parent hidden body => encodeRecord parent hidden .int32 body
  | .float parent hidden body => encodeRecord parent hidden .float body
  | .textSelection parent hidden body => encodeRecord parent hidden .textSelection body
  | .string parent hidden body => encodeRecord parent hidden .string body
  | .folder parent hidden body => encodeRecord parent hidden .folder body
  | .info parent hidden body => encodeRecord parent hidden .info body
  | .command parent hidden body => encodeRecord parent hidden .command body

/-! ### A word of the opcode table (log 13) -/

/-- The bytes of a table word, the first in its low 8 bits. -/
def wordBytes : Nat → Nat → Bytes
  | 0, _ => []
  | k + 1, w => BitVec.ofNat 8 w :: wordBytes k (w / 256)

/-- `bs` with zero bytes after it up to `k` bytes. -/
def padTo (k : Nat) (bs : Bytes) : Bytes := bs ++ List.replicate (k - bs.length) 0

/-- A host command whose missing operand bytes are zero, as long as R120 makes its opcode. -/
def tableCommand (bs : Bytes) : Bytes :=
  match bs with
  | [] => []
  | op :: _ =>
    if op = 0x01 ∨ op = 0x20 then padTo 2 bs
    else if op = 0x12 then padTo 3 bs
    else if op = 0x14 then
      let h := padTo 4 bs
      padTo (4 + (h.getD 3 0).toNat) h
    else if op = 0x30 then
      let h := padTo 5 bs
      padTo (5 + (h.getD 4 0).toNat) h
    else bs

/-- A frame of the given TYPE whose missing bytes are zero: SYNC, LEN and CRC are those R92 and R94 give it. -/
def tableFrame (bs : Bytes) : Bytes :=
  match padTo 3 bs with
  | t :: d :: o :: p => frameBytes t d o p
  | _ => []

/-- A record of the given type byte, parent 0, whose name and tail are zero bytes, as many as the longest tail needs. -/
def tableRecord (bs : Bytes) : Bytes :=
  match bs with
  | tb :: body => 0 :: tb :: padTo 23 body
  | [] => []

/-- The encoding space a table word is read in: a host command where its first byte is an opcode, else a frame type where it is
one, else a parameter kind. -/
inductive TableForm where
  | command (c : Bytes)
  | frame (f : Bytes)
  | record (d : Bytes)
deriving DecidableEq, Repr

/-- The bytes a table word of `nbits` bits stands for, laid out in its encoding space. -/
def tableForm (nbits w : Nat) : TableForm :=
  let bs := wordBytes ((nbits + 7) / 8) w
  if nbits < 8 then .record (tableRecord bs)
  else
    match decodeCommand (tableCommand bs) with
    | .ok _ => .command (tableCommand bs)
    | .error _ =>
      match decodeFrame (tableFrame bs) with
      | .ok _ => .frame (tableFrame bs)
      | .error _ => .record (tableRecord bs)

/-- The instruction the decoder reads from a table word. -/
def decodeTableWord (nbits w : Nat) : Option Instr :=
  match tableForm nbits w with
  | .command c => (decodeCommand c).toOption
  | .frame f => (decodeFrame f).toOption
  | .record d => (decodeRecord d).toOption

end Sys2Proof
end

