-- ==== Sys2Proof/Machine/State.lean ====
section
/-! DEFINITION. The state of CRSF-PE (10_state.md), as plain data, and its reset value (R57). -/

namespace Sys2Proof.Machine

/-- One of the byte memories of R70: the listed addresses hold a value, an unlisted address is Fresh and holds none (R58). -/
abbrev Memory := List Host.Cell

/-- The byte memories of R70. -/
inductive MemName where
  | rxbuf
  | ptbuf
  | reasm
deriving DecidableEq, Repr

/-- The receive states of R33. -/
inductive CodecState where
  | awaitSync
  | awaitLen
  | accum
  | complete
deriving DecidableEq, Repr

/-- The receive state of one codec: R33 to R35 for `rx`, R37 for `pt`. -/
structure Codec where
  state : CodecState
  buf   : Memory
  count : Nat
deriving DecidableEq, Repr

/-- `eng.req` (R38). -/
inductive Request where
  | idle
  | scanning
  | reading
  | writing
deriving DecidableEq, Repr

/-- `eng.err.code` (R48): the four values ever written. -/
inductive ErrCode where
  | none
  | bufOverflow
  | readTimeout
  | writeTimeout
deriving DecidableEq, Repr

/-- `eng.err` (R48). -/
structure LastError where
  code  : ErrCode
  param : Byte
deriving DecidableEq, Repr

/-- The registers of the Protocol Engine (R38 to R45, R48). -/
structure Engine where
  req          : Request
  scanStart    : Time
  lastActivity : Time
  target       : Byte
  count        : Byte
  curParam     : Byte
  curChunk     : Byte
  wParam       : Byte
  err          : LastError
deriving DecidableEq, Repr

/-- The reassembly buffer and its running length (R46). -/
structure Reasm where
  buf : Memory
  len : Nat
deriving DecidableEq, Repr

/-- A device descriptor (R182). -/
structure DeviceInfo where
  address    : Byte
  name       : Bytes
  serial     : Word32
  hwId       : Word32
  fwId       : Word32
  paramCount : Byte
  protoVer   : Byte
  online     : Bool
deriving DecidableEq, Repr

/-- The entries of `dev.list` below `dev.n` (R47); the entries above hold no value (R57; log 5). -/
structure DevList where
  list : List DeviceInfo
deriving DecidableEq, Repr

/-- A fixed-point pair (V, D) (R203). -/
structure Fixed where
  v : Word32
  d : Byte
deriving DecidableEq, Repr

/-- A decoded parameter (R188). The int32 fields hold their 32 bits (R111). -/
structure ParameterRecord where
  num     : Byte
  parent  : Byte
  kind    : ParamKind
  hidden  : Bool
  name    : Bytes
  cur     : Word32
  min     : Word32
  max     : Word32
  dflt    : Word32
  fcur    : Fixed
  fmin    : Fixed
  fmax    : Fixed
  fdef    : Fixed
  fstep   : Fixed
  dp      : Byte
  unit    : Bytes
  options : Bytes
  value   : Bytes
  maxlen  : Byte
  info    : Bytes
  status  : Byte
  timeout : Byte
deriving DecidableEq, Repr

/-- An event record (R130). -/
inductive Event where
  | deviceFound (info : DeviceInfo)
  | scanDone (ok immediate : Bool)
  | param (rec : ParameterRecord)
  | loadDone (ok : Bool)
  | writeDone (ok immediate : Bool)
  | ptFrame (bytes : Bytes) (extended : Bool)
  | cmdError (opcode : Byte) (reason : CmdReason)
deriving DecidableEq, Repr

/-- The TX byte stream and the event queue, oldest first (R55). -/
structure Output where
  tx : Bytes
  ev : List Event
deriving DecidableEq, Repr

/-- What the host presents with one step (R54). -/
structure HostInput where
  cmd   : Bytes
  now   : Time
  reset : Bool
deriving DecidableEq, Repr

/-- The state (R30), with the time input of the step under way (R10, R230; log 2) and the inputs the host will present, the
next one first (R54; log 1). -/
structure State where
  rx     : Codec
  pt     : Codec
  eng    : Engine
  reasm  : Reasm
  dev    : DevList
  out    : Output
  now    : Time
  inputs : List HostInput
deriving DecidableEq, Repr

/-- Why the machine stops. No state that meets the invariant of Safety.lean reaches one. -/
inductive Fault where
  /-- A Fresh byte is read: "Reading one is a fault of the model" (R58). Raised by the reads of Check, of a completed frame and of
  the reassembled record. Safe: the spec performs no such read. -/
  | freshRead (m : MemName)
  /-- A byte is written past the end of its memory (R70, R72). Raised by Feed. Safe: the spec performs no such write. -/
  | pastEnd (m : MemName)
deriving DecidableEq, Repr

/-- Why an instruction has no meaning. No arm of exec uses it. -/
inductive Refusal where
  /-- The instruction is not modelled yet. Safe: nothing is claimed of it. -/
  | notModelled (mnemonic : String)
deriving DecidableEq, Repr

/-- A codec after reset (R57): seeking sync, nothing held. -/
def Codec.fresh : Codec := { state := .awaitSync, buf := [], count := 0 }

/-- The engine registers after reset (R57). -/
def Engine.reset : Engine :=
  { req := .idle, scanStart := 0, lastActivity := 0, target := 0, count := 0, curParam := 0, curChunk := 0, wParam := 0,
    err := { code := .none, param := 0 } }

/-- The state after reset (R57, R340); `now` and `inputs` are the model's own (logs 1, 2). -/
def State.reset : State :=
  { rx := Codec.fresh
    pt := Codec.fresh
    eng := Engine.reset
    reasm := { buf := [], len := 0 }
    dev := { list := [] }
    out := { tx := [], ev := [] }
    now := 0
    inputs := [] }

end Sys2Proof.Machine
end

