-- ==== Sys2Proof/Machine/Flags.lean ====
section
/-! DEFINITION. The one-bit values. CRSF-PE has no flag register (R50): these are the classifications and tests its rules name, each
computed where a record is built or a branch is taken. -/

namespace Sys2Proof.Machine

/-- isExtended (R95, R163), an unsigned comparison. -/
def isExtended (t : Byte) : Bool := extTypeMin ≤ t

/-- A length byte a receiver with lower bound `lmin` admits (R96, R144). -/
def lenAdmitted (lmin : Nat) (b : Byte) : Bool := lmin ≤ b.toNat && b.toNat ≤ rxLenMax

/-- Elapsed (R271): the difference modulo 2^32. -/
def elapsed (now ref : Time) : Time := now - ref

/-- A window has expired (R271): Elapsed is at least its length, compared unsigned. -/
def expired (now ref window : Time) : Bool := window ≤ elapsed now ref

/-- The load is complete after this parameter (R268), tested before the increment. -/
def lastParameter (e : Engine) : Bool := e.count ≤ e.curParam

/-- A chunk of `n` data bytes would exceed the reassembly buffer (R265). -/
def wouldOverflow (r : Reasm) (n : Nat) : Bool := reasmCap < r.len + n

/-- The device list has room (R263). -/
def DevList.hasRoom (c : Config) (d : DevList) : Bool := d.list.length < c.maxDevices.size

end Sys2Proof.Machine
end

