-- ==== Sys2Proof/Machine/Operands.lean ====
section
/-! DEFINITION. Operand assembly: big-endian fields (R17, R73, R111), bounded strings (R180) and the tail readers of a record
(R181). A cursor c into the bytes d is held as the bytes d[c..] that are left. -/

namespace Sys2Proof.Machine

/-- The unsigned big-endian value of a byte sequence (R17, R73): byte 0 is most significant. -/
def beNat (bs : Bytes) : Nat := bs.foldl (fun acc b => acc * 256 + b.toNat) 0

/-- be_u, zero-extended to 32 bits (R17, R111). -/
def beU (bs : Bytes) : Word32 := BitVec.ofNat 32 (beNat bs)

/-- be_s: the same bits, sign-extended from the top bit of the first byte (R17, R111). -/
def beS (bs : Bytes) : Word32 := (BitVec.ofNat (8 * bs.length) (beNat bs)).signExtend 32

/-- The bytes of a string before its terminator or the end of the data (R110, R180). -/
def strBytes (d : Bytes) : Bytes := d.takeWhile (fun b => b != 0)

/-- The bytes after a string and its terminator (R180, D36): the cursor passes the whole string even when the copy is truncated. -/
def strRest (d : Bytes) : Bytes := (d.dropWhile (fun b => b != 0)).drop 1

/-- BStr (R180): the stored string, at most `cap − 1` bytes, and what is left of the data. -/
def bStr (cap : Capacity) (d : Bytes) : Bytes × Bytes := ((strBytes d).take (cap.size - 1), strRest d)

/-- Where a tail is being read: what is left of the record, and the flag `ok` (R181). -/
structure Tail where
  rest : Bytes
  ok   : Bool
deriving DecidableEq, Repr

/-- Fld (R181): a field of `w` bytes, or zero and `ok` cleared where it does not fit; zero once `ok` is clear. -/
def fld (w : Nat) (assemble : Bytes → Word32) (t : Tail) : Word32 × Tail :=
  if t.ok then
    if t.rest.length < w then (0, { t with ok := false })
    else (assemble (t.rest.take w), { t with rest := t.rest.drop w })
  else (0, t)

/-- `Fld(w, unsigned)` (R181). -/
def fldU (w : Nat) (t : Tail) : Word32 × Tail := fld w beU t

/-- `Fld(w, signed)` (R181). -/
def fldS (w : Nat) (t : Tail) : Word32 × Tail := fld w beS t

/-- A one-byte field kept as a byte (R109). -/
def fldByte (t : Tail) : Byte × Tail :=
  let (v, t) := fldU 1 t
  (v.setWidth 8, t)

/-- Str (R181): a bounded string, empty once `ok` is clear; an empty rest gives the empty string and leaves `ok` (D41). -/
def str (cap : Capacity) (t : Tail) : Bytes × Tail :=
  if t.ok then
    let (s, rest) := bStr cap t.rest
    (s, { t with rest := rest })
  else ([], t)

/-- The exact rational value V / 10^D of a fixed-point pair, V signed (R203). -/
def Fixed.real (x : Fixed) : Rat := (x.v.toInt : Rat) / (10 ^ x.d.toNat : Nat)

/-- The machine float of a pair, where a model needs one (R13, R203). No definition of this model needs it. -/
def Fixed.rendered (x : Fixed) : BitVec 64 := Config.floatRender x.v x.d

end Sys2Proof.Machine
end

