-- ==== Sys2Proof/Machine/Ops.lean ====
section
/-! DEFINITION. The named operations over memory and registers, and the two shared routines that take the place of exception entry
on this hardware (R315): Complete (R270) and the Malformed report (R307). There is no return from an exception (R316). -/

namespace Sys2Proof.Machine

/-- The configuration of the machine: OPEN parameters, and the default KIND_CODE (R11, log 7). -/
def given : Config where
  scanTimeout := Config.openScanTimeout
  paramTimeout := Config.openParamTimeout
  capDevName := Config.openCapDevName
  capPName := Config.openCapPName
  capUnit := Config.openCapUnit
  capOptions := Config.openCapOptions
  capStrVal := Config.openCapStrVal
  capInfo := Config.openCapInfo
  maxDevices := Config.openMaxDevices
  kindCode := kindCodeDefault
  truncPolicy := Config.openTruncPolicy

/-! ### Byte memories -/

/-- One byte, none where the address is Fresh (R58). -/
def Memory.read : Memory → Nat → Option Byte
  | [], _ => none
  | (a, b) :: m, i => if a = i then some b else Memory.read m i

/-- One byte written; the addresses stay in rising order, one entry each. -/
def Memory.write : Memory → Nat → Byte → Memory
  | [], i, v => [(i, v)]
  | (a, b) :: m, i, v =>
    if i < a then (i, v) :: (a, b) :: m
    else if i = a then (i, v) :: m
    else (a, b) :: Memory.write m i v

/-- MemRead(buf, i, n) (R18): none where one of the bytes is Fresh. -/
def Memory.readRange (m : Memory) (i : Nat) : Nat → Option Bytes
  | 0 => some []
  | n + 1 =>
    match Memory.read m i, Memory.readRange m (i + 1) n with
    | some b, some bs => some (b :: bs)
    | _, _ => none

/-- MemWrite(buf, i, n, v) (R18). -/
def Memory.writeRange (m : Memory) (i : Nat) : Bytes → Memory
  | [] => m
  | b :: bs => Memory.writeRange (Memory.write m i b) (i + 1) bs

/-- The addresses that hold a value. -/
def Memory.addresses (m : Memory) : List Nat := m.map Prod.fst

/-- The canonical form: addresses strictly rising. Every listed entry differs from an unlisted one, which holds no value. -/
def Memory.wf : Memory → Bool
  | [] => true
  | [_] => true
  | (a, _) :: (b, y) :: m => a < b && Memory.wf ((b, y) :: m)

/-- The size of a memory (R70). -/
def MemName.size : MemName → Nat
  | .rxbuf => maxFrame
  | .ptbuf => maxFrame
  | .reasm => reasmCap

/-! ### Outputs and time -/

/-- Emit(event) (R19, R311). -/
def State.emit (e : Event) (s : State) : State := { s with out := { s.out with ev := s.out.ev ++ [e] } }

/-- Send(bytes) (R19, R55). -/
def State.send (bs : Bytes) (s : State) : State := { s with out := { s.out with tx := s.out.tx ++ bs } }

/-- `eng.last_activity <- now` (R40, R272). -/
def State.stamp (s : State) : State := { s with eng := { s.eng with lastActivity := s.now } }

/-- SendFrame (R156): what Encode gives is sent, and the activity stamped. No caller asks for a frame that Encode refuses (R155); for
such a one nothing happens (log 27). -/
def State.sendFrame (t d o : Byte) (p : Bytes) (s : State) : State :=
  match encodeFrame t d o p with
  | some f => (s.send f).stamp
  | none => s

/-- DEVICE_PING as it is sent (R98, R233). -/
def State.sendPing (s : State) : State := s.sendFrame typeDevicePing addrBroadcast addrSelf []

/-- PARAM_READ as it is sent (R100): the parameter number and the chunk number. -/
def State.sendParamRead (dest param chunk : Byte) (s : State) : State :=
  s.sendFrame typeParamRead dest addrSelf [param, chunk]

/-- PARAM_WRITE as it is sent (R101): the parameter number and the value bytes. -/
def State.sendParamWrite (dest param : Byte) (v : Bytes) (s : State) : State :=
  s.sendFrame typeParamWrite dest addrSelf (param :: v)

/-! ### Requests -/

/-- `eng.req <- r`. -/
def State.setReq (r : Request) (s : State) : State := { s with eng := { s.eng with req := r } }

/-- `eng.err <- e`, where there is an error (R48). -/
def State.recordError (e : Option LastError) (s : State) : State :=
  match e with
  | some e => { s with eng := { s.eng with err := e } }
  | none => s

/-- The completion event of the request that was in progress (R270). -/
def completionEvent (ok : Bool) : Request → Option Event
  | .scanning => some (.scanDone ok false)
  | .reading => some (.loadDone ok)
  | .writing => some (.writeDone ok false)
  | .idle => none

/-- Emit where there is an event. -/
def State.emitOpt (e : Option Event) (s : State) : State :=
  match e with
  | some e => s.emit e
  | none => s

/-- Complete(ok, e) (R21, R270): IDLE first, then the error, then the one event of the previous state. -/
def State.complete (ok : Bool) (e : Option LastError) (s : State) : State :=
  ((s.setReq .idle).recordError e).emitOpt (completionEvent ok s.eng.req)

/-- raise Malformed (R230, R307): one CMD_ERROR and nothing else. -/
def State.malformed (opcode : Byte) (r : CmdReason) (s : State) : State := s.emit (.cmdError opcode r)

/-! ### Buffers -/

/-- Reset(u) (R148): seeking sync, and the bytes Fresh. -/
def resetCodec (_u : Codec) : Codec := Codec.fresh

/-- `reasm.len <- 0`: no byte of the buffer holds a value any more (U2; log 3). -/
def State.clearReasm (s : State) : State := { s with reasm := { buf := [], len := 0 } }

/-- The chunk's bytes stored at `reasm.len` and the length moved on (R265). -/
def State.appendReasm (data : Bytes) (s : State) : State :=
  { s with reasm := { buf := Memory.writeRange s.reasm.buf s.reasm.len data, len := s.reasm.len + data.length } }

/-- The bytes reassembled so far (R46), none where one is Fresh. -/
def Reasm.bytes (r : Reasm) : Option Bytes := Memory.readRange r.buf 0 r.len

/-- `dev.n` (R47). -/
def DevList.n (d : DevList) : Nat := d.list.length

/-- A device stored where there is room (R263). -/
def State.storeDevice (c : Config) (r : DeviceInfo) (s : State) : State :=
  if s.dev.hasRoom c then { s with dev := { list := s.dev.list ++ [r] } } else s

/-- ResetAll (R340, R341). The input queue and the time input stand outside the block (log 20). -/
def State.resetAll (s : State) : State := { State.reset with now := s.now, inputs := s.inputs }

end Sys2Proof.Machine
end

