-- ==== Sys2Proof/Machine/Codec.lean ====
section
/-! DEFINITION. The Frame Codec's decoder, shared by the engine's codec and the Passthrough Frame Detector (R142 to R149, R160). -/

namespace Sys2Proof.Machine

/-- What Feed gives: the unit's new state, `done` (R142), and whether it raised Noise (R301). -/
structure FeedResult where
  unit  : Codec
  done  : Bool
  noise : Bool
deriving DecidableEq, Repr

/-- One byte stored at an index of a frame buffer, a fault past its end (R70, R72). -/
def storeByte (m : MemName) (u : Codec) (b : Byte) : Except Fault Memory :=
  if u.count < m.size then .ok (Memory.write u.buf u.count b) else .error (.pastEnd m)

/-- Feed, arm AWAIT_SYNC (R143). -/
def feedSync (u : Codec) (b : Byte) : FeedResult :=
  if b = syncByte then ⟨{ state := .awaitLen, buf := Memory.write u.buf 0 b, count := 1 }, false, false⟩
  else ⟨u, false, true⟩

/-- Feed, arm AWAIT_LEN (R144): any byte here is taken as the length byte. -/
def feedLen (lmin : Nat) (u : Codec) (b : Byte) : FeedResult :=
  if lenAdmitted lmin b then ⟨{ state := .accum, buf := Memory.write u.buf 1 b, count := 2 }, false, false⟩
  else ⟨Codec.fresh, false, true⟩

/-- Check (R146): the CRC of indices 2 to L against index L + 1. -/
def check (m : MemName) (u : Codec) : Except Fault FeedResult :=
  match Memory.read u.buf 1 with
  | none => .error (.freshRead m)
  | some len =>
    match Memory.readRange u.buf 2 (len.toNat - 1), Memory.read u.buf (len.toNat + 1) with
    | some body, some c =>
      if crc8 body = c then .ok ⟨{ u with state := .complete }, true, false⟩ else .ok ⟨Codec.fresh, false, true⟩
    | _, _ => .error (.freshRead m)

/-- Feed, arm ACCUM (R145). -/
def feedAccum (m : MemName) (u : Codec) (b : Byte) : Except Fault FeedResult :=
  match storeByte m u b with
  | .error f => .error f
  | .ok buf =>
    let u' : Codec := { u with buf := buf, count := u.count + 1 }
    match Memory.read u'.buf 1 with
    | none => .error (.freshRead m)
    | some len => if u'.count = len.toNat + 2 then check m u' else .ok ⟨u', false, false⟩

/-- Feed(u, b, LMIN) (R142): one arm per receive state; COMPLETE drops the byte and keeps the frame (R147). -/
def feed (m : MemName) (lmin : Nat) (u : Codec) (b : Byte) : Except Fault FeedResult :=
  match u.state with
  | .awaitSync => .ok (feedSync u b)
  | .awaitLen => .ok (feedLen lmin u b)
  | .accum => feedAccum m u b
  | .complete => .ok ⟨u, false, true⟩

/-- The completed frame `u.buf[0..L+1]` (R149). -/
def heldFrame (m : MemName) (u : Codec) : Except Fault Bytes :=
  match Memory.read u.buf 1 with
  | none => .error (.freshRead m)
  | some len =>
    match Memory.readRange u.buf 0 (len.toNat + 2) with
    | some f => .ok f
    | none => .error (.freshRead m)

end Sys2Proof.Machine
end

