-- ==== Sys2Proof/Machine/Kinds.lean ====
section
/-! DEFINITION. The Parameter Codec's decodeParameter (41_parameter_codec.md section 3) and the meanings of the twelve parameter
kinds (section 4). A kind's meaning decodes the record's bytes and delivers the result as LastChunk does (R267; log 12). -/

namespace Sys2Proof.Machine

/-! ### The record and its policy -/

/-- A record with its head fields, every other field at its zero value (R188, R194). -/
def zeroRecord (kind : ParamKind) (num parent : Byte) (hidden : Bool) (name : Bytes) : ParameterRecord :=
  { num := num, parent := parent, kind := kind, hidden := hidden, name := name
    cur := 0, min := 0, max := 0, dflt := 0
    fcur := ⟨0, 0⟩, fmin := ⟨0, 0⟩, fmax := ⟨0, 0⟩, fdef := ⟨0, 0⟩, fstep := ⟨0, 0⟩, dp := 0
    unit := [], options := [], value := [], maxlen := 0, info := [], status := 0, timeout := 0 }

/-- The truncation policy (R193): REJECT refuses a record one of whose fields did not fit. -/
def truncate (c : Config) (r : ParameterRecord) (t : Tail) : Option ParameterRecord :=
  match t.ok, c.truncPolicy with
  | false, .reject => none
  | _, _ => some r

/-- The name, read from offset 2 of the record (R192): it never clears `ok`. -/
def readName (c : Config) (body : Bytes) : Bytes × Tail :=
  let (name, rest) := bStr c.capPName body
  (name, { rest := rest, ok := true })

/-- Four numeric fields of one width and the unit string (R195 to R200). -/
def readInteger (c : Config) (kind : ParamKind) (field : Tail → Word32 × Tail) (num parent : Byte) (hidden : Bool)
    (body : Bytes) : Option ParameterRecord :=
  let (name, t) := readName c body
  let (cur, t) := field t
  let (min, t) := field t
  let (max, t) := field t
  let (dflt, t) := field t
  let (unit, t) := str c.capUnit t
  truncate c { zeroRecord kind num parent hidden name with cur := cur, min := min, max := max, dflt := dflt, unit := unit } t

/-! ### One reader per kind -/

/-- UINT8 (R195). -/
def readUint8 (c : Config) (num parent : Byte) (hidden : Bool) (body : Bytes) : Option ParameterRecord :=
  readInteger c .uint8 (fldU 1) num parent hidden body

/-- INT8 (R196). -/
def readInt8 (c : Config) (num parent : Byte) (hidden : Bool) (body : Bytes) : Option ParameterRecord :=
  readInteger c .int8 (fldS 1) num parent hidden body

/-- UINT16 (R197). -/
def readUint16 (c : Config) (num parent : Byte) (hidden : Bool) (body : Bytes) : Option ParameterRecord :=
  readInteger c .uint16 (fldU 2) num parent hidden body

/-- INT16 (R198). -/
def readInt16 (c : Config) (num parent : Byte) (hidden : Bool) (body : Bytes) : Option ParameterRecord :=
  readInteger c .int16 (fldS 2) num parent hidden body

/-- UINT32 (R199): the 32 bits are kept, read back as int32. -/
def readUint32 (c : Config) (num parent : Byte) (hidden : Bool) (body : Bytes) : Option ParameterRecord :=
  readInteger c .uint32 (fldU 4) num parent hidden body

/-- INT32 (R200). -/
def readInt32 (c : Config) (num parent : Byte) (hidden : Bool) (body : Bytes) : Option ParameterRecord :=
  readInteger c .int32 (fldS 4) num parent hidden body

/-- FLOAT (R201, G3): all five pairs take the record's one decimal-point byte. -/
def readFloat (c : Config) (num parent : Byte) (hidden : Bool) (body : Bytes) : Option ParameterRecord :=
  let (name, t) := readName c body
  let (cur, t) := fldS 4 t
  let (min, t) := fldS 4 t
  let (max, t) := fldS 4 t
  let (dflt, t) := fldS 4 t
  let (dp, t) := fldByte t
  let (step, t) := fldS 4 t
  let (unit, t) := str c.capUnit t
  truncate c
    { zeroRecord .float num parent hidden name with
      fcur := ⟨cur, dp⟩, fmin := ⟨min, dp⟩, fmax := ⟨max, dp⟩, fdef := ⟨dflt, dp⟩, fstep := ⟨step, dp⟩, dp := dp, unit := unit } t

/-- TEXT_SELECTION (R204): the options string is kept whole. -/
def readTextSelection (c : Config) (num parent : Byte) (hidden : Bool) (body : Bytes) : Option ParameterRecord :=
  let (name, t) := readName c body
  let (options, t) := str c.capOptions t
  let (cur, t) := fldU 1 t
  let (min, t) := fldU 1 t
  let (max, t) := fldU 1 t
  let (dflt, t) := fldU 1 t
  let (unit, t) := str c.capUnit t
  truncate c
    { zeroRecord .textSelection num parent hidden name with
      options := options, cur := cur, min := min, max := max, dflt := dflt, unit := unit } t

/-- STRING (R205). -/
def readString (c : Config) (num parent : Byte) (hidden : Bool) (body : Bytes) : Option ParameterRecord :=
  let (name, t) := readName c body
  let (value, t) := str c.capStrVal t
  let (maxlen, t) := fldByte t
  truncate c { zeroRecord .string num parent hidden name with value := value, maxlen := maxlen } t

/-- FOLDER (R206): no tail. -/
def readFolder (c : Config) (num parent : Byte) (hidden : Bool) (body : Bytes) : Option ParameterRecord :=
  let (name, t) := readName c body
  truncate c (zeroRecord .folder num parent hidden name) t

/-- INFO (R207). -/
def readInfo (c : Config) (num parent : Byte) (hidden : Bool) (body : Bytes) : Option ParameterRecord :=
  let (name, t) := readName c body
  let (info, t) := str c.capInfo t
  truncate c { zeroRecord .info num parent hidden name with info := info } t

/-- COMMAND (R208). -/
def readCommand (c : Config) (num parent : Byte) (hidden : Bool) (body : Bytes) : Option ParameterRecord :=
  let (name, t) := readName c body
  let (status, t) := fldByte t
  let (timeout, t) := fldByte t
  let (info, t) := str c.capInfo t
  truncate c { zeroRecord .command num parent hidden name with status := status, timeout := timeout, info := info } t

/-- The reader the kind selects (R193). -/
def readRecord (c : Config) (num : Byte) (h : RecordHead) : Option ParameterRecord :=
  match h.kind with
  | .uint8 => readUint8 c num h.parent h.hidden h.body
  | .int8 => readInt8 c num h.parent h.hidden h.body
  | .uint16 => readUint16 c num h.parent h.hidden h.body
  | .int16 => readInt16 c num h.parent h.hidden h.body
  | .uint32 => readUint32 c num h.parent h.hidden h.body
  | .int32 => readInt32 c num h.parent h.hidden h.body
  | .float => readFloat c num h.parent h.hidden h.body
  | .textSelection => readTextSelection c num h.parent h.hidden h.body
  | .string => readString c num h.parent h.hidden h.body
  | .folder => readFolder c num h.parent h.hidden h.body
  | .info => readInfo c num h.parent h.hidden h.body
  | .command => readCommand c num h.parent h.hidden h.body

/-- decodeParameter(num, d) (R189 to R193, R210): none is REJECT. -/
def decodeParameter (c : Config) (num : Byte) (d : Bytes) : Option ParameterRecord :=
  match parseRecord c.kindCode d with
  | .ok h => readRecord c num h
  | .error _ => none

/-! ### The meanings -/

/-- A record delivered, and nothing where it was rejected (R267). -/
def State.deliver (r : Option ParameterRecord) (s : State) : State := s.emitOpt (r.map Event.param)

/-- UINT8 (R195): decoded under the number being read, and delivered (R267). -/
def execUint8 (parent : Byte) (hidden : Bool) (body : Bytes) (s : State) : Host.Outcome State Fault Refusal :=
  .next (s.deliver (readUint8 given s.eng.curParam parent hidden body))

/-- INT8 (R196). -/
def execInt8 (parent : Byte) (hidden : Bool) (body : Bytes) (s : State) : Host.Outcome State Fault Refusal :=
  .next (s.deliver (readInt8 given s.eng.curParam parent hidden body))

/-- UINT16 (R197). -/
def execUint16 (parent : Byte) (hidden : Bool) (body : Bytes) (s : State) : Host.Outcome State Fault Refusal :=
  .next (s.deliver (readUint16 given s.eng.curParam parent hidden body))

/-- INT16 (R198). -/
def execInt16 (parent : Byte) (hidden : Bool) (body : Bytes) (s : State) : Host.Outcome State Fault Refusal :=
  .next (s.deliver (readInt16 given s.eng.curParam parent hidden body))

/-- UINT32 (R199). -/
def execUint32 (parent : Byte) (hidden : Bool) (body : Bytes) (s : State) : Host.Outcome State Fault Refusal :=
  .next (s.deliver (readUint32 given s.eng.curParam parent hidden body))

/-- INT32 (R200). -/
def execInt32 (parent : Byte) (hidden : Bool) (body : Bytes) (s : State) : Host.Outcome State Fault Refusal :=
  .next (s.deliver (readInt32 given s.eng.curParam parent hidden body))

/-- FLOAT (R201). -/
def execFloat (parent : Byte) (hidden : Bool) (body : Bytes) (s : State) : Host.Outcome State Fault Refusal :=
  .next (s.deliver (readFloat given s.eng.curParam parent hidden body))

/-- TEXT_SELECTION (R204). -/
def execTextSelection (parent : Byte) (hidden : Bool) (body : Bytes) (s : State) : Host.Outcome State Fault Refusal :=
  .next (s.deliver (readTextSelection given s.eng.curParam parent hidden body))

/-- STRING (R205). -/
def execString (parent : Byte) (hidden : Bool) (body : Bytes) (s : State) : Host.Outcome State Fault Refusal :=
  .next (s.deliver (readString given s.eng.curParam parent hidden body))

/-- FOLDER (R206). -/
def execFolder (parent : Byte) (hidden : Bool) (body : Bytes) (s : State) : Host.Outcome State Fault Refusal :=
  .next (s.deliver (readFolder given s.eng.curParam parent hidden body))

/-- INFO (R207). -/
def execInfo (parent : Byte) (hidden : Bool) (body : Bytes) (s : State) : Host.Outcome State Fault Refusal :=
  .next (s.deliver (readInfo given s.eng.curParam parent hidden body))

/-- COMMAND (R208). -/
def execCommand (parent : Byte) (hidden : Bool) (body : Bytes) (s : State) : Host.Outcome State Fault Refusal :=
  .next (s.deliver (readCommand given s.eng.curParam parent hidden body))

end Sys2Proof.Machine
end

