-- ==== Sys2Proof/Machine/Frames.lean ====
section
/-! DEFINITION. The received frame types: decodeDeviceInfo (R183), the handlers of DEVICE_INFO (R263) and PARAM_ENTRY (R264 to
R267), the types the engine ignores (R262), and Route (R260). -/

namespace Sys2Proof.Machine

/-! ### DEVICE_INFO -/

/-- decodeDeviceInfo(origin, p) (R183 to R186); none is REJECT. The second test rejects a payload of fewer than k + 15 bytes, of
which k + 1 are the name and its terminator; a payload with no terminator is rejected first. -/
def decodeDeviceInfo (c : Config) (origin : Byte) (p : Bytes) : Option DeviceInfo :=
  if p.contains 0 = false then none
  else if p.length < (strBytes p).length + 15 then none
  else
    let (name, f) := bStr c.capDevName p
    some
      { address := origin
        name := name
        serial := beU (f.take 4)
        hwId := beU ((f.drop 4).take 4)
        fwId := beU ((f.drop 8).take 4)
        paramCount := f.getD 12 0
        protoVer := f.getD 13 0
        online := true }

/-- OnDeviceInfo(origin, p) (R263). -/
def onDeviceInfo (c : Config) (origin : Byte) (p : Bytes) (s : State) : State :=
  if s.eng.req = .scanning then
    match decodeDeviceInfo c origin p with
    | none => s
    | some r => (s.storeDevice c r).emit (.deviceFound r)
  else s

/-- DEVICE_INFO (R263). DEST is not read (R260). -/
def execDeviceInfo (_dest origin : Byte) (p : Bytes) (s : State) : Host.Outcome State Fault Refusal :=
  .next (onDeviceInfo given origin p s)

/-! ### PARAM_ENTRY -/

/-- NextChunk (R266). -/
def nextChunk (s : State) : State :=
  let s' := { s with eng := { s.eng with curChunk := s.eng.curChunk + 1 } }
  s'.sendParamRead s'.eng.target s'.eng.curParam s'.eng.curChunk

/-- LastChunk after the record has been delivered (R267): the next parameter, or the end of the load (R268). -/
def advanceParam (s : State) : State :=
  let s' := { s with eng := { s.eng with curParam := s.eng.curParam + 1, curChunk := 0 } }.clearReasm
  if lastParameter s.eng then s'.complete true none else s'.sendParamRead s'.eng.target s'.eng.curParam 0

/-- LastChunk (R267). -/
def lastChunk (c : Config) (s : State) : Host.Outcome State Fault Refusal :=
  match s.reasm.bytes with
  | none => .fault (.freshRead .reasm)
  | some d => .next (advanceParam (s.deliver (decodeParameter c s.eng.curParam d)))

/-- "if chunk index is 0, reset the reassembly buffer" (R265). -/
def startChunk (s : State) : State := if s.eng.curChunk = 0 then s.clearReasm else s

/-- AcceptChunk(remaining, data) (R265). -/
def acceptChunk (c : Config) (remaining : Byte) (data : Bytes) (s : State) : Host.Outcome State Fault Refusal :=
  let s := startChunk s
  if wouldOverflow s.reasm data.length then
    .next (s.complete false (some { code := .bufOverflow, param := s.eng.curParam }))
  else
    let s := (s.appendReasm data).stamp
    if remaining = 0 then lastChunk c s else .next (nextChunk s)

/-- OnParamEntry(origin, p) (R264). -/
def onParamEntry (c : Config) (origin : Byte) (p : Bytes) (s : State) : Host.Outcome State Fault Refusal :=
  if s.eng.req = .reading then
    match p with
    | pnum :: remaining :: data =>
      if origin = s.eng.target ∧ pnum = s.eng.curParam then acceptChunk c remaining data s else .next s
    | _ => .next s
  else .next s

/-- PARAM_ENTRY (R264 to R268). DEST is not read (R260). -/
def execParamEntry (_dest origin : Byte) (p : Bytes) (s : State) : Host.Outcome State Fault Refusal :=
  onParamEntry given origin p s

/-! ### The types the engine ignores -/

/-- DEVICE_PING received from the wire: ignored in every state (R262). -/
def onDevicePing (_origin : Byte) (_p : Bytes) (s : State) : State := s

/-- PARAM_READ received from the wire: ignored in every state (R262). -/
def onParamRead (_origin : Byte) (_p : Bytes) (s : State) : State := s

/-- PARAM_WRITE received from the wire: ignored in every state (R262). -/
def onParamWrite (_origin : Byte) (_p : Bytes) (s : State) : State := s

/-- DEVICE_PING (R97, R262). -/
def execDevicePing (_dest origin : Byte) (p : Bytes) (s : State) : Host.Outcome State Fault Refusal :=
  .next (onDevicePing origin p s)

/-- PARAM_READ (R97, R262). -/
def execParamRead (_dest origin : Byte) (p : Bytes) (s : State) : Host.Outcome State Fault Refusal :=
  .next (onParamRead origin p s)

/-- PARAM_WRITE (R97, R262). -/
def execParamWrite (_dest origin : Byte) (p : Bytes) (s : State) : Host.Outcome State Fault Refusal :=
  .next (onParamWrite origin p s)

/-! ### Route -/

/-- The handler of an extended frame's TYPE; every other type is ignored (R260, R262). -/
def routeFrame (c : Config) (f : Frame) (s : State) : Host.Outcome State Fault Refusal :=
  if f.type = typeDevicePing then .next (onDevicePing f.origin f.payload s)
  else if f.type = typeDeviceInfo then .next (onDeviceInfo c f.origin f.payload s)
  else if f.type = typeParamEntry then onParamEntry c f.origin f.payload s
  else if f.type = typeParamRead then .next (onParamRead f.origin f.payload s)
  else if f.type = typeParamWrite then .next (onParamWrite f.origin f.payload s)
  else .next s

/-- Route(f) (R260): short and standard frames are ignored (R261, R262). -/
def route (c : Config) (f : Bytes) (s : State) : Host.Outcome State Fault Refusal :=
  match parseFrame f with
  | .error _ => .next s
  | .ok fr => routeFrame c fr s

end Sys2Proof.Machine
end

