-- ==== Sys2Proof/Machine/Commands.lean ====
section
/-! DEFINITION. The ten host commands: those of the Protocol Engine (42_protocol_engine.md section 2) and those of the framing units
(40_frame_codec.md section 5). -/

namespace Sys2Proof.Machine

/-! ### RX_BYTE -/

/-- Reset(rx) after routing (R231), where routing went on. -/
def thenResetRx : Host.Outcome State Fault Refusal → Host.Outcome State Fault Refusal
  | .next s => .next { s with rx := resetCodec s.rx }
  | .fault f => .fault f
  | .refused r => .refused r

/-- The completed frame routed, then the codec reset, in the step that completed it (R231, D45). -/
def routeHeld (c : Config) (s : State) : Host.Outcome State Fault Refusal :=
  match heldFrame .rxbuf s.rx with
  | .error f => .fault f
  | .ok f => thenResetRx (route c f s)

/-- RX_BYTE b (R231) under a configuration. -/
def rxByte (c : Config) (b : Byte) (s : State) : Host.Outcome State Fault Refusal :=
  match feed .rxbuf rxLenMin s.rx b with
  | .error f => .fault f
  | .ok r =>
    let s := { s with rx := r.unit }
    if r.done then routeHeld c s else .next s

/-- RX_BYTE (R231). -/
def execRxByte (b : Byte) (s : State) : Host.Outcome State Fault Refusal := rxByte given b s

/-! ### TICK -/

/-- TICK (R232) under a configuration. -/
def tick (c : Config) (s : State) : State :=
  match s.eng.req with
  | .scanning => if expired s.now s.eng.scanStart c.scanTimeout then s.complete true none else s
  | .reading =>
    if expired s.now s.eng.lastActivity c.paramTimeout then
      s.complete false (some { code := .readTimeout, param := s.eng.curParam })
    else s
  | .writing =>
    if expired s.now s.eng.lastActivity c.paramTimeout then
      s.complete false (some { code := .writeTimeout, param := s.eng.wParam })
    else s
  | .idle => s

/-- TICK (R232). -/
def execTick (s : State) : Host.Outcome State Fault Refusal := .next (tick given s)

/-! ### Requests -/

/-- START_SCAN (R233). -/
def execStartScan (s : State) : Host.Outcome State Fault Refusal :=
  if s.eng.req ≠ .idle then .next (s.emit (.scanDone false true))
  else
    .next ({ s with dev := { list := [] }, eng := { s.eng with scanStart := s.now, req := .scanning } }.sendPing)

/-- CANCEL_SCAN (R234). -/
def execCancelScan (s : State) : Host.Outcome State Fault Refusal :=
  if s.eng.req = .scanning then .next (s.setReq .idle) else .next s

/-- The registers a load starts from (R235): the prior load or scan is superseded with no event (R306). -/
def beginLoad (dev cnt : Byte) (s : State) : State :=
  { s with eng := { s.eng with req := .reading, target := dev, count := cnt, curParam := 1, curChunk := 0 } }.clearReasm

/-- LOAD_PARAMS (R235). -/
def execLoadParams (dev cnt : Byte) (s : State) : Host.Outcome State Fault Refusal :=
  let s := beginLoad dev cnt s
  if cnt = 0 then .next (s.complete true none) else .next (s.sendParamRead dev 1 0)

/-- CANCEL_LOAD (R236). -/
def execCancelLoad (s : State) : Host.Outcome State Fault Refusal :=
  if s.eng.req = .reading then .next (s.setReq .idle) else .next s

/-- WRITE_PARAM (R237): the operand range first (R122, R309), then the busy test, then the write and its optimistic end. -/
def execWriteParam (dev param : Byte) (v : Bytes) (s : State) : Host.Outcome State Fault Refusal :=
  if writeOperandsOk v then
    if s.eng.req ≠ .idle then .next (s.emit (.writeDone false true))
    else
      let s := { s with eng := { s.eng with req := .writing, wParam := param } }
      .next ((s.sendParamWrite dev param v).complete true none)
  else .next (s.malformed 0x14 .badOperand)

/-! ### The framing units -/

/-- The PT_FRAME event of the frame the detector holds (R165, R132). -/
def reportFrame (s : State) : Host.Outcome State Fault Refusal :=
  match heldFrame .ptbuf s.pt, Memory.read s.pt.buf 2 with
  | .ok f, some t => .next (s.emit (.ptFrame f (isExtended t)))
  | _, _ => .fault (.freshRead .ptbuf)

/-- PT_BYTE (R165). -/
def execPtByte (b : Byte) (s : State) : Host.Outcome State Fault Refusal :=
  match feed .ptbuf ptLenMin s.pt b with
  | .error f => .fault f
  | .ok r =>
    let s := { s with pt := r.unit }
    if r.done then reportFrame s else .next s

/-- PT_CONSUME (R166). -/
def execPtConsume (s : State) : Host.Outcome State Fault Refusal :=
  if s.pt.state = .complete then .next { s with pt := resetCodec s.pt } else .next s

/-- TX_FRAME (R167): the operand range (R122), then SendFrame in every request state. -/
def execTxFrame (type dest origin : Byte) (p : Bytes) (s : State) : Host.Outcome State Fault Refusal :=
  if txOperandsOk type p then .next (s.sendFrame type dest origin p) else .next (s.malformed 0x30 .badOperand)

end Sys2Proof.Machine
end

