-- ==== Sys2Proof/Machine/Dispatch.lean ====
section
/-! DEFINITION. One arm per instruction. -/

namespace Sys2Proof.Machine

def exec (i : Instr) (s : State) : Host.Outcome State Fault Refusal :=
  match i with
  | .rxByte b => Sys2Proof.Machine.execRxByte b s
  | .tick => Sys2Proof.Machine.execTick s
  | .startScan => Sys2Proof.Machine.execStartScan s
  | .cancelScan => Sys2Proof.Machine.execCancelScan s
  | .loadParams dev cnt => Sys2Proof.Machine.execLoadParams dev cnt s
  | .cancelLoad => Sys2Proof.Machine.execCancelLoad s
  | .writeParam dev param v => Sys2Proof.Machine.execWriteParam dev param v s
  | .ptByte b => Sys2Proof.Machine.execPtByte b s
  | .ptConsume => Sys2Proof.Machine.execPtConsume s
  | .txFrame type dest origin p => Sys2Proof.Machine.execTxFrame type dest origin p s
  | .devicePing dest origin p => Sys2Proof.Machine.execDevicePing dest origin p s
  | .deviceInfo dest origin p => Sys2Proof.Machine.execDeviceInfo dest origin p s
  | .paramEntry dest origin p => Sys2Proof.Machine.execParamEntry dest origin p s
  | .paramRead dest origin p => Sys2Proof.Machine.execParamRead dest origin p s
  | .paramWrite dest origin p => Sys2Proof.Machine.execParamWrite dest origin p s
  | .uint8 parent hidden body => Sys2Proof.Machine.execUint8 parent hidden body s
  | .int8 parent hidden body => Sys2Proof.Machine.execInt8 parent hidden body s
  | .uint16 parent hidden body => Sys2Proof.Machine.execUint16 parent hidden body s
  | .int16 parent hidden body => Sys2Proof.Machine.execInt16 parent hidden body s
  | .uint32 parent hidden body => Sys2Proof.Machine.execUint32 parent hidden body s
  | .int32 parent hidden body => Sys2Proof.Machine.execInt32 parent hidden body s
  | .float parent hidden body => Sys2Proof.Machine.execFloat parent hidden body s
  | .textSelection parent hidden body => Sys2Proof.Machine.execTextSelection parent hidden body s
  | .string parent hidden body => Sys2Proof.Machine.execString parent hidden body s
  | .folder parent hidden body => Sys2Proof.Machine.execFolder parent hidden body s
  | .info parent hidden body => Sys2Proof.Machine.execInfo parent hidden body s
  | .command parent hidden body => Sys2Proof.Machine.execCommand parent hidden body s

end Sys2Proof.Machine
end

