-- ==== Sys2Proof/Machine/Fetch.lean ====
section
/-! DEFINITION. Taking the host's next input (R54, R230), and placing an instruction so that the next step runs it (log 14). The
block has no program counter and fetches nothing (R32): the host supplies each command. -/

namespace Sys2Proof.Machine

/-- A command presented with its time (R230): the instruction to run, or none where it was Malformed and has been answered. -/
def present (cmd : Bytes) (t : Time) (s : State) : State × Option Instr :=
  let s := { s with now := t }
  match decodeCommand cmd with
  | .ok i => (s, some i)
  | .error r => (s.malformed (cmd.headD 0x00) r, none)

/-- The next input taken from the queue (R230): nothing where there is none (R345), ResetAll where its reset bit is set (R340),
else its command. -/
def fetch (s : State) : State × Option Instr :=
  match s.inputs with
  | [] => (s, none)
  | inp :: rest =>
    let s := { s with inputs := rest }
    if inp.reset then (s.resetAll, none) else present inp.cmd inp.now s

/-- A command placed at the head of the queue, at the current time. -/
def placeCommand (c : Bytes) (s : State) : State := { s with inputs := ⟨c, s.now, false⟩ :: s.inputs }

/-- A frame placed so that the next step's RX_BYTE completes it: all but its last byte are in the codec. -/
def placeFrame (f : Bytes) (s : State) : State :=
  placeCommand [0x01, f.getLastD 0]
    { s with rx := { state := .accum, buf := Memory.writeRange [] 0 f.dropLast, count := f.dropLast.length } }

/-- A record placed as the one chunk of the one parameter of a load from the current target, its PARAM_ENTRY placed as a frame. -/
def placeRecord (d : Bytes) (s : State) : State :=
  placeFrame (frameBytes typeParamEntry addrSelf s.eng.target ([1, 0] ++ d))
    { s with eng := { s.eng with req := .reading, count := 1, curParam := 1, curChunk := 0 } }.clearReasm

/-- The bytes a table word stands for, placed in the encoding space they are read in. -/
def placeForm (f : TableForm) (s : State) : State :=
  match f with
  | .command c => placeCommand c s
  | .frame f => placeFrame f s
  | .record d => placeRecord d s

end Sys2Proof.Machine
end

