-- ==== Sys2Proof/Machine/Step.lean ====
section
/-! DEFINITION. One step (R230). -/

namespace Sys2Proof.Machine

/-- Step (R230): the next input is taken, and the instruction it holds, if any, is run. -/
def step (s : State) : Host.Outcome State Fault Refusal :=
  match fetch s with
  | (s', some i) => exec i s'
  | (s', none) => .next s'

/-- `s` with a table word's instruction placed so that the next step runs it (log 14). -/
def State.withFetchWord (s : State) (nbits w : Nat) : State := placeForm (tableForm nbits w) s

end Sys2Proof.Machine
end

