-- ==== Sys2Proof/Machine/Assembler.lean ====
section
/-! DEFINITION. The assembler syntax (R123) and the pseudo-instructions (R124): from a line of characters to the inputs the host
presents. What the two rules leave open of the lexical form is in log 25. -/

namespace Sys2Proof.Machine

/-- A line's operation: the ten commands of R123 and the three pseudo-instructions of R124. -/
inductive AsmOp where
  | rx (b : Byte)
  | tick
  | scan
  | cscan
  | load (dev cnt : Byte)
  | cload
  | write (dev param : Byte) (v : Bytes)
  | pt (b : Byte)
  | ptc
  | txf (type dest origin : Byte) (p : Bytes)
  | rxs (bs : Bytes)
  | rxf (type dest origin : Byte) (p : Bytes)
  | pts (bs : Bytes)
deriving DecidableEq, Repr

/-- The commands an operation stands for, in order (R123, R124). An RXF whose frame Encode refuses stands for none (R7, log 27). -/
def AsmOp.expand : AsmOp → List Instr
  | .rx b => [.rxByte b]
  | .tick => [.tick]
  | .scan => [.startScan]
  | .cscan => [.cancelScan]
  | .load dev cnt => [.loadParams dev cnt]
  | .cload => [.cancelLoad]
  | .write dev param v => [.writeParam dev param v]
  | .pt b => [.ptByte b]
  | .ptc => [.ptConsume]
  | .txf t d o p => [.txFrame t d o p]
  | .rxs bs => bs.map .rxByte
  | .rxf t d o p => ((encodeFrame t d o p).getD []).map .rxByte
  | .pts bs => bs.map .ptByte

/-! ### Lexing -/

/-- A token of a line. -/
inductive Token where
  | word (cs : List Char)
  | at
  | comma
  | opening
  | closing
deriving DecidableEq, Repr

/-- The tokens of a line and the word being read, both newest first. -/
structure Lexer where
  tokens : List Token
  word   : List Char
deriving DecidableEq, Repr

/-- The word being read, closed. -/
def Lexer.flush (l : Lexer) : Lexer :=
  match l.word with
  | [] => l
  | w => { tokens := .word w.reverse :: l.tokens, word := [] }

/-- One character. -/
def Lexer.feed (l : Lexer) (c : Char) : Lexer :=
  if c = ' ' ∨ c = '\t' then l.flush
  else if c = '@' then { l.flush with tokens := .at :: l.flush.tokens }
  else if c = ',' then { l.flush with tokens := .comma :: l.flush.tokens }
  else if c = '[' then { l.flush with tokens := .opening :: l.flush.tokens }
  else if c = ']' then { l.flush with tokens := .closing :: l.flush.tokens }
  else { l with word := c :: l.word }

/-- The tokens of a line; `;` starts a comment (R123). -/
def tokens (line : List Char) : List Token :=
  ((line.takeWhile (fun c => c != ';')).foldl Lexer.feed { tokens := [], word := [] }).flush.tokens.reverse

/-- The value of a digit in a base. -/
def digitValue (base : Nat) (c : Char) : Option Nat :=
  let n := c.toNat
  let v :=
    if 48 ≤ n ∧ n ≤ 57 then n - 48
    else if 65 ≤ n ∧ n ≤ 70 then n - 55
    else if 97 ≤ n ∧ n ≤ 102 then n - 87
    else base
  if v < base then some v else none

/-- The value of a sequence of digits, most significant first. -/
def digitsValue (base : Nat) (acc : Nat) : List Char → Option Nat
  | [] => some acc
  | c :: cs => (digitValue base c).bind fun v => digitsValue base (acc * base + v) cs

/-- A decimal number, or a hexadecimal one after `0x` (R123). -/
def numberValue : List Char → Option Nat
  | [] => none
  | '0' :: 'x' :: c :: cs => digitsValue 16 0 (c :: cs)
  | c :: cs => digitsValue 10 0 (c :: cs)

/-- A number that is a byte. -/
def byteValue (w : List Char) : Option Byte :=
  (numberValue w).bind fun n => if n < 256 then some (BitVec.ofNat 8 n) else none

/-! ### Parsing -/

/-- The rest of a bracketed list, which ends the line. A comma may follow its last element (DESIGN CHOICE, log 25). -/
def parseList : List Token → Option Bytes
  | [.closing] => some []
  | [.word w, .closing] => (byteValue w).map ([·])
  | .word w :: .comma :: ts => (byteValue w).bind fun b => (parseList ts).map (b :: ·)
  | _ => none

/-- A line's operands: numbers, and a list at the end where there is one. A comma may follow the last operand (DESIGN CHOICE, log 25). -/
def parseOperands : List Token → Option (Bytes × Option Bytes)
  | [] => some ([], none)
  | .opening :: ts => (parseList ts).map fun l => ([], some l)
  | [.word w] => (byteValue w).map fun b => ([b], none)
  | .word w :: .comma :: ts => (byteValue w).bind fun b => (parseOperands ts).map fun (bs, l) => (b :: bs, l)
  | _ => none

/-- The operation of a mnemonic and its operands (R123, R124); none for an RXF whose frame Encode refuses (R7, log 27). -/
def asmOp (name : List Char) (args : Bytes) (l : Option Bytes) : Option AsmOp :=
  match name, args, l with
  | ['R', 'X'], [b], none => some (.rx b)
  | ['T', 'I', 'C', 'K'], [], none => some .tick
  | ['S', 'C', 'A', 'N'], [], none => some .scan
  | ['C', 'S', 'C', 'A', 'N'], [], none => some .cscan
  | ['L', 'O', 'A', 'D'], [dev, cnt], none => some (.load dev cnt)
  | ['C', 'L', 'O', 'A', 'D'], [], none => some .cload
  | ['W', 'R', 'I', 'T', 'E'], [dev, param], some v => some (.write dev param v)
  | ['P', 'T'], [b], none => some (.pt b)
  | ['P', 'T', 'C'], [], none => some .ptc
  | ['T', 'X', 'F'], [t, d, o], some p => some (.txf t d o p)
  | ['R', 'X', 'S'], [], some bs => some (.rxs bs)
  | ['R', 'X', 'F'], [t, d, o], some p => if (encodeFrame t d o p).isSome then some (.rxf t d o p) else none
  | ['P', 'T', 'S'], [], some bs => some (.pts bs)
  | _, _, _ => none

/-- A line's operation, none for an empty line, after its time has been taken off. -/
def parseOp : List Token → Option (Option AsmOp)
  | [] => some none
  | .word name :: ts => (parseOperands ts).bind fun (args, l) => (asmOp name args l).map some
  | _ => none

/-- A line: the time from it on, and its operation (R123). A time of 2^32 or more does not parse (DESIGN CHOICE, log 25). -/
def parseLine (now : Time) (line : List Char) : Option (Time × Option AsmOp) :=
  match tokens line with
  | .at :: .word t :: ts =>
    (digitsValue 10 0 t).bind fun n =>
      if n < 2 ^ 32 then (parseOp ts).map fun op => (BitVec.ofNat 32 n, op) else none
  | ts => (parseOp ts).map fun op => (now, op)

/-- The inputs an operation stands for, all at one time (R124). The n byte of a WRITE or TXF line that lists 256 bytes or more is the
count modulo 256 (DESIGN CHOICE, log 28). -/
def opInputs (now : Time) (op : AsmOp) : List HostInput := op.expand.map fun i => ⟨encode i, now, false⟩

/-- The inputs of a listing, from a time that holds until its first `@`; none where a line does not parse. -/
def assemble : Time → List (List Char) → Option (List HostInput)
  | _, [] => some []
  | now, line :: lines =>
    (parseLine now line).bind fun (t, op) =>
      (assemble t lines).map fun later =>
        match op with
        | some op => opInputs t op ++ later
        | none => later

end Sys2Proof.Machine
end

