-- ==== Sys2Proof/Machine/Errors.lean ====
section
/-! DEFINITION. The error classes (R20, R300) and which one a command, a frame or a record raises, the first that applies (R309). A
class records nothing by itself (R301, R302), so the class a step raises is a function of the state and no part of it (log 21). -/

namespace Sys2Proof.Machine

/-- The seven classes (R300). -/
inductive ErrorClass where
  | noise
  | mismatch
  | overflow
  | timeout
  | busy
  | supersede
  | malformed
deriving DecidableEq, Repr

/-- A rejected decode is a Mismatch (R302). -/
def recordClass (r : Option ParameterRecord) : Option ErrorClass := if r.isSome then none else some .mismatch

/-- DEVICE_INFO: the state, then the decode (R302, R309). -/
def deviceInfoClass (c : Config) (origin : Byte) (p : Bytes) (s : State) : Option ErrorClass :=
  if s.eng.req = .scanning ∧ (decodeDeviceInfo c origin p).isSome then none else some .mismatch

/-- An accepted chunk: Overflow, and at the last chunk the decode (R309). -/
def chunkClass (c : Config) (remaining : Byte) (data : Bytes) (s : State) : Option ErrorClass :=
  let s := startChunk s
  if wouldOverflow s.reasm data.length then some .overflow
  else if remaining = 0 then
    match (s.appendReasm data).reasm.bytes with
    | some d => recordClass (decodeParameter c s.eng.curParam d)
    | none => none
  else none

/-- PARAM_ENTRY: state, header, origin, number, then the chunk (R309). -/
def paramEntryClass (c : Config) (origin : Byte) (p : Bytes) (s : State) : Option ErrorClass :=
  match p with
  | pnum :: remaining :: data =>
    if s.eng.req = .reading ∧ origin = s.eng.target ∧ pnum = s.eng.curParam then chunkClass c remaining data s
    else some .mismatch
  | _ => some .mismatch

/-- A completed frame, in Route's order (R302, R309). -/
def frameClass (c : Config) (f : Bytes) (s : State) : Option ErrorClass :=
  match parseFrame f with
  | .error _ => some .mismatch
  | .ok fr =>
    if fr.type = typeDeviceInfo then deviceInfoClass c fr.origin fr.payload s
    else if fr.type = typeParamEntry then paramEntryClass c fr.origin fr.payload s
    else some .mismatch

/-- RX_BYTE: Noise from the codec, else the completed frame's class (R309). -/
def rxByteClass (c : Config) (b : Byte) (s : State) : Option ErrorClass :=
  match feed .rxbuf rxLenMin s.rx b with
  | .error _ => none
  | .ok r =>
    if r.noise then some .noise
    else if r.done then
      match heldFrame .rxbuf r.unit with
      | .ok f => frameClass c f { s with rx := r.unit }
      | .error _ => none
    else none

/-- PT_BYTE: Noise only (R301). -/
def ptByteClass (b : Byte) (s : State) : Option ErrorClass :=
  match feed .ptbuf ptLenMin s.pt b with
  | .error _ => none
  | .ok r => if r.noise then some .noise else none

/-- TICK: a read or write window that has expired (R304); the end of a scan window is no error. -/
def tickClass (c : Config) (s : State) : Option ErrorClass :=
  if (s.eng.req = .reading ∨ s.eng.req = .writing) ∧ expired s.now s.eng.lastActivity c.paramTimeout then some .timeout
  else none

/-- A new scan or write while not IDLE (R305). -/
def busyClass (s : State) : Option ErrorClass := if s.eng.req ≠ .idle then some .busy else none

/-- The class an instruction raises in a state (R300, R309). -/
def raised (c : Config) (i : Instr) (s : State) : Option ErrorClass :=
  match i with
  | .rxByte b => rxByteClass c b s
  | .tick => tickClass c s
  | .startScan => busyClass s
  | .cancelScan => none
  | .loadParams _ _ => if s.eng.req = .reading ∨ s.eng.req = .scanning then some .supersede else none
  | .cancelLoad => none
  | .writeParam _ _ v => if writeOperandsOk v then busyClass s else some .malformed
  | .ptByte b => ptByteClass b s
  | .ptConsume => none
  | .txFrame type _ _ p => if txOperandsOk type p then none else some .malformed
  | .devicePing _ _ _ => some .mismatch
  | .deviceInfo _ o p => deviceInfoClass c o p s
  | .paramEntry _ o p => paramEntryClass c o p s
  | .paramRead _ _ _ => some .mismatch
  | .paramWrite _ _ _ => some .mismatch
  | .uint8 parent hidden body => recordClass (readUint8 c s.eng.curParam parent hidden body)
  | .int8 parent hidden body => recordClass (readInt8 c s.eng.curParam parent hidden body)
  | .uint16 parent hidden body => recordClass (readUint16 c s.eng.curParam parent hidden body)
  | .int16 parent hidden body => recordClass (readInt16 c s.eng.curParam parent hidden body)
  | .uint32 parent hidden body => recordClass (readUint32 c s.eng.curParam parent hidden body)
  | .int32 parent hidden body => recordClass (readInt32 c s.eng.curParam parent hidden body)
  | .float parent hidden body => recordClass (readFloat c s.eng.curParam parent hidden body)
  | .textSelection parent hidden body => recordClass (readTextSelection c s.eng.curParam parent hidden body)
  | .string parent hidden body => recordClass (readString c s.eng.curParam parent hidden body)
  | .folder parent hidden body => recordClass (readFolder c s.eng.curParam parent hidden body)
  | .info parent hidden body => recordClass (readInfo c s.eng.curParam parent hidden body)
  | .command parent hidden body => recordClass (readCommand c s.eng.curParam parent hidden body)

end Sys2Proof.Machine
end

