-- ==== Sys2Proof/Machine/View.lean ====
section
/-! DEFINITION. The read-only status view (R51), the number of each state value (R33, R38, R48) and the codes of events and reasons
(R122, R130). Nothing here changes a state (R77). -/

namespace Sys2Proof.Machine

/-- What a status element shows: a register of some width, or a device record. -/
inductive StatusValue where
  | reg (width value : Nat)
  | device (info : DeviceInfo)
deriving DecidableEq, Repr

/-- The numbers of the receive states (R33). -/
def CodecState.number : CodecState → Nat
  | .awaitSync => 0
  | .awaitLen => 1
  | .accum => 2
  | .complete => 3

/-- The numbers of the request states (R38). -/
def Request.number : Request → Nat
  | .idle => 0
  | .scanning => 1
  | .reading => 2
  | .writing => 3

/-- The error codes (R48). -/
def ErrCode.number : ErrCode → Nat
  | .none => 0
  | .bufOverflow => 1
  | .readTimeout => 2
  | .writeTimeout => 3

/-- The Malformed reasons (R122). -/
def cmdReasonNumber : CmdReason → Nat
  | .unknownOpcode => 1
  | .badLength => 2
  | .badOperand => 3

/-- The event codes (R130). -/
def Event.code : Event → Nat
  | .deviceFound _ => 0x01
  | .scanDone _ _ => 0x02
  | .param _ => 0x03
  | .loadDone _ => 0x04
  | .writeDone _ _ => 0x05
  | .ptFrame _ _ => 0x06
  | .cmdError _ _ => 0x07

/-- A register shown in `width` bits (log 18). -/
def shown (width value : Nat) : StatusValue := .reg width (value % 2 ^ width)

/-- S0 to S15, and S16+i for a listed device (R51); none for a number the view does not have. -/
def State.status (s : State) : Nat → Option StatusValue
  | 0 => some (shown 2 s.rx.state.number)
  | 1 => some (shown 7 s.rx.count)
  | 2 => some (shown 2 s.pt.state.number)
  | 3 => some (shown 7 s.pt.count)
  | 4 => some (shown 2 s.eng.req.number)
  | 5 => some (shown 8 s.eng.err.code.number)
  | 6 => some (shown 8 s.eng.err.param.toNat)
  | 7 => some (shown 8 s.dev.n)
  | 8 => some (shown 8 s.eng.curParam.toNat)
  | 9 => some (shown 8 s.eng.curChunk.toNat)
  | 10 => some (shown 8 s.eng.count.toNat)
  | 11 => some (shown 8 s.eng.target.toNat)
  | 12 => some (shown 9 s.reasm.len)
  | 13 => some (shown 32 s.eng.scanStart.toNat)
  | 14 => some (shown 32 s.eng.lastActivity.toNat)
  | 15 => some (shown 8 s.eng.wParam.toNat)
  | k + 16 => s.dev.list[k]?.map .device

end Sys2Proof.Machine
end

