-- ==== Sys2Proof/Safety.lean ====
section
/-! DEFINITION. The invariants of 10_state.md (R36, R37, R46, R47, R53), what a safe state is, and quiescence (R345). -/

namespace Sys2Proof.Machine

/-- The length byte a codec holds is admitted and stands in the given relation to the count (R36). -/
def Codec.lenHeld (lmin : Nat) (u : Codec) (rel : Nat → Bool) : Bool :=
  (Memory.read u.buf 1).any fun len => lenAdmitted lmin len && rel len.toNat

/-- The CRC check of the held frame (R36, R146). -/
def Codec.crcHeld (u : Codec) : Bool :=
  (Memory.read u.buf 1).any fun len =>
    match Memory.readRange u.buf 2 (len.toNat - 1), Memory.read u.buf (len.toNat + 1) with
    | some body, some c => crc8 body == c
    | _, _ => false

/-- The invariant of a receive state (R36, R37): the bytes below the count hold values and no others do, and each state's clause. -/
def Codec.inv (lmin : Nat) (u : Codec) : Bool :=
  Memory.addresses u.buf == List.range u.count &&
    match u.state with
    | .awaitSync => u.count == 0
    | .awaitLen => u.count == 1 && Memory.read u.buf 0 == some syncByte
    | .accum => 2 ≤ u.count && Memory.read u.buf 0 == some syncByte && u.lenHeld lmin fun len => u.count < len + 2
    | .complete => Memory.read u.buf 0 == some syncByte && (u.lenHeld lmin fun len => u.count == len + 2) && u.crcHeld

/-- The invariant between two host commands (R36, R37, R46, R47, R53). -/
structure State.Inv (s : State) : Prop where
  /-- The Frame Codec's invariant (R36). -/
  rx : s.rx.inv rxLenMin = true
  /-- "Between two host commands, rx.state ≠ COMPLETE" (R36). -/
  rxOpen : s.rx.state ≠ .complete
  /-- The detector's invariant (R37). -/
  pt : s.pt.inv ptLenMin = true
  /-- `eng.req` is IDLE, SCANNING or READING (R53). -/
  request : s.eng.req ≠ .writing
  /-- READING: 1 ≤ count and 1 ≤ cur_param ≤ count (R53). -/
  reading : s.eng.req = .reading → 1 ≤ s.eng.count ∧ 1 ≤ s.eng.curParam ∧ s.eng.curParam ≤ s.eng.count
  /-- The bytes of the reassembly buffer below its length hold values and no others do (R46, R58). -/
  reasm : Memory.addresses s.reasm.buf = List.range s.reasm.len
  /-- `reasm.len` ≤ 256 (R53). -/
  reasmLen : s.reasm.len ≤ reasmCap
  /-- `dev.n` ≤ MAX_DEVICES (R53). -/
  devices : s.dev.n ≤ given.maxDevices.size

/-- Every byte memory is in its canonical form. -/
def State.memoriesWf (s : State) : Bool := Memory.wf s.rx.buf && Memory.wf s.pt.buf && Memory.wf s.reasm.buf

/-- A safe state: the step goes on. -/
def State.Safe (s : State) : Prop := ∃ t, step s = .next t

/-- Quiescent (R345): no request in progress and no partial frame held. -/
def State.quiescent (s : State) : Bool :=
  s.eng.req == .idle && s.rx.state == .awaitSync && (s.pt.state == .awaitSync || s.pt.state == .complete)

/-! ### Words the statements use -/

/-- A byte sequence fed to a codec one byte at a time (R142), with the `done` of each byte. -/
def feedAll (m : MemName) (lmin : Nat) : Codec → Bytes → Except Fault (Codec × List Bool)
  | u, [] => .ok (u, [])
  | u, b :: bs =>
    match feed m lmin u b with
    | .error f => .error f
    | .ok r =>
      match feedAll m lmin r.unit bs with
      | .error f => .error f
      | .ok (u', dones) => .ok (u', r.done :: dones)

/-- The two bytes of a 16-bit value on the wire, most significant first (R73). -/
def be2 (x : BitVec 16) : Bytes := [x.extractLsb' 8 8, x.extractLsb' 0 8]

/-- The four bytes of a 32-bit value on the wire, most significant first (R73). -/
def be4 (x : Word32) : Bytes := [x.extractLsb' 24 8, x.extractLsb' 16 8, x.extractLsb' 8 8, x.extractLsb' 0 8]

/-- `s` with event records after those it holds (R133). -/
def State.plusEvents (s : State) (es : List Event) : State := { s with out := { s.out with ev := s.out.ev ++ es } }

/-- `s` with bytes after those it has sent (R55). -/
def State.plusTx (s : State) (bs : Bytes) : State := { s with out := { s.out with tx := s.out.tx ++ bs } }

/-- `s` after a record whose tail ended too early: nothing delivered, or the record with what was read, as TRUNC_POLICY says (R193). -/
def State.deliverTruncated (s : State) (r : ParameterRecord) : State :=
  if Config.openTruncPolicy = .reject then s else s.plusEvents [.param r]

end Sys2Proof.Machine
end

