-- ==== Sys2Proof/Certificates/Slice0/Obligations.lean ====
section
/-! DEFINITION. The statements about CRSF-PE, each from a rule of spec/. `given` is the machine's configuration: every OPEN parameter
is a constant with no body, so a statement holds for every value of it. -/

open Sys2Proof Sys2Proof.Machine

/-! ### Encodings -/

/-- Words written out from R91, R92, R106, R107 and R120 decode to what they stand for; bit 6 of a type byte is ignored.
The three encoding spaces are the model's reading (log 13), the kind codes the spec's general knowledge (log 7). -/
def Obligations.WrittenWordsDecode : Prop :=
  Sys2Proof.decode .hostCmd [0x01, 0xC8] = .ok (.rxByte 0xC8) ∧
  Sys2Proof.decode .hostCmd [0x12, 0xEE, 0x02] = .ok (.loadParams 0xEE 0x02) ∧
  Sys2Proof.decode .hostCmd [0x14, 0xEE, 0x03, 0x01, 0x05] = .ok (.writeParam 0xEE 0x03 [0x05]) ∧
  Sys2Proof.decode .frameType [0xC8, 0x04, 0x28, 0x00, 0xEA, 0x54] = .ok (.devicePing 0x00 0xEA []) ∧
  Sys2Proof.decode .frameType [0xC8, 0x06, 0x2C, 0xEE, 0xEA, 0x01, 0x00, 0x86] = .ok (.paramRead 0xEE 0xEA [0x01, 0x00]) ∧
  Sys2Proof.decode .paramKind [0x00, 0x8B, 0x43, 0x66, 0x67, 0x00] = .ok (.folder 0x00 true [0x43, 0x66, 0x67, 0x00]) ∧
  Sys2Proof.decode .paramKind [0x00, 0x40, 0x52, 0x00, 0x05] = .ok (.uint8 0x00 false [0x52, 0x00, 0x05])

/-- Decoding what the encoder gives for a well-formed instruction gives it back, in each of the three encoding spaces (logs 7, 13,
22). -/
def Obligations.DecodeEncodeRoundTrip : Prop :=
  ∀ i : Instr, i.wf = true → Sys2Proof.decode i.format (Sys2Proof.encode i) = .ok i

/-- The other direction: a command or a frame that decodes is what the encoder gives for its instruction; a record is, where the
ignored bit 6 of its type byte is zero (R107; log 19). -/
def Obligations.EncodeDecodeRoundTrip : Prop :=
  (∀ c i, Sys2Proof.decode .hostCmd c = .ok i → Sys2Proof.encode i = c) ∧
  (∀ f i, Sys2Proof.decode .frameType f = .ok i → Sys2Proof.encode i = f) ∧
  (∀ parent tb body i, Sys2Proof.decode .paramKind (parent :: tb :: body) = .ok i → tb.getLsbD 6 = false →
    Sys2Proof.encode i = parent :: tb :: body)

/-- R122: which commands are well formed, and which of the three reasons a malformed one has. -/
def Obligations.MalformedReasons : Prop :=
  ∀ c : Bytes,
    (malformedReason c = none ↔
      (∃ b, c = [0x01, b]) ∨ c = [0x02] ∨ c = [0x10] ∨ c = [0x11] ∨ (∃ dev cnt, c = [0x12, dev, cnt]) ∨ c = [0x13] ∨
      (∃ dev param v, v.length ≤ 57 ∧ c = [0x14, dev, param, BitVec.ofNat 8 v.length] ++ v) ∨
      (∃ b, c = [0x20, b]) ∨ c = [0x21] ∨
      (∃ type dest origin p, 0x28 ≤ type ∧ p.length ≤ 58 ∧ c = [0x30, type, dest, origin, BitVec.ofNat 8 p.length] ++ p)) ∧
    (malformedReason c = some .unknownOpcode ↔
      ∀ op args, c = op :: args → op ∉ [0x01, 0x02, 0x10, 0x11, 0x12, 0x13, 0x14, 0x20, 0x21, 0x30]) ∧
    (malformedReason c = some .badOperand ↔
      (∃ dev param v, 57 < v.length ∧ v.length ≤ 255 ∧ c = [0x14, dev, param, BitVec.ofNat 8 v.length] ++ v) ∨
      (∃ type dest origin p, (58 < p.length ∨ type < 0x28) ∧ p.length ≤ 255 ∧
        c = [0x30, type, dest, origin, BitVec.ofNat 8 p.length] ++ p))

/-- R98: the DEVICE_PING the engine sends is always the same six bytes. -/
def Obligations.DevicePingFrame : Prop := Sys2Proof.encodeFrame 0x28 0x00 0xEA [] = some [0xC8, 0x04, 0x28, 0x00, 0xEA, 0x54]

/-- R73, R17, R111: a field's bytes, most significant first, assemble to its value, zero-extended or sign-extended. -/
def Obligations.FieldsAreBigEndian : Prop :=
  (∀ x : Byte, beU [x] = x.setWidth 32 ∧ beS [x] = x.signExtend 32) ∧
  (∀ x : BitVec 16, beU (be2 x) = x.setWidth 32 ∧ beS (be2 x) = x.signExtend 32) ∧
  (∀ x : Word32, beU (be4 x) = x ∧ beS (be4 x) = x)

/-! ### The step -/

/-- R230: a command that decodes is run, with the input taken from the queue and its time latched. The queue and the latch are the
model's own (logs 1, 2). -/
def Obligations.StepRunsDecodedCommand : Prop :=
  ∀ (s : State) (c : Bytes) (t : Time) (rest : List HostInput) (i : Instr),
    s.inputs = ⟨c, t, false⟩ :: rest → Sys2Proof.decode .hostCmd c = .ok i →
      step s = exec i { s with inputs := rest, now := t }

/-- R307, R230: a malformed command is not performed: the block's state is unchanged, nothing is sent, and one CMD_ERROR is emitted
with its opcode, 0x00 for an empty command, and its reason. The statement leaves open what becomes of the queue and the time latch,
the model's own (logs 1, 2). -/
def Obligations.MalformedCommandReported : Prop :=
  ∀ (s : State) (c : Bytes) (t : Time) (rest : List HostInput) (r : CmdReason),
    s.inputs = ⟨c, t, false⟩ :: rest → malformedReason c = some r →
      ∃ now inputs,
        step s = .next ({ s with now := now, inputs := inputs }.plusEvents [.cmdError (c.headD 0x00) r])

/-- R340, R341: a step with reset = 1 performs no command; every element of the block takes its reset value, with no event and no
frame. The statement leaves open what becomes of the queue and the time latch, the model's own (logs 1, 2, 20). -/
def Obligations.ResetStep : Prop :=
  ∀ (s : State) (c : Bytes) (t : Time) (rest : List HostInput), s.inputs = ⟨c, t, true⟩ :: rest →
    ∃ now inputs,
      step s = .next
        { rx := { state := .awaitSync, buf := [], count := 0 }
          pt := { state := .awaitSync, buf := [], count := 0 }
          eng := { req := .idle, scanStart := 0, lastActivity := 0, target := 0, count := 0, curParam := 0, curChunk := 0,
                   wParam := 0, err := { code := .none, param := 0 } }
          reasm := { buf := [], len := 0 }
          dev := { list := [] }
          out := { tx := [], ev := [] }
          now := now
          inputs := inputs }

/-- R345: with nothing presented the block does nothing. That an empty queue is such a moment is the model's choice (log 1). -/
def Obligations.NothingPresentedNothingDone : Prop := ∀ s : State, s.inputs = [] → step s = .next s

/-! ### RX_BYTE -/

/-- R143 to R145: the bytes before a frame's last one. -/
def Obligations.RxByteWithinFrame : Prop :=
  ∀ (s : State) (b : Byte), s.rx.inv 1 = true →
    (s.rx.state = .awaitSync →
      exec (.rxByte b) s =
        .next (if b = 0xC8 then { s with rx := { state := .awaitLen, buf := [(0, 0xC8)], count := 1 } } else s)) ∧
    (s.rx.state = .awaitLen →
      exec (.rxByte b) s =
        .next { s with
          rx := if 1 ≤ b.toNat ∧ b.toNat ≤ 62 then { state := .accum, buf := [(0, 0xC8), (1, b)], count := 2 }
                else { state := .awaitSync, buf := [], count := 0 } }) ∧
    (∀ len, s.rx.state = .accum → Memory.read s.rx.buf 1 = some len → s.rx.count + 1 ≠ len.toNat + 2 →
      ∃ buf, exec (.rxByte b) s = .next { s with rx := { state := .accum, buf := buf, count := s.rx.count + 1 } } ∧
        ∀ a, Memory.read buf a = if a = s.rx.count then some b else Memory.read s.rx.buf a)

/-- R146: a frame whose CRC does not match is discarded; nothing else changes and nothing is emitted. -/
def Obligations.RxByteBadCrcDiscards : Prop :=
  ∀ (s : State) (b : Byte) (f : Bytes), s.rx.inv 1 = true → s.rx.state = .accum →
    Memory.readRange s.rx.buf 0 s.rx.count = some f → Sys2Proof.decode .frameType (f ++ [b]) = .error .frameCrc →
      exec (.rxByte b) s = .next { s with rx := { state := .awaitSync, buf := [], count := 0 } }

/-- R231, R260: the byte that completes a frame runs the frame's instruction and then resets the codec, in one step. -/
def Obligations.RxByteRunsFrameInstruction : Prop :=
  ∀ (s t : State) (b : Byte) (f : Bytes) (i : Instr), s.rx.inv 1 = true → s.rx.state = .accum →
    Memory.readRange s.rx.buf 0 s.rx.count = some f → Sys2Proof.decode .frameType (f ++ [b]) = .ok i → exec i s = .next t →
      exec (.rxByte b) s = .next { t with rx := { state := .awaitSync, buf := [], count := 0 } }

/-- R261, R262: a valid frame with no TYPE, a standard TYPE, no room for its addresses or a TYPE R97 does not list is ignored. -/
def Obligations.RxByteIgnoresOtherFrames : Prop :=
  ∀ (s : State) (b : Byte) (f : Bytes) (e : Reject), s.rx.inv 1 = true → s.rx.state = .accum →
    Memory.readRange s.rx.buf 0 s.rx.count = some f → Sys2Proof.decode .frameType (f ++ [b]) = .error e →
    e ∈ [.noType, .standardFrame, .noAddresses, .unknownType] →
      exec (.rxByte b) s = .next { s with rx := { state := .awaitSync, buf := [], count := 0 } }

/-- What RX_BYTE leaves unchanged (R231, R263 to R267): the detector's state, every byte of PTBUF, the registers no handler writes,
and what has already been sent, emitted and listed. -/
def Obligations.RxByteFrame : Prop :=
  ∀ (s t : State) (b : Byte), exec (.rxByte b) s = .next t →
    t.pt = s.pt ∧ (∀ a, Memory.read t.pt.buf a = Memory.read s.pt.buf a) ∧ t.now = s.now ∧ t.inputs = s.inputs ∧
    t.eng.scanStart = s.eng.scanStart ∧ t.eng.target = s.eng.target ∧ t.eng.count = s.eng.count ∧
    t.eng.wParam = s.eng.wParam ∧ s.out.tx <+: t.out.tx ∧ s.out.ev <+: t.out.ev ∧ s.dev.list <+: t.dev.list ∧
    (s.eng.req ≠ .reading → t.reasm = s.reasm ∧ t.eng = s.eng ∧ t.out.tx = s.out.tx) ∧
    (s.eng.req ≠ .scanning → t.dev = s.dev)

/-- R312: the events an RX_BYTE can emit, in order. -/
def Obligations.RxByteEvents : Prop :=
  ∀ (s t : State) (b : Byte), exec (.rxByte b) s = .next t →
    ∃ es, t.out.ev = s.out.ev ++ es ∧
      (es = [] ∨ (s.eng.req = .scanning ∧ ∃ d, es = [.deviceFound d]) ∨
        (s.eng.req = .reading ∧
          (es = [.loadDone false] ∨ es = [.loadDone true] ∨ (∃ r, es = [.param r]) ∨ ∃ r, es = [.param r, .loadDone true])))

/-! ### The passthrough detector -/

/-- R143 to R145, R147, R160, R165: the detector's bytes before a frame's last one, with its own lower length bound 3, and the
bytes it drops in COMPLETE. -/
def Obligations.PtByteWithinFrame : Prop :=
  ∀ (s : State) (b : Byte), s.pt.inv 3 = true →
    (s.pt.state = .awaitSync →
      exec (.ptByte b) s =
        .next (if b = 0xC8 then { s with pt := { state := .awaitLen, buf := [(0, 0xC8)], count := 1 } } else s)) ∧
    (s.pt.state = .awaitLen →
      exec (.ptByte b) s =
        .next { s with
          pt := if 3 ≤ b.toNat ∧ b.toNat ≤ 62 then { state := .accum, buf := [(0, 0xC8), (1, b)], count := 2 }
                else { state := .awaitSync, buf := [], count := 0 } }) ∧
    (∀ len, s.pt.state = .accum → Memory.read s.pt.buf 1 = some len → s.pt.count + 1 ≠ len.toNat + 2 →
      ∃ buf, exec (.ptByte b) s = .next { s with pt := { state := .accum, buf := buf, count := s.pt.count + 1 } } ∧
        ∀ a, Memory.read buf a = if a = s.pt.count then some b else Memory.read s.pt.buf a) ∧
    (s.pt.state = .complete → exec (.ptByte b) s = .next s)

/-- R146, R161, R165, R132: the last byte of a passthrough frame of any TYPE. A matching CRC emits PT_FRAME with the whole frame and
holds it; another is discarded. -/
def Obligations.PtByteEndsFrame : Prop :=
  ∀ (s : State) (b len : Byte) (f : Bytes), s.pt.inv 3 = true → s.pt.state = .accum →
    Memory.readRange s.pt.buf 0 s.pt.count = some f → Memory.read s.pt.buf 1 = some len → s.pt.count + 1 = len.toNat + 2 →
    (crc8 (f.drop 2) = b →
      ∃ buf,
        exec (.ptByte b) s =
          .next ({ s with pt := { state := .complete, buf := buf, count := s.pt.count + 1 } }.plusEvents
            [.ptFrame (f ++ [b]) (decide (0x28 ≤ f.getD 2 0))]) ∧
        ∀ a, Memory.read buf a = if a = s.pt.count then some b else Memory.read s.pt.buf a) ∧
    (crc8 (f.drop 2) ≠ b →
      exec (.ptByte b) s = .next { s with pt := { state := .awaitSync, buf := [], count := 0 } })

/-- R166: PT_CONSUME frees a held frame and does nothing in any other state. -/
def Obligations.PtConsumeResult : Prop :=
  ∀ s : State,
    (s.pt.state = .complete →
      exec .ptConsume s = .next { s with pt := { state := .awaitSync, buf := [], count := 0 } }) ∧
    (s.pt.state ≠ .complete → exec .ptConsume s = .next s)

/-- R37, R161: the two receivers share no state. RX_BYTE does the same whatever the detector holds, and PT_BYTE does the same
whatever the engine side holds. -/
def Obligations.ReceiversDoNotInterfere : Prop :=
  (∀ (s t : State) (b : Byte) (u : Codec), exec (.rxByte b) s = .next t →
    exec (.rxByte b) { s with pt := u } = .next { t with pt := u }) ∧
  (∀ (s t : State) (b : Byte) (u : Codec) (e : Engine) (r : Reasm) (d : DevList), exec (.ptByte b) s = .next t →
    exec (.ptByte b) { s with rx := u, eng := e, reasm := r, dev := d } = .next { t with rx := u, eng := e, reasm := r, dev := d })

/-! ### The requests -/

/-- R232, R271: TICK tests the one window of the request in progress, unsigned and modulo 2^32, and does nothing else. -/
def Obligations.TickResult : Prop :=
  ∀ s : State,
    (s.eng.req = .scanning →
      exec .tick s =
        .next (if Config.openScanTimeout ≤ s.now - s.eng.scanStart then
          { s with eng := { s.eng with req := .idle } }.plusEvents [.scanDone true false] else s)) ∧
    (s.eng.req = .reading →
      exec .tick s =
        .next (if Config.openParamTimeout ≤ s.now - s.eng.lastActivity then
          { s with eng := { s.eng with req := .idle, err := ⟨.readTimeout, s.eng.curParam⟩ } }.plusEvents [.loadDone false]
          else s)) ∧
    (s.eng.req = .writing →
      exec .tick s =
        .next (if Config.openParamTimeout ≤ s.now - s.eng.lastActivity then
          { s with eng := { s.eng with req := .idle, err := ⟨.writeTimeout, s.eng.wParam⟩ } }.plusEvents
            [.writeDone false false]
          else s)) ∧
    (s.eng.req = .idle → exec .tick s = .next s)

/-- R233, R305: START_SCAN from IDLE clears the device list, stamps the scan and sends the PING; busy, it only reports. -/
def Obligations.StartScanResult : Prop :=
  ∀ s : State,
    (s.eng.req = .idle →
      exec .startScan s =
        .next ({ s with
            dev := { list := [] }
            eng := { s.eng with req := .scanning, scanStart := s.now, lastActivity := s.now } }.plusTx
          [0xC8, 0x04, 0x28, 0x00, 0xEA, 0x54])) ∧
    (s.eng.req ≠ .idle → exec .startScan s = .next (s.plusEvents [.scanDone false true]))

/-- R234, R236: a cancel ends its own request with no event and does nothing in any other state. -/
def Obligations.CancelResults : Prop :=
  ∀ s : State,
    exec .cancelScan s = .next (if s.eng.req = .scanning then { s with eng := { s.eng with req := .idle } } else s) ∧
    exec .cancelLoad s = .next (if s.eng.req = .reading then { s with eng := { s.eng with req := .idle } } else s)

/-- R235, R306: LOAD_PARAMS starts a load from every state, superseding with no event; a count of 0 completes at once. -/
def Obligations.LoadParamsResult : Prop :=
  ∀ (s : State) (dev cnt : Byte),
    (cnt ≠ 0 →
      exec (.loadParams dev cnt) s =
        .next ({ s with
            eng := { s.eng with req := .reading, target := dev, count := cnt, curParam := 1, curChunk := 0,
                                lastActivity := s.now }
            reasm := { buf := [], len := 0 } }.plusTx
          [0xC8, 0x06, 0x2C, dev, 0xEA, 0x01, 0x00, crc8 [0x2C, dev, 0xEA, 0x01, 0x00]])) ∧
    (cnt = 0 →
      exec (.loadParams dev cnt) s =
        .next ({ s with
            eng := { s.eng with req := .idle, target := dev, count := 0, curParam := 1, curChunk := 0 }
            reasm := { buf := [], len := 0 } }.plusEvents [.loadDone true]))

/-- R237, R122, R305: WRITE_PARAM. A value of more than 57 bytes is Malformed before the busy test; busy only reports; else one
frame is sent and the write completes in the same step. -/
def Obligations.WriteParamResult : Prop :=
  ∀ (s : State) (dev param : Byte) (v : Bytes),
    (57 < v.length → exec (.writeParam dev param v) s = .next (s.plusEvents [.cmdError 0x14 .badOperand])) ∧
    (v.length ≤ 57 → s.eng.req ≠ .idle →
      exec (.writeParam dev param v) s = .next (s.plusEvents [.writeDone false true])) ∧
    (v.length ≤ 57 → s.eng.req = .idle →
      exec (.writeParam dev param v) s =
        .next (({ s with eng := { s.eng with wParam := param, lastActivity := s.now } }.plusTx
          ([0xC8, BitVec.ofNat 8 (v.length + 5), 0x2D, dev, 0xEA, param] ++ v ++
            [crc8 ([0x2D, dev, 0xEA, param] ++ v)])).plusEvents [.writeDone true false]))

/-- R167, R155, R156, R122: TX_FRAME sends any extended frame in every request state and stamps the activity; an operand out of
range is Malformed. -/
def Obligations.TxFrameResult : Prop :=
  ∀ (s : State) (type dest origin : Byte) (p : Bytes),
    (0x28 ≤ type → p.length ≤ 58 →
      exec (.txFrame type dest origin p) s =
        .next ({ s with eng := { s.eng with lastActivity := s.now } }.plusTx
          ([0xC8, BitVec.ofNat 8 (p.length + 4), type, dest, origin] ++ p ++ [crc8 ([type, dest, origin] ++ p)]))) ∧
    (type < 0x28 ∨ 58 < p.length →
      exec (.txFrame type dest origin p) s = .next (s.plusEvents [.cmdError 0x30 .badOperand]))

/-! ### Received frames -/

/-- R263, R183 to R185: DEVICE_INFO. While scanning the payload decodes: the name is cut to the capacity, the fields after its
terminator are big-endian, bytes after them are ignored; the record is stored where there is room and always reported. Outside
SCANNING, with no terminator, or with fewer than 14 bytes after it, the frame is ignored. -/
def Obligations.DeviceInfoResult : Prop :=
  (∀ (s : State) (dest origin : Byte) (name extra : Bytes) (serial hwId fwId : Word32) (paramCount protoVer : Byte),
    s.eng.req = .scanning → 0 ∉ name →
    let r : DeviceInfo :=
      { address := origin, name := name.take (Config.openCapDevName.size - 1), serial := serial, hwId := hwId, fwId := fwId,
        paramCount := paramCount, protoVer := protoVer, online := true }
    exec (.deviceInfo dest origin
        (name ++ [0] ++ be4 serial ++ be4 hwId ++ be4 fwId ++ [paramCount, protoVer] ++ extra)) s =
      .next ({ s with
        dev := { list := if s.dev.list.length < Config.openMaxDevices.size then s.dev.list ++ [r] else s.dev.list } }.plusEvents
          [.deviceFound r])) ∧
  (∀ (s : State) (dest origin : Byte) (p : Bytes),
    (s.eng.req ≠ .scanning ∨ 0 ∉ p ∨ ∃ name rest, p = name ++ [0] ++ rest ∧ 0 ∉ name ∧ rest.length < 14) →
      exec (.deviceInfo dest origin p) s = .next s)

/-- R262: DEVICE_PING, PARAM_READ and PARAM_WRITE received from the wire are ignored in every state. That the sent types are
instructions as received frames is the model's reading (log 11). -/
def Obligations.SentTypesIgnored : Prop :=
  ∀ (s : State) (dest origin : Byte) (p : Bytes),
    exec (.devicePing dest origin p) s = .next s ∧ exec (.paramRead dest origin p) s = .next s ∧
      exec (.paramWrite dest origin p) s = .next s

/-- R264: a PARAM_ENTRY outside READING, with no header, from another origin or for another parameter changes nothing. The
offsets of the payload are the spec's general knowledge (G2; log 8), here and in the three statements that follow. -/
def Obligations.ParamEntryIgnored : Prop :=
  ∀ (s : State) (dest origin : Byte) (p : Bytes),
    (s.eng.req ≠ .reading ∨ p.length < 2 ∨ origin ≠ s.eng.target ∨ p.head? ≠ some s.eng.curParam) →
      exec (.paramEntry dest origin p) s = .next s

/-- R265, R303: a chunk that would overflow the buffer, emptied first where the chunk index is 0, is not stored; the load ends with
the error that names the parameter. -/
def Obligations.ParamEntryOverflow : Prop :=
  ∀ (s : State) (dest remaining : Byte) (data : Bytes),
    s.eng.req = .reading →
    let held : Reasm := if s.eng.curChunk = 0 then { buf := [], len := 0 } else s.reasm
    256 < held.len + data.length →
      exec (.paramEntry dest s.eng.target (s.eng.curParam :: remaining :: data)) s =
        .next ({ s with
          reasm := held
          eng := { s.eng with req := .idle, err := ⟨.bufOverflow, s.eng.curParam⟩ } }.plusEvents [.loadDone false])

/-- R265, R266: an accepted chunk with more to come is stored at `reasm.len`, from 0 where the chunk index is 0, and the next chunk
of the same parameter is requested. Every other byte of the buffer reads as before. -/
def Obligations.ParamEntryNextChunk : Prop :=
  ∀ (s : State) (dest remaining : Byte) (data : Bytes),
    s.eng.req = .reading → remaining ≠ 0 →
    let base := if s.eng.curChunk = 0 then 0 else s.reasm.len
    base + data.length ≤ 256 →
      ∃ buf,
        exec (.paramEntry dest s.eng.target (s.eng.curParam :: remaining :: data)) s =
          .next ({ s with
              reasm := { buf := buf, len := base + data.length }
              eng := { s.eng with curChunk := s.eng.curChunk + 1, lastActivity := s.now } }.plusTx
            [0xC8, 0x06, 0x2C, s.eng.target, 0xEA, s.eng.curParam, s.eng.curChunk + 1,
              crc8 [0x2C, s.eng.target, 0xEA, s.eng.curParam, s.eng.curChunk + 1]]) ∧
        ∀ a, Memory.read buf a =
          if base ≤ a ∧ a < base + data.length then data[a - base]?
          else if s.eng.curChunk = 0 then none else Memory.read s.reasm.buf a

/-- R265, R267, R268: the last chunk. The bytes held and the chunk's are decoded under the parameter's number and the record, where
there is one, is delivered; then the next parameter is requested, or the load completes. -/
def Obligations.ParamEntryLastChunk : Prop :=
  ∀ (s : State) (dest : Byte) (held data : Bytes),
    s.eng.req = .reading → (if s.eng.curChunk = 0 then held = [] else s.reasm.bytes = some held) →
    held.length + data.length ≤ 256 →
    let delivered : List Event := ((decodeParameter given s.eng.curParam (held ++ data)).map Event.param).toList
    exec (.paramEntry dest s.eng.target (s.eng.curParam :: 0 :: data)) s =
      .next
        (if s.eng.count ≤ s.eng.curParam then
          { s with
            reasm := { buf := [], len := 0 }
            eng := { s.eng with req := .idle, curParam := s.eng.curParam + 1, curChunk := 0, lastActivity := s.now } }.plusEvents
              (delivered ++ [Event.loadDone true])
        else
          ({ s with
            reasm := { buf := [], len := 0 }
            eng := { s.eng with curParam := s.eng.curParam + 1, curChunk := 0, lastActivity := s.now } }.plusEvents
              delivered).plusTx
            [0xC8, 0x06, 0x2C, s.eng.target, 0xEA, s.eng.curParam + 1, 0x00,
              crc8 [0x2C, s.eng.target, 0xEA, s.eng.curParam + 1, 0x00]])

/-! ### Parameter kinds -/

/-- R193, R267: each of the twelve parameter kinds runs as the decode of its record, delivered where it is not rejected, and
changes nothing but the event queue. That a kind is an instruction that delivers its record is the model's reading (log 12). -/
def Obligations.KindDeliversItsRecord : Prop :=
  ∀ (s : State) (i : Instr), i.format = .paramKind → i.wf = true →
    exec i s = .next (s.plusEvents ((decodeParameter given s.eng.curParam (Sys2Proof.encode i)).map Event.param).toList)

/-- R195, R196: UINT8 and INT8 records, zero- and sign-extended; the unit ends at a zero byte or at the record's end. In a record
that ends before all four fields every field not read is zero, or the record is rejected, as TRUNC_POLICY says (R193; log 9: the
statement holds for either). `head` is the name with its terminator, or without one where the record ends with it. That the kind, as an
instruction, delivers the record in a PARAM event under `eng.cur_param` in every state is the model's choice (log 12). -/
def Obligations.ByteKinds : Prop :=
  (∀ (s : State) (parent : Byte) (hidden : Bool) (name unit ending : Bytes) (cur min max dflt : Byte),
    0 ∉ name → 0 ∉ unit → (ending = [] ∨ ending.head? = some 0) →
    let body := name ++ [0] ++ [cur, min, max, dflt] ++ unit ++ ending
    let shortName := name.take (Config.openCapPName.size - 1)
    let shortUnit := unit.take (Config.openCapUnit.size - 1)
    exec (.uint8 parent hidden body) s =
      .next (s.plusEvents [.param
        { zeroRecord .uint8 s.eng.curParam parent hidden shortName with
          cur := cur.setWidth 32, min := min.setWidth 32, max := max.setWidth 32, dflt := dflt.setWidth 32,
          unit := shortUnit }]) ∧
    exec (.int8 parent hidden body) s =
      .next (s.plusEvents [.param
        { zeroRecord .int8 s.eng.curParam parent hidden shortName with
          cur := cur.signExtend 32, min := min.signExtend 32, max := max.signExtend 32, dflt := dflt.signExtend 32,
          unit := shortUnit }])) ∧
  (∀ (s : State) (parent : Byte) (hidden : Bool) (name head read : Bytes),
    0 ∉ name → read.length ≤ 3 → (head = name ++ [0] ∨ head = name ∧ read = []) →
    let shortName := name.take (Config.openCapPName.size - 1)
    exec (.uint8 parent hidden (head ++ read)) s =
      .next (s.deliverTruncated
        { zeroRecord .uint8 s.eng.curParam parent hidden shortName with
          cur := (read.getD 0 0).setWidth 32, min := (read.getD 1 0).setWidth 32, max := (read.getD 2 0).setWidth 32 }) ∧
    exec (.int8 parent hidden (head ++ read)) s =
      .next (s.deliverTruncated
        { zeroRecord .int8 s.eng.curParam parent hidden shortName with
          cur := (read.getD 0 0).signExtend 32, min := (read.getD 1 0).signExtend 32, max := (read.getD 2 0).signExtend 32 }))

/-- R197, R198: UINT16 and INT16 records, big-endian, zero- and sign-extended; and a record that ends before all four fields, as for
the byte kinds. That the kind, as an instruction, delivers the record is the model's choice (log 12). -/
def Obligations.HalfWordKinds : Prop :=
  (∀ (s : State) (parent : Byte) (hidden : Bool) (name unit ending : Bytes) (cur min max dflt : BitVec 16),
    0 ∉ name → 0 ∉ unit → (ending = [] ∨ ending.head? = some 0) →
    let body := name ++ [0] ++ be2 cur ++ be2 min ++ be2 max ++ be2 dflt ++ unit ++ ending
    let shortName := name.take (Config.openCapPName.size - 1)
    let shortUnit := unit.take (Config.openCapUnit.size - 1)
    exec (.uint16 parent hidden body) s =
      .next (s.plusEvents [.param
        { zeroRecord .uint16 s.eng.curParam parent hidden shortName with
          cur := cur.setWidth 32, min := min.setWidth 32, max := max.setWidth 32, dflt := dflt.setWidth 32,
          unit := shortUnit }]) ∧
    exec (.int16 parent hidden body) s =
      .next (s.plusEvents [.param
        { zeroRecord .int16 s.eng.curParam parent hidden shortName with
          cur := cur.signExtend 32, min := min.signExtend 32, max := max.signExtend 32, dflt := dflt.signExtend 32,
          unit := shortUnit }])) ∧
  (∀ (s : State) (parent : Byte) (hidden : Bool) (name head rest : Bytes) (read : List (BitVec 16)),
    0 ∉ name → read.length ≤ 3 → rest.length < 2 → (head = name ++ [0] ∨ head = name ∧ read = [] ∧ rest = []) →
    let body := head ++ read.flatMap be2 ++ rest
    let shortName := name.take (Config.openCapPName.size - 1)
    exec (.uint16 parent hidden body) s =
      .next (s.deliverTruncated
        { zeroRecord .uint16 s.eng.curParam parent hidden shortName with
          cur := (read.getD 0 0).setWidth 32, min := (read.getD 1 0).setWidth 32, max := (read.getD 2 0).setWidth 32 }) ∧
    exec (.int16 parent hidden body) s =
      .next (s.deliverTruncated
        { zeroRecord .int16 s.eng.curParam parent hidden shortName with
          cur := (read.getD 0 0).signExtend 32, min := (read.getD 1 0).signExtend 32, max := (read.getD 2 0).signExtend 32 }))

/-- R199, R200: UINT32 and INT32 records, big-endian, all 32 bits kept; and a record that ends before all four fields, as for the
byte kinds. That the kind, as an instruction, delivers the record is the model's choice (log 12). -/
def Obligations.WordKinds : Prop :=
  (∀ (s : State) (parent : Byte) (hidden : Bool) (name unit ending : Bytes) (cur min max dflt : Word32),
    0 ∉ name → 0 ∉ unit → (ending = [] ∨ ending.head? = some 0) →
    let body := name ++ [0] ++ be4 cur ++ be4 min ++ be4 max ++ be4 dflt ++ unit ++ ending
    let shortName := name.take (Config.openCapPName.size - 1)
    let shortUnit := unit.take (Config.openCapUnit.size - 1)
    exec (.uint32 parent hidden body) s =
      .next (s.plusEvents [.param
        { zeroRecord .uint32 s.eng.curParam parent hidden shortName with
          cur := cur, min := min, max := max, dflt := dflt, unit := shortUnit }]) ∧
    exec (.int32 parent hidden body) s =
      .next (s.plusEvents [.param
        { zeroRecord .int32 s.eng.curParam parent hidden shortName with
          cur := cur, min := min, max := max, dflt := dflt, unit := shortUnit }])) ∧
  (∀ (s : State) (parent : Byte) (hidden : Bool) (name head rest : Bytes) (read : List Word32),
    0 ∉ name → read.length ≤ 3 → rest.length < 4 → (head = name ++ [0] ∨ head = name ∧ read = [] ∧ rest = []) →
    let body := head ++ read.flatMap be4 ++ rest
    let shortName := name.take (Config.openCapPName.size - 1)
    exec (.uint32 parent hidden body) s =
      .next (s.deliverTruncated
        { zeroRecord .uint32 s.eng.curParam parent hidden shortName with
          cur := read.getD 0 0, min := read.getD 1 0, max := read.getD 2 0 }) ∧
    exec (.int32 parent hidden body) s =
      .next (s.deliverTruncated
        { zeroRecord .int32 s.eng.curParam parent hidden shortName with
          cur := read.getD 0 0, min := read.getD 1 0, max := read.getD 2 0 }))

/-- R201: a FLOAT record. All five pairs take the record's decimal-point byte, 0 where the record ends before it. The place of the
byte and of the step is the spec's general knowledge (log 8); that the kind, as an instruction, delivers the record in a PARAM
event in every state is the model's choice (log 12). -/
def Obligations.FloatKind : Prop :=
  (∀ (s : State) (parent : Byte) (hidden : Bool) (name unit ending : Bytes) (cur min max dflt step : Word32) (dp : Byte),
    0 ∉ name → 0 ∉ unit → (ending = [] ∨ ending.head? = some 0) →
    exec (.float parent hidden
        (name ++ [0] ++ be4 cur ++ be4 min ++ be4 max ++ be4 dflt ++ [dp] ++ be4 step ++ unit ++ ending)) s =
      .next (s.plusEvents [.param
        { zeroRecord .float s.eng.curParam parent hidden (name.take (Config.openCapPName.size - 1)) with
          fcur := ⟨cur, dp⟩, fmin := ⟨min, dp⟩, fmax := ⟨max, dp⟩, fdef := ⟨dflt, dp⟩, fstep := ⟨step, dp⟩, dp := dp,
          unit := unit.take (Config.openCapUnit.size - 1) }])) ∧
  (∀ (s : State) (parent : Byte) (hidden : Bool) (name head rest : Bytes) (read : List Word32),
    0 ∉ name → (read.length ≤ 3 ∧ rest.length < 4 ∨ read.length = 4 ∧ rest.length < 5) →
    (head = name ++ [0] ∨ head = name ∧ read = [] ∧ rest = []) →
    let dp := if read.length = 4 then rest.headD 0 else 0
    exec (.float parent hidden (head ++ read.flatMap be4 ++ rest)) s =
      .next (s.deliverTruncated
        { zeroRecord .float s.eng.curParam parent hidden (name.take (Config.openCapPName.size - 1)) with
          fcur := ⟨read.getD 0 0, dp⟩, fmin := ⟨read.getD 1 0, dp⟩, fmax := ⟨read.getD 2 0, dp⟩, fdef := ⟨read.getD 3 0, dp⟩,
          fstep := ⟨0, dp⟩, dp := dp }))

/-- R204: a TEXT_SELECTION record. The options string is kept whole, up to its capacity; the four indices are single bytes. And a
record that ends before all four indices, its options or its name terminated or not, as for the byte kinds. That the kind, as
an instruction, delivers the record is the model's choice (log 12). -/
def Obligations.TextSelectionKind : Prop :=
  ∀ (s : State) (parent : Byte) (hidden : Bool) (name options : Bytes), 0 ∉ name → 0 ∉ options →
    let r : ParameterRecord :=
      { zeroRecord .textSelection s.eng.curParam parent hidden (name.take (Config.openCapPName.size - 1)) with
        options := options.take (Config.openCapOptions.size - 1) }
    (∀ (unit ending : Bytes) (cur min max dflt : Byte), 0 ∉ unit → (ending = [] ∨ ending.head? = some 0) →
      exec (.textSelection parent hidden
          (name ++ [0] ++ options ++ [0] ++ [cur, min, max, dflt] ++ unit ++ ending)) s =
        .next (s.plusEvents [.param
          { r with
            cur := cur.setWidth 32, min := min.setWidth 32, max := max.setWidth 32, dflt := dflt.setWidth 32,
            unit := unit.take (Config.openCapUnit.size - 1) }])) ∧
    (∀ head read : Bytes, read.length ≤ 3 →
      (head = name ++ [0] ++ options ++ [0] ∨ read = [] ∧ head = name ++ [0] ++ options ∨
        read = [] ∧ options = [] ∧ head = name) →
      exec (.textSelection parent hidden (head ++ read)) s =
        .next (s.deliverTruncated
          { r with
            cur := (read.getD 0 0).setWidth 32, min := (read.getD 1 0).setWidth 32, max := (read.getD 2 0).setWidth 32 }))

/-- R205 to R208: STRING, FOLDER, INFO and COMMAND records, with every byte after their last field ignored; and a STRING with no
max-length byte, a COMMAND with no timeout byte, or with neither byte. `head` is the name with its terminator, or without one where
the record ends with it. That a kind, as an instruction, delivers its record is the model's choice (log 12). -/
def Obligations.StringFolderInfoCommandKinds : Prop :=
  ∀ (s : State) (parent : Byte) (hidden : Bool) (name head text ending extra : Bytes) (maxlen status timeout : Byte),
    0 ∉ name → 0 ∉ text → (ending = [] ∨ ending.head? = some 0) →
    (head = name ++ [0] ∨ head = name ∧ text = [] ∧ ending = []) →
    let shortName := name.take (Config.openCapPName.size - 1)
    exec (.string parent hidden (name ++ [0] ++ text ++ [0] ++ [maxlen] ++ extra)) s =
      .next (s.plusEvents [.param
        { zeroRecord .string s.eng.curParam parent hidden shortName with
          value := text.take (Config.openCapStrVal.size - 1), maxlen := maxlen }]) ∧
    exec (.string parent hidden (head ++ text ++ ending.take 1)) s =
      .next (s.deliverTruncated
        { zeroRecord .string s.eng.curParam parent hidden shortName with value := text.take (Config.openCapStrVal.size - 1) }) ∧
    exec (.folder parent hidden (name ++ ending)) s =
      .next (s.plusEvents [.param (zeroRecord .folder s.eng.curParam parent hidden shortName)]) ∧
    exec (.info parent hidden (head ++ text ++ ending)) s =
      .next (s.plusEvents [.param
        { zeroRecord .info s.eng.curParam parent hidden shortName with info := text.take (Config.openCapInfo.size - 1) }]) ∧
    exec (.command parent hidden (name ++ [0] ++ [status, timeout] ++ text ++ ending)) s =
      .next (s.plusEvents [.param
        { zeroRecord .command s.eng.curParam parent hidden shortName with
          status := status, timeout := timeout, info := text.take (Config.openCapInfo.size - 1) }]) ∧
    exec (.command parent hidden (name ++ [0] ++ [status])) s =
      .next (s.deliverTruncated { zeroRecord .command s.eng.curParam parent hidden shortName with status := status }) ∧
    exec (.command parent hidden head) s =
      .next (s.deliverTruncated (zeroRecord .command s.eng.curParam parent hidden shortName))

/-- R189, R191, R11: a record of fewer than 3 bytes is rejected, and one whose kind field maps to no kind, under every configuration;
the default table maps every code but 0 to 5 and 8 to 13 to none. -/
def Obligations.RejectedRecords : Prop :=
  (∀ (c : Config) (num : Byte) (d : Bytes), d.length < 3 → decodeParameter c num d = none) ∧
  (∀ (c : Config) (num parent tb : Byte) (body : Bytes), c.kindCode.lookup (tb.setWidth 6) = none →
    decodeParameter c num (parent :: tb :: body) = none) ∧
  (∀ code : BitVec 6, kindCodeDefault.lookup code = none ↔ code = 6 ∨ code = 7 ∨ 14 ≤ code)

/-- R180: the bounded string copy, with and without a terminator. -/
def Obligations.BoundedStringCopy : Prop :=
  ∀ (cap : Capacity) (text rest : Bytes), 0 ∉ text →
    bStr cap (text ++ [0] ++ rest) = (text.take (cap.size - 1), rest) ∧ bStr cap text = (text.take (cap.size - 1), [])

/-- R203: the value of a pair is the exact rational V / 10^D, V signed; a machine float of it is FLOAT_RENDER of the pair. -/
def Obligations.FixedPointIsExact : Prop :=
  (∀ x : Fixed, x.real * (10 ^ x.d.toNat : Nat) = x.v.toInt) ∧ Fixed.real ⟨1500, 2⟩ = 15 ∧
    ∀ x : Fixed, x.rendered = Config.floatRender x.v x.d

/-! ### The CRC and the codec -/

/-- R141: the corner cases of the CRC, the check value among them (G4; log 23); and a sequence followed by its own CRC has CRC 0, for every sequence. -/
def Obligations.CrcCornerCases : Prop :=
  crc8 [] = 0x00 ∧ crc8 [0x00] = 0x00 ∧ crc8 [0x01] = 0xD5 ∧ crc8 [0x80] = 0xEF ∧ crc8 [0xFF] = 0xF9 ∧
    crc8 [0x31, 0x32, 0x33, 0x34, 0x35, 0x36, 0x37, 0x38, 0x39] = 0xBC ∧ ∀ s : Bytes, crc8 (s ++ [crc8 s]) = 0x00

/-- R157: feeding an encoded frame to a codec in AWAIT_SYNC signals completion on its last byte and on no other, and the frame held
gives back the type, the addresses and the payload; a payload of 59 or 60 bytes is refused, and a codec would reject its length byte. -/
def Obligations.EncodeThenFeedRoundTrip : Prop :=
  (∀ (t d o : Byte) (p : Bytes), 0x28 ≤ t → p.length ≤ 58 →
    ∃ f u, Sys2Proof.encodeFrame t d o p = some f ∧
      feedAll .rxbuf 1 Codec.fresh f = .ok (u, List.replicate (p.length + 5) false ++ [true]) ∧
      u.state = .complete ∧ heldFrame .rxbuf u = .ok f ∧
      parseFrame f = .ok { type := t, dest := d, origin := o, payload := p }) ∧
  (∀ (t d o : Byte) (p : Bytes), p.length = 59 ∨ p.length = 60 →
    Sys2Proof.encodeFrame t d o p = none ∧
    feedAll .rxbuf 1 Codec.fresh ((frameBytes t d o p).take 2) = .ok (Codec.fresh, [false, false]))

/-! ### The whole machine -/

/-- R36, R37, R46, R47, R53: the invariant holds at reset. -/
def Obligations.ResetMeetsInvariant : Prop := State.reset.Inv

/-- R36, R37, R46, R47, R53: every step keeps the invariant, from every state that meets it. -/
def Obligations.StepKeepsInvariant : Prop := ∀ s t : State, s.Inv → step s = .next t → t.Inv

/-- R58, R72, R308: no step of a state that meets the invariant reads a Fresh byte or writes past a memory; nothing is fatal. -/
def Obligations.StepNeverStops : Prop := ∀ s : State, s.Inv → ∃ t, step s = .next t

/-- R308, R344: whatever the host presents from reset on, however long, the machine goes on and keeps its invariant. -/
def Obligations.EveryRunFromResetGoesOn : Prop :=
  ∀ (inputs : List HostInput) (k : Nat), ∃ t : State, Sys2Proof.core.run k { State.reset with inputs := inputs } = .next t ∧ t.Inv

/-- Every byte memory stays in its canonical form, from every state (the form is the model's own, log 3). -/
def Obligations.MemoriesStayCanonical : Prop :=
  ∀ s t : State, s.memoriesWf = true → step s = .next t → t.memoriesWf = true

/-- R269: a host command changes the request in progress only as the table says. -/
def Obligations.RequestTransitions : Prop :=
  ∀ (s t : State) (i : Instr), i.format = .hostCmd → s.eng.req ≠ .writing → exec i s = .next t →
    t.eng.req = s.eng.req ∨
    (i = .startScan ∧ s.eng.req = .idle ∧ t.eng.req = .scanning ∧ t.out.ev = s.out.ev) ∨
    (i = .cancelScan ∧ s.eng.req = .scanning ∧ t.eng.req = .idle ∧ t.out.ev = s.out.ev) ∨
    (i = .tick ∧ s.eng.req = .scanning ∧ t.eng.req = .idle ∧ t.out.ev = s.out.ev ++ [.scanDone true false]) ∨
    (∃ dev cnt, i = .loadParams dev cnt ∧ cnt ≠ 0 ∧ t.eng.req = .reading ∧ t.out.ev = s.out.ev) ∨
    (∃ dev, i = .loadParams dev 0 ∧ t.eng.req = .idle ∧ t.out.ev = s.out.ev ++ [.loadDone true]) ∨
    (i = .cancelLoad ∧ s.eng.req = .reading ∧ t.eng.req = .idle ∧ t.out.ev = s.out.ev) ∨
    (i = .tick ∧ s.eng.req = .reading ∧ t.eng.req = .idle ∧ t.out.ev = s.out.ev ++ [.loadDone false]) ∨
    (∃ b es ok, i = .rxByte b ∧ s.eng.req = .reading ∧ t.eng.req = .idle ∧ t.out.ev = s.out.ev ++ es ++ [.loadDone ok])

/-- R55, R156: what a command sends is nothing or one whole extended frame that the encoder made within its bounds, and a frame
sent stamps the activity. -/
def Obligations.SendsWholeFrames : Prop :=
  ∀ (s t : State) (i : Instr), exec i s = .next t →
    t.out.tx = s.out.tx ∨
    ∃ type dest origin p f, 0x28 ≤ type ∧ p.length ≤ 58 ∧ Sys2Proof.encodeFrame type dest origin p = some f ∧
      t.out.tx = s.out.tx ++ f ∧
      t.eng.lastActivity = s.now

/-- R272, R323: the time registers. `eng.scan_start` changes only at an accepted START_SCAN; `eng.last_activity` changes only to
the step's time, in a step that sends a frame or accepts the chunk that ends a load. -/
def Obligations.TimeRegisterWriters : Prop :=
  ∀ (s t : State) (i : Instr), exec i s = .next t →
    (t.eng.scanStart = s.eng.scanStart ∨ (i = .startScan ∧ s.eng.req = .idle ∧ t.eng.scanStart = s.now)) ∧
    (t.eng.lastActivity = s.eng.lastActivity ∨
      (t.eng.lastActivity = s.now ∧
        (t.out.tx ≠ s.out.tx ∨
          (s.eng.req = .reading ∧ t.eng.req = .idle ∧ ((∃ b, i = .rxByte b) ∨ ∃ d o p, i = .paramEntry d o p)))))

/-- R48, R300: the last error is written only by a failure, with the number of the parameter in hand. -/
def Obligations.ErrorWrittenOnlyByFailure : Prop :=
  ∀ (s t : State) (i : Instr), exec i s = .next t →
    t.eng.err = s.eng.err ∨
    (s.eng.req = .reading ∧ t.eng.req = .idle ∧ t.eng.err = ⟨.bufOverflow, s.eng.curParam⟩ ∧
      ((∃ b, i = .rxByte b) ∨ ∃ d o p, i = .paramEntry d o p)) ∨
    (s.eng.req = .reading ∧ t.eng.req = .idle ∧ t.eng.err = ⟨.readTimeout, s.eng.curParam⟩ ∧ i = .tick) ∨
    (s.eng.req = .writing ∧ t.eng.req = .idle ∧ t.eng.err = ⟨.writeTimeout, s.eng.wParam⟩ ∧ i = .tick)

/-- R53: READING with chunk index 0 means an empty buffer, and only the wrap from 255 breaks it. -/
def Obligations.ChunkZeroMeansEmptyBuffer : Prop :=
  ∀ s t : State, (s.eng.req = .reading → s.eng.curChunk = 0 → s.reasm.len = 0) → step s = .next t →
    (t.eng.req = .reading → t.eng.curChunk = 0 → t.reasm.len = 0) ∨ (s.eng.req = .reading ∧ s.eng.curChunk = 255)

/-- R301, R302, R305, R307: all that the classes Noise, Mismatch, Busy and Malformed change. Noise leaves its receiver seeking sync,
or changes nothing where a frame is held. Mismatch changes nothing but the reset of the codec whose frame it was; a reassembled record
that is rejected moves the load on with no PARAM event (R302, R268). Busy and Malformed add their one event. The class as a function
of instruction and state is the model's (log 21). -/
def Obligations.ErrorClassActions : Prop :=
  ∀ (s t : State) (i : Instr), exec i s = .next t →
    let movedOn (u : State) : State :=
      if u.eng.count ≤ u.eng.curParam then
        { u with
          reasm := { buf := [], len := 0 }
          eng := { u.eng with req := .idle, curParam := u.eng.curParam + 1, curChunk := 0, lastActivity := u.now } }.plusEvents
            [.loadDone true]
      else
        { u with
          reasm := { buf := [], len := 0 }
          eng := { u.eng with curParam := u.eng.curParam + 1, curChunk := 0, lastActivity := u.now } }.plusTx
            [0xC8, 0x06, 0x2C, u.eng.target, 0xEA, u.eng.curParam + 1, 0x00,
              crc8 [0x2C, u.eng.target, 0xEA, u.eng.curParam + 1, 0x00]]
    (raised given i s = some .noise →
      (∃ b u, i = .rxByte b ∧ t = { s with rx := u } ∧ (u.state = .awaitSync ∨ (s.rx.state = .complete ∧ u = s.rx))) ∨
      (∃ b u, i = .ptByte b ∧ t = { s with pt := u } ∧ (u.state = .awaitSync ∨ (s.pt.state = .complete ∧ u = s.pt)))) ∧
    (raised given i s = some .mismatch →
      ∃ u,
        (((∀ b, i ≠ .rxByte b) ∧ u = s) ∨
          ((∃ b, i = .rxByte b) ∧ u = { s with rx := { state := .awaitSync, buf := [], count := 0 } })) ∧
        (t = u ∨ (s.eng.req = .reading ∧ ((∃ b, i = .rxByte b) ∨ ∃ d o p, i = .paramEntry d o p) ∧ t = movedOn u))) ∧
    (raised given i s = some .busy →
      (i = .startScan ∧ t = s.plusEvents [.scanDone false true]) ∨
      (∃ dev param v, i = .writeParam dev param v ∧ t = s.plusEvents [.writeDone false true])) ∧
    (raised given i s = some .malformed →
      (∃ dev param v, i = .writeParam dev param v ∧ t = s.plusEvents [.cmdError 0x14 .badOperand]) ∨
      (∃ type dest origin p, i = .txFrame type dest origin p ∧ t = s.plusEvents [.cmdError 0x30 .badOperand]))

/-- R51: the status view of a state that meets the invariant, each element with its width; MAX_DEVICES beyond 255 does not fit S7
(log 18). -/
def Obligations.StatusViewShowsState : Prop :=
  ∀ s : State, s.Inv →
    s.status 0 =
      some (.reg 2 (match s.rx.state with | .awaitSync => 0 | .awaitLen => 1 | .accum => 2 | .complete => 3)) ∧
    s.status 1 = some (.reg 7 s.rx.count) ∧
    s.status 2 =
      some (.reg 2 (match s.pt.state with | .awaitSync => 0 | .awaitLen => 1 | .accum => 2 | .complete => 3)) ∧
    s.status 3 = some (.reg 7 s.pt.count) ∧
    s.status 4 = some (.reg 2 (match s.eng.req with | .idle => 0 | .scanning => 1 | .reading => 2 | .writing => 3)) ∧
    s.status 5 =
      some (.reg 8 (match s.eng.err.code with | .none => 0 | .bufOverflow => 1 | .readTimeout => 2 | .writeTimeout => 3)) ∧
    s.status 6 = some (.reg 8 s.eng.err.param.toNat) ∧ (s.dev.list.length < 256 → s.status 7 = some (.reg 8 s.dev.list.length)) ∧
    s.status 8 = some (.reg 8 s.eng.curParam.toNat) ∧ s.status 9 = some (.reg 8 s.eng.curChunk.toNat) ∧
    s.status 10 = some (.reg 8 s.eng.count.toNat) ∧ s.status 11 = some (.reg 8 s.eng.target.toNat) ∧
    s.status 12 = some (.reg 9 s.reasm.len) ∧ s.status 13 = some (.reg 32 s.eng.scanStart.toNat) ∧
    s.status 14 = some (.reg 32 s.eng.lastActivity.toNat) ∧ s.status 15 = some (.reg 8 s.eng.wParam.toNat) ∧
    (∀ i d, s.dev.list[i]? = some d → s.status (16 + i) = some (.device d)) ∧
    (∀ i, s.dev.list.length ≤ i → s.status (16 + i) = none)

/-- R124: the pseudo-instructions expand to one command per byte, all at one time, an RXF to those of the frame that Encode gives. -/
def Obligations.PseudoInstructionsExpand : Prop :=
  ∀ (t : Time) (bs p : Bytes) (type dest origin : Byte),
    opInputs t (.rxs bs) = bs.map (fun b => ⟨[0x01, b], t, false⟩) ∧
    opInputs t (.pts bs) = bs.map (fun b => ⟨[0x20, b], t, false⟩) ∧
    ∀ f, Sys2Proof.encodeFrame type dest origin p = some f → opInputs t (.rxf type dest origin p) = opInputs t (.rxs f)

/-- R155, R7: the encoder gives the frame byte for byte where the type is extended and the payload has at most 58 bytes, and refuses a
longer payload (R7). That it refuses a type below 0x28 too is the model's choice (log 27). -/
def Obligations.EncoderResult : Prop :=
  ∀ (t d o : Byte) (p : Bytes),
    (0x28 ≤ t → p.length ≤ 58 →
      Sys2Proof.encodeFrame t d o p =
        some ([0xC8, BitVec.ofNat 8 (p.length + 4)] ++ ([t, d, o] ++ p) ++ [crc8 ([t, d, o] ++ p)])) ∧
    (58 < p.length → Sys2Proof.encodeFrame t d o p = none) ∧
    (t < 0x28 → Sys2Proof.encodeFrame t d o p = none)
end

