-- ==== Sys2Proof/Laws/Memory.lean ====
section
/-! SUPPORT. The laws of the byte memories: read after write, ranges, and the canonical form every write keeps. -/

namespace Sys2Proof.Machine

/-! ### One byte -/

/-- A byte written reads back, and every other byte reads as before. -/
theorem Memory.read_write (m : Memory) (i j : Nat) (v : Byte) :
    Memory.read (Memory.write m i v) j = if i = j then some v else Memory.read m j := by
  induction m with
  | nil => simp [Memory.write, Memory.read]
  | cons x m ih =>
    obtain ⟨a, b⟩ := x
    unfold Memory.write
    split
    · simp only [Memory.read]
    · split
      · rename_i h; subst h; simp only [Memory.read]; split <;> rfl
      · simp only [Memory.read, ih]
        by_cases h : a = j <;> simp [h]
        intro h'; omega

@[simp] theorem Memory.read_write_same (m : Memory) (i : Nat) (v : Byte) : Memory.read (Memory.write m i v) i = some v := by
  simp [Memory.read_write]

theorem Memory.read_write_other (m : Memory) {i j : Nat} (v : Byte) (h : i ≠ j) :
    Memory.read (Memory.write m i v) j = Memory.read m j := by
  simp [Memory.read_write, h]

/-! ### The canonical form -/

/-- The canonical form is a rising list of addresses. -/
theorem Memory.wf_iff (m : Memory) : Memory.wf m = true ↔ (Memory.addresses m).Pairwise (· < ·) := by
  induction m with
  | nil => simp [Memory.wf, Memory.addresses]
  | cons x m ih =>
    cases m with
    | nil => simp [Memory.wf, Memory.addresses]
    | cons y m =>
      obtain ⟨a, b⟩ := x
      obtain ⟨a', b'⟩ := y
      simp only [Memory.wf, Bool.and_eq_true, decide_eq_true_eq, ih]
      simp only [Memory.addresses, List.map_cons, List.pairwise_cons, List.mem_cons, List.mem_map]
      constructor
      · rintro ⟨h, h1, h2⟩
        refine ⟨?_, h1, h2⟩
        rintro c (rfl | ⟨z, hz, rfl⟩)
        · exact h
        · exact Nat.lt_trans h (h1 _ ⟨z, hz, rfl⟩)
      · rintro ⟨h, h1, h2⟩
        exact ⟨h _ (.inl rfl), h1, h2⟩

/-- The addresses after a write: the old ones and the one written. -/
theorem Memory.mem_addresses_write (m : Memory) (i a : Nat) (v : Byte) :
    a ∈ Memory.addresses (Memory.write m i v) ↔ a = i ∨ a ∈ Memory.addresses m := by
  induction m with
  | nil => simp [Memory.write, Memory.addresses]
  | cons x m ih =>
    obtain ⟨a', b⟩ := x
    unfold Memory.write
    split
    · simp [Memory.addresses]
    · split
      · rename_i h; subst h; simp [Memory.addresses]
      · have ih' := ih
        simp only [Memory.addresses, List.mem_map] at ih'
        simp only [Memory.addresses, List.map_cons, List.mem_cons, List.mem_map, ih']
        tauto

/-- A write keeps the canonical form. -/
theorem Memory.write_wf (m : Memory) (i : Nat) (v : Byte) (h : Memory.wf m = true) :
    Memory.wf (Memory.write m i v) = true := by
  rw [Memory.wf_iff] at *
  induction m with
  | nil => simp [Memory.write, Memory.addresses]
  | cons x m ih =>
    obtain ⟨a, b⟩ := x
    simp only [Memory.addresses, List.map_cons, List.pairwise_cons] at h
    unfold Memory.write
    split
    · rename_i hi
      simp only [Memory.addresses, List.map_cons, List.pairwise_cons, List.mem_cons]
      refine ⟨?_, h⟩
      rintro c (rfl | hc)
      · exact hi
      · exact Nat.lt_trans hi (h.1 _ hc)
    · split
      · rename_i hi; subst hi
        simpa only [Memory.addresses, List.map_cons, List.pairwise_cons] using h
      · have hpw := ih h.2
        simp only [Memory.addresses, List.map_cons, List.pairwise_cons]
        refine ⟨?_, hpw⟩
        intro c hc
        rcases (Memory.mem_addresses_write m i c v).1 hc with rfl | hc
        · omega
        · exact h.1 _ hc

/-- Writing a range keeps the canonical form. -/
theorem Memory.writeRange_wf (bs : Bytes) (m : Memory) (i : Nat) (h : Memory.wf m = true) :
    Memory.wf (Memory.writeRange m i bs) = true := by
  induction bs generalizing m i with
  | nil => exact h
  | cons b bs ih => exact ih _ _ (Memory.write_wf m i b h)

@[simp] theorem Memory.wf_nil : Memory.wf [] = true := rfl

/-! ### Ranges -/

@[simp] theorem Memory.readRange_zero (m : Memory) (i : Nat) : Memory.readRange m i 0 = some [] := rfl

/-- A range read byte by byte. -/
theorem Memory.readRange_succ (m : Memory) (i n : Nat) :
    Memory.readRange m i (n + 1) =
      (Memory.read m i).bind fun b => (Memory.readRange m (i + 1) n).map (b :: ·) := by
  rw [Memory.readRange]
  cases Memory.read m i <;> cases Memory.readRange m (i + 1) n <;> rfl

/-- Two adjoining ranges. -/
theorem Memory.readRange_add (m : Memory) (i j k : Nat) :
    Memory.readRange m i (j + k) =
      (Memory.readRange m i j).bind fun x => (Memory.readRange m (i + j) k).map (x ++ ·) := by
  induction j generalizing i with
  | zero => simp
  | succ j ih =>
    rw [Nat.succ_add, Memory.readRange_succ, ih, Memory.readRange_succ]
    cases Memory.read m i with
    | none => rfl
    | some b =>
      cases Memory.readRange m (i + 1) j with
      | none => rfl
      | some x =>
        have h : i + 1 + j = i + (j + 1) := by omega
        simp only [Option.bind_some, Option.map_some, h]
        cases Memory.readRange m (i + (j + 1)) k <;> rfl

/-- The length of what a range read gives. -/
theorem Memory.readRange_length {m : Memory} {i n : Nat} {bs : Bytes} (h : Memory.readRange m i n = some bs) :
    bs.length = n := by
  induction n generalizing i bs with
  | zero => simp only [Memory.readRange_zero, Option.some.injEq] at h; subst h; rfl
  | succ n ih =>
    rw [Memory.readRange_succ] at h
    simp only [Option.bind_eq_some_iff, Option.map_eq_some_iff] at h
    obtain ⟨b, -, x, hx, rfl⟩ := h
    simp [ih hx]

/-- Reading one byte of a range. -/
theorem Memory.readRange_getElem? {m : Memory} {i n : Nat} {bs : Bytes} (h : Memory.readRange m i n = some bs)
    (k : Nat) (hk : k < n) : bs[k]? = Memory.read m (i + k) := by
  induction n generalizing i bs k with
  | zero => omega
  | succ n ih =>
    rw [Memory.readRange_succ] at h
    simp only [Option.bind_eq_some_iff, Option.map_eq_some_iff] at h
    obtain ⟨b, hb, x, hx, rfl⟩ := h
    cases k with
    | zero => simp [hb]
    | succ k =>
      rw [List.getElem?_cons_succ, ih hx k (by omega)]
      congr 1; omega

/-- A range below the byte written reads as before. -/
theorem Memory.readRange_write_below (m : Memory) (i n j : Nat) (v : Byte) (h : i + n ≤ j) :
    Memory.readRange (Memory.write m j v) i n = Memory.readRange m i n := by
  induction n generalizing i with
  | zero => rfl
  | succ n ih =>
    rw [Memory.readRange_succ, Memory.readRange_succ, ih (i + 1) (by omega), Memory.read_write_other m v (by omega : j ≠ i)]

/-- A range below the bytes written reads as before. -/
theorem Memory.readRange_writeRange_below (bs : Bytes) (m : Memory) (i n j : Nat) (h : i + n ≤ j) :
    Memory.readRange (Memory.writeRange m j bs) i n = Memory.readRange m i n := by
  induction bs generalizing m j with
  | nil => rfl
  | cons b bs ih =>
    rw [Memory.writeRange, ih _ _ (by omega), Memory.readRange_write_below m i n j b h]

/-- A byte outside the bytes written reads as before. -/
theorem Memory.read_writeRange_other (bs : Bytes) (m : Memory) (i a : Nat) (h : a < i ∨ i + bs.length ≤ a) :
    Memory.read (Memory.writeRange m i bs) a = Memory.read m a := by
  induction bs generalizing m i with
  | nil => rfl
  | cons b bs ih =>
    simp only [List.length_cons] at h
    rw [Memory.writeRange, ih _ _ (by omega), Memory.read_write_other m b (by omega : i ≠ a)]

/-- The bytes written read back. -/
theorem Memory.readRange_writeRange (bs : Bytes) (m : Memory) (i : Nat) :
    Memory.readRange (Memory.writeRange m i bs) i bs.length = some bs := by
  induction bs generalizing m i with
  | nil => rfl
  | cons b bs ih =>
    rw [List.length_cons, Memory.readRange_succ, Memory.writeRange, ih, Memory.read_writeRange_other bs _ _ _ (.inl (by omega)),
      Memory.read_write_same]
    rfl

/-- The bytes held and the bytes appended after them. -/
theorem Memory.readRange_append {m : Memory} {n : Nat} {d : Bytes} (h : Memory.readRange m 0 n = some d) (bs : Bytes) :
    Memory.readRange (Memory.writeRange m n bs) 0 (n + bs.length) = some (d ++ bs) := by
  rw [Memory.readRange_add, Memory.readRange_writeRange_below bs m 0 n n (by omega), h]
  simp [Memory.readRange_writeRange]

/-! ### A memory that holds exactly the addresses below a count -/

/-- Writing the next address extends the range. -/
theorem Memory.addresses_write_next (m : Memory) (n : Nat) (v : Byte) (h : Memory.addresses m = List.range n) :
    Memory.addresses (Memory.write m n v) = List.range (n + 1) := by
  have key : ∀ (m : Memory) (k : Nat), Memory.addresses m = List.range' k (n - k) → k ≤ n →
      Memory.addresses (Memory.write m n v) = List.range' k (n + 1 - k) := by
    intro m
    induction m with
    | nil =>
      intro k hk hkn
      have : n - k = 0 := by
        have := congrArg List.length hk
        simpa [Memory.addresses] using this.symm
      have : n = k := by omega
      simp [Memory.write, Memory.addresses, this, List.range'_succ]
    | cons x m ih =>
      intro k hk hkn
      obtain ⟨a, b⟩ := x
      cases hn : n - k with
      | zero => rw [hn] at hk; simp [Memory.addresses] at hk
      | succ j =>
        rw [hn, List.range'_succ] at hk
        simp only [Memory.addresses, List.map_cons, List.cons.injEq] at hk
        obtain ⟨rfl, hk⟩ := hk
        have e : n + 1 - a = (n + 1 - (a + 1)) + 1 := by omega
        have hj : n - (a + 1) = j := by omega
        have := ih (a + 1) (by rw [hj]; exact hk) (by omega)
        rw [e, List.range'_succ, ← this]
        simp [Memory.write, Memory.addresses, show ¬ n < a by omega, show ¬ n = a by omega]
  have := key m 0 (by simpa [List.range_eq_range'] using h) (by omega)
  simpa [List.range_eq_range'] using this

/-- Writing the next addresses extends the range. -/
theorem Memory.addresses_writeRange_next (bs : Bytes) (m : Memory) (n : Nat) (h : Memory.addresses m = List.range n) :
    Memory.addresses (Memory.writeRange m n bs) = List.range (n + bs.length) := by
  induction bs generalizing m n with
  | nil => exact h
  | cons b bs ih =>
    rw [Memory.writeRange, ih _ _ (Memory.addresses_write_next m n b h)]
    congr 1; simp; omega

/-- An address that is listed holds a value. -/
theorem Memory.read_isSome_iff (m : Memory) (i : Nat) : (Memory.read m i).isSome = true ↔ i ∈ Memory.addresses m := by
  induction m with
  | nil => simp [Memory.read, Memory.addresses]
  | cons x m ih =>
    obtain ⟨a, b⟩ := x
    simp only [Memory.addresses] at ih
    simp only [Memory.read, Memory.addresses, List.map_cons, List.mem_cons]
    by_cases h : a = i
    · simp [h]
    · simp [h, ih, Ne.symm h]

/-- Every range below the count is readable. -/
theorem Memory.readRange_isSome {m : Memory} {n : Nat} (h : Memory.addresses m = List.range n) (i k : Nat) (hk : i + k ≤ n) :
    ∃ bs, Memory.readRange m i k = some bs := by
  induction k generalizing i with
  | zero => exact ⟨[], rfl⟩
  | succ k ih =>
    obtain ⟨bs, hbs⟩ := ih (i + 1) (by omega)
    have : (Memory.read m i).isSome = true := by
      rw [Memory.read_isSome_iff, h, List.mem_range]; omega
    obtain ⟨b, hb⟩ := Option.isSome_iff_exists.1 this
    exact ⟨b :: bs, by rw [Memory.readRange_succ, hb, hbs]; rfl⟩

/-- A memory that lists the addresses below a count is in canonical form. -/
theorem Memory.wf_of_addresses {m : Memory} {n : Nat} (h : Memory.addresses m = List.range n) : Memory.wf m = true := by
  rw [Memory.wf_iff, h]; exact List.pairwise_lt_range

end Sys2Proof.Machine
end

