-- ==== Sys2Proof/Laws/Codec.lean ====
section
/-! SUPPORT. What Feed, Check and the completed frame can do (R142 to R149), said once each, and that they keep the receive state's
invariant (R36). -/

namespace Sys2Proof.Machine

/-! ### The invariant, state by state -/

theorem Codec.inv_awaitSync {lmin : Nat} {u : Codec} (hs : u.state = .awaitSync) :
    u.inv lmin = true ↔ Memory.addresses u.buf = List.range u.count ∧ u.count = 0 := by
  simp [Codec.inv, hs]

theorem Codec.inv_awaitLen {lmin : Nat} {u : Codec} (hs : u.state = .awaitLen) :
    u.inv lmin = true ↔
      Memory.addresses u.buf = List.range u.count ∧ u.count = 1 ∧ Memory.read u.buf 0 = some syncByte := by
  simp [Codec.inv, hs]

theorem lenAdmitted_iff {lmin : Nat} {b : Byte} : lenAdmitted lmin b = true ↔ lmin ≤ b.toNat ∧ b.toNat ≤ 62 := by
  rw [lenAdmitted, Bool.and_eq_true, decide_eq_true_iff, decide_eq_true_iff]
  rfl

theorem Codec.lenHeld_iff {lmin : Nat} {u : Codec} {rel : Nat → Bool} :
    u.lenHeld lmin rel = true ↔
      ∃ len, Memory.read u.buf 1 = some len ∧ lmin ≤ len.toNat ∧ len.toNat ≤ rxLenMax ∧ rel len.toNat = true := by
  unfold Codec.lenHeld lenAdmitted
  cases Memory.read u.buf 1 <;> simp [and_assoc]

theorem Codec.inv_accum {lmin : Nat} {u : Codec} (hs : u.state = .accum) :
    u.inv lmin = true ↔
      Memory.addresses u.buf = List.range u.count ∧ 2 ≤ u.count ∧ Memory.read u.buf 0 = some syncByte ∧
        ∃ len, Memory.read u.buf 1 = some len ∧ lmin ≤ len.toNat ∧ len.toNat ≤ rxLenMax ∧ u.count < len.toNat + 2 := by
  simp [Codec.inv, hs, Codec.lenHeld_iff, and_assoc]

theorem Codec.crcHeld_iff {u : Codec} {len : Byte} (hl : Memory.read u.buf 1 = some len) :
    u.crcHeld = true ↔
      ∃ body c, Memory.readRange u.buf 2 (len.toNat - 1) = some body ∧ Memory.read u.buf (len.toNat + 1) = some c ∧
        crc8 body = c := by
  unfold Codec.crcHeld
  rw [hl, Option.any_some]
  cases Memory.readRange u.buf 2 (len.toNat - 1) <;> cases Memory.read u.buf (len.toNat + 1) <;> simp
  exact eq_comm

theorem Codec.inv_complete {lmin : Nat} {u : Codec} (hs : u.state = .complete) :
    u.inv lmin = true ↔
      Memory.addresses u.buf = List.range u.count ∧ Memory.read u.buf 0 = some syncByte ∧
        ∃ len body c, Memory.read u.buf 1 = some len ∧ lmin ≤ len.toNat ∧ len.toNat ≤ rxLenMax ∧
          u.count = len.toNat + 2 ∧ Memory.readRange u.buf 2 (len.toNat - 1) = some body ∧
          Memory.read u.buf (len.toNat + 1) = some c ∧ crc8 body = c := by
  simp only [Codec.inv, hs, Bool.and_eq_true, beq_iff_eq, Codec.lenHeld_iff]
  constructor
  · rintro ⟨h, ⟨h0, len, h1, h2, h3, h4⟩, h5⟩
    obtain ⟨body, c, hb, hc, he⟩ := (Codec.crcHeld_iff h1).1 h5
    exact ⟨h, h0, len, body, c, h1, h2, h3, h4, hb, hc, he⟩
  · rintro ⟨h, h0, len, body, c, h1, h2, h3, h4, hb, hc, he⟩
    exact ⟨h, ⟨h0, len, h1, h2, h3, h4⟩, (Codec.crcHeld_iff h1).2 ⟨body, c, hb, hc, he⟩⟩

/-- Every codec that meets its invariant lists exactly the bytes below its count. -/
theorem Codec.inv_addresses {lmin : Nat} {u : Codec} (h : u.inv lmin = true) :
    Memory.addresses u.buf = List.range u.count := by
  simp only [Codec.inv, Bool.and_eq_true, beq_iff_eq] at h
  exact h.1

@[simp] theorem Codec.fresh_inv (lmin : Nat) : Codec.fresh.inv lmin = true := rfl
@[simp] theorem Codec.fresh_state : Codec.fresh.state = .awaitSync := rfl
@[simp] theorem Codec.fresh_count : Codec.fresh.count = 0 := rfl
@[simp] theorem Codec.fresh_buf : Codec.fresh.buf = [] := rfl
@[simp] theorem resetCodec_eq (u : Codec) : resetCodec u = Codec.fresh := rfl

/-! ### Feed, arm by arm -/

theorem feed_awaitSync {m : MemName} {lmin : Nat} {u : Codec} (b : Byte) (hs : u.state = .awaitSync) :
    feed m lmin u b = .ok (feedSync u b) := by simp [feed, hs]

theorem feed_awaitLen {m : MemName} {lmin : Nat} {u : Codec} (b : Byte) (hs : u.state = .awaitLen) :
    feed m lmin u b = .ok (feedLen lmin u b) := by simp [feed, hs]

theorem feed_accum {m : MemName} {lmin : Nat} {u : Codec} (b : Byte) (hs : u.state = .accum) :
    feed m lmin u b = feedAccum m u b := by simp [feed, hs]

theorem feed_complete {m : MemName} {lmin : Nat} {u : Codec} (b : Byte) (hs : u.state = .complete) :
    feed m lmin u b = .ok ⟨u, false, true⟩ := by simp [feed, hs]

/-- A codec with one more byte of its frame. -/
def Codec.push (u : Codec) (b : Byte) : Codec := { u with buf := Memory.write u.buf u.count b, count := u.count + 1 }

/-- Feed in ACCUM before the frame's last byte: the byte is appended (R145). -/
theorem feedAccum_more {m : MemName} {u : Codec} {b len : Byte} (hc : 2 ≤ u.count) (hm : u.count < m.size)
    (hl : Memory.read u.buf 1 = some len) (hn : u.count + 1 ≠ len.toNat + 2) :
    feedAccum m u b = .ok ⟨u.push b, false, false⟩ := by
  have hr : Memory.read (Memory.write u.buf u.count b) 1 = some len := by
    rw [Memory.read_write_other _ _ (by omega), hl]
  simp only [feedAccum, storeByte, hm, if_true, hr, hn, if_false, Codec.push]

/-- Feed in ACCUM at the frame's last byte: the CRC of the bytes held from index 2 on decides (R145, R146). -/
theorem feedAccum_last {m : MemName} {u : Codec} {b len : Byte} {body : Bytes} (hc : 2 ≤ u.count) (hm : u.count < m.size)
    (hl : Memory.read u.buf 1 = some len) (hn : u.count + 1 = len.toNat + 2)
    (hb : Memory.readRange u.buf 2 (u.count - 2) = some body) :
    feedAccum m u b =
      .ok (if crc8 body = b then ⟨{ u.push b with state := .complete }, true, false⟩ else ⟨Codec.fresh, false, true⟩) := by
  have hr : Memory.read (Memory.write u.buf u.count b) 1 = some len := by
    rw [Memory.read_write_other _ _ (by omega), hl]
  have hlen : len.toNat - 1 = u.count - 2 := by omega
  have hlast : len.toNat + 1 = u.count := by omega
  have hbody : Memory.readRange (Memory.write u.buf u.count b) 2 (len.toNat - 1) = some body := by
    rw [Memory.readRange_write_below _ _ _ _ _ (by omega), hlen, hb]
  have hcrc : Memory.read (Memory.write u.buf u.count b) (len.toNat + 1) = some b := by
    rw [hlast, Memory.read_write_same]
  simp only [feedAccum, storeByte, hm, if_true, hr, hn, check, hbody, hcrc, Codec.push]
  by_cases h : crc8 body = b <;> simp [h]

/-- What Feed can do from a state that meets the invariant: it never faults, it keeps the invariant, and it signals a frame exactly
when it reaches COMPLETE from another state (R142, R150). -/
theorem feed_of_inv {m : MemName} {lmin : Nat} {u : Codec} (b : Byte) (hm : m.size = maxFrame) (h1 : 1 ≤ lmin)
    (h : u.inv lmin = true) :
    ∃ r, feed m lmin u b = .ok r ∧ r.unit.inv lmin = true ∧
      (r.done = true ↔ u.state ≠ .complete ∧ r.unit.state = .complete) := by
  cases hs : u.state with
  | awaitSync =>
    refine ⟨_, feed_awaitSync b hs, ?_⟩
    obtain ⟨ha, hc⟩ := (Codec.inv_awaitSync hs).1 h
    have hbuf : u.buf = [] := by
      rw [hc] at ha
      simpa [Memory.addresses] using ha
    unfold feedSync
    split
    · rename_i hb
      subst hb
      simp [Codec.inv, hbuf, Memory.write, Memory.addresses, Memory.read, List.range_succ]
    · simp [hs, h]
  | awaitLen =>
    refine ⟨_, feed_awaitLen b hs, ?_⟩
    obtain ⟨ha, hc, h0⟩ := (Codec.inv_awaitLen hs).1 h
    unfold feedLen
    split
    · rename_i hb
      simp only [lenAdmitted, Bool.and_eq_true, decide_eq_true_eq] at hb
      refine ⟨(Codec.inv_accum rfl).2 ⟨?_, le_refl 2, ?_, b, ?_, hb.1, hb.2, ?_⟩, by simp⟩
      · rw [hc] at ha; exact Memory.addresses_write_next _ 1 b ha
      · rw [← h0]; exact Memory.read_write_other _ _ (by omega)
      · exact Memory.read_write_same _ _ _
      · show 2 < b.toNat + 2
        omega
    · simp
  | accum =>
    obtain ⟨ha, hc, h0, len, hl, hlo, hhi, hlt⟩ := (Codec.inv_accum hs).1 h
    have hsz : u.count < m.size := by rw [hm]; simp only [maxFrame, rxLenMax] at *; omega
    rw [feed_accum b hs]
    have hpush0 : Memory.read (u.push b).buf 0 = some syncByte := by
      rw [← h0]; exact Memory.read_write_other _ _ (by omega)
    have hpush1 : Memory.read (u.push b).buf 1 = some len := by
      rw [← hl]; exact Memory.read_write_other _ _ (by omega)
    have hpa : Memory.addresses (u.push b).buf = List.range (u.push b).count := Memory.addresses_write_next _ _ _ ha
    by_cases hn : u.count + 1 = len.toNat + 2
    · obtain ⟨body, hb⟩ := Memory.readRange_isSome ha 2 (u.count - 2) (by omega)
      rw [feedAccum_last hc hsz hl hn hb]
      refine ⟨_, rfl, ?_⟩
      split
      · rename_i hcrc
        refine ⟨(Codec.inv_complete rfl).2 ⟨hpa, hpush0, len, body, b, hpush1, hlo, hhi, hn, ?_, ?_, hcrc⟩, by simp⟩
        · show Memory.readRange (Memory.write u.buf u.count b) 2 (len.toNat - 1) = some body
          rw [Memory.readRange_write_below _ _ _ _ _ (by omega), ← hb]; congr 1; omega
        · show Memory.read (Memory.write u.buf u.count b) (len.toNat + 1) = some b
          rw [show len.toNat + 1 = u.count by omega, Memory.read_write_same]
      · simp
    · rw [feedAccum_more hc hsz hl hn]
      have hst : (u.push b).state = .accum := hs
      refine ⟨_, rfl, (Codec.inv_accum hst).2 ⟨hpa, ?_, hpush0, len, hpush1, hlo, hhi, ?_⟩, by simp [hst]⟩
      · show 2 ≤ u.count + 1; omega
      · show u.count + 1 < len.toNat + 2; omega
  | complete => exact ⟨_, feed_complete b hs, h, by simp⟩

/-- The frame a codec holds in COMPLETE reads whole (R149). -/
theorem heldFrame_of_inv {m : MemName} {lmin : Nat} {u : Codec} (h : u.inv lmin = true) (hs : u.state = .complete) :
    ∃ f, heldFrame m u = .ok f ∧ Memory.readRange u.buf 0 u.count = some f := by
  obtain ⟨ha, -, len, body, c, hl, -, -, hn, -, -, -⟩ := (Codec.inv_complete hs).1 h
  obtain ⟨f, hf⟩ := Memory.readRange_isSome ha 0 u.count (by omega)
  refine ⟨f, ?_, hf⟩
  rw [hn] at hf
  simp [heldFrame, hl, hf]

/-! ### The bytes a codec holds -/

/-- A codec that holds nothing. -/
theorem Codec.inv_awaitSync_buf {lmin : Nat} {u : Codec} (hs : u.state = .awaitSync) (h : u.inv lmin = true) :
    u = Codec.fresh := by
  obtain ⟨ha, hc⟩ := (Codec.inv_awaitSync hs).1 h
  obtain ⟨st, buf, count⟩ := u
  simp only at hs hc ha
  subst hs; subst hc
  rw [List.range_zero] at ha
  rw [List.map_eq_nil_iff.1 ha]
  rfl

/-- A codec that holds the SYNC byte. -/
theorem Codec.inv_awaitLen_buf {lmin : Nat} {u : Codec} (hs : u.state = .awaitLen) (h : u.inv lmin = true) :
    u = { state := .awaitLen, buf := [(0, syncByte)], count := 1 } := by
  obtain ⟨ha, hc, h0⟩ := (Codec.inv_awaitLen hs).1 h
  obtain ⟨st, buf, count⟩ := u
  simp only at hs hc ha h0
  subst hs; subst hc
  match buf with
  | [] => cases h0
  | [(a, x)] =>
    have : a = 0 := by simpa [Memory.addresses, List.range_succ] using ha
    subst this
    have : x = syncByte := by simpa [Memory.read] using h0
    rw [this]
  | _ :: _ :: _ => simp [Memory.addresses, List.range_succ] at ha

/-- The bytes of a frame in ACCUM: SYNC, the length byte, and what has come of the body (R36). -/
theorem Codec.inv_accum_bytes {lmin : Nat} {u : Codec} {f : Bytes} (hs : u.state = .accum) (h : u.inv lmin = true)
    (hf : Memory.readRange u.buf 0 u.count = some f) :
    ∃ len body, f = syncByte :: len :: body ∧ u.count = body.length + 2 ∧ Memory.read u.buf 1 = some len ∧
      Memory.readRange u.buf 2 (u.count - 2) = some body ∧ lmin ≤ len.toNat ∧ len.toNat ≤ 62 ∧
      u.count < len.toNat + 2 := by
  obtain ⟨-, hc, h0, len, hl, h1, h2, h3⟩ := (Codec.inv_accum hs).1 h
  have e : u.count = (u.count - 2) + 1 + 1 := by omega
  rw [e, Memory.readRange_succ, h0, Option.bind_some, Memory.readRange_succ, hl, Option.bind_some] at hf
  cases hb : Memory.readRange u.buf 2 (u.count - 2) with
  | none => rw [hb] at hf; cases hf
  | some body =>
    rw [hb] at hf
    cases hf
    have := Memory.readRange_length hb
    exact ⟨len, body, rfl, by omega, hl, rfl, h1, h2, h3⟩

/-- What the next byte of a frame in ACCUM does, by the bytes held (R145, R146): one more byte, the whole frame, or none left. -/
theorem feed_accum_bytes {m : MemName} {lmin : Nat} {u : Codec} {len : Byte} {body : Bytes} (b : Byte)
    (hm : m.size = maxFrame) (hs : u.state = .accum) (h : u.inv lmin = true)
    (hf : Memory.readRange u.buf 0 u.count = some (syncByte :: len :: body)) :
    feed m lmin u b =
      if body.length + 1 = len.toNat then
        if crc8 body = b then .ok ⟨{ u.push b with state := .complete }, true, false⟩ else .ok ⟨Codec.fresh, false, true⟩
      else .ok ⟨u.push b, false, false⟩ := by
  obtain ⟨len', body', e, hc, hl, hb, -, h2, h3⟩ := Codec.inv_accum_bytes hs h hf
  cases e
  have hsz : u.count < m.size := by rw [hm]; simp only [maxFrame]; omega
  rw [feed_accum b hs]
  by_cases hn : body.length + 1 = len.toNat
  · rw [if_pos hn, feedAccum_last (by omega) hsz hl (by omega) hb]
    split <;> rfl
  · rw [if_neg hn, feedAccum_more (by omega) hsz hl (by omega)]

/-- The frame held after its last byte (R149). -/
theorem heldFrame_push {m : MemName} {u : Codec} {len : Byte} {body : Bytes} (b : Byte) (hl : Memory.read u.buf 1 = some len)
    (hn : body.length + 1 = len.toNat) (hc : u.count = body.length + 2)
    (hf : Memory.readRange u.buf 0 u.count = some (syncByte :: len :: body)) :
    heldFrame m { u.push b with state := .complete } = .ok (syncByte :: len :: (body ++ [b])) := by
  have hr : Memory.read (Memory.write u.buf u.count b) 1 = some len := by
    rw [Memory.read_write_other _ _ (by omega), hl]
  have := Memory.readRange_append hf [b]
  simp only [Memory.writeRange] at this
  rw [show u.count + [b].length = len.toNat + 2 by simp; omega] at this
  simp only [heldFrame, Codec.push, hr, this]
  rfl

/-- Every byte of a frame that has grown by one. -/
theorem Codec.read_push (u : Codec) (b : Byte) (a : Nat) :
    Memory.read (u.push b).buf a = if a = u.count then some b else Memory.read u.buf a := by
  rw [Codec.push, Memory.read_write]
  by_cases h : a = u.count
  · rw [if_pos h, if_pos h.symm]
  · rw [if_neg h, if_neg (Ne.symm h)]

/-- MAX_PAYLOAD is what the longest admitted length leaves between TYPE and CRC, and EXT_MAX_PAYLOAD what MAX_FRAME leaves an extended
frame (R6, R7, C2). -/
theorem payload_bounds : maxPayload + 2 = rxLenMax ∧ rxLenMax + 2 = maxFrame ∧ extMaxPayload + 6 = maxFrame := ⟨rfl, rfl, rfl⟩

/-- A codec admits no length whose frame has more than MAX_PAYLOAD bytes between TYPE and CRC (R7). -/
theorem lenAdmitted_payload {lmin : Nat} {b : Byte} (h : lenAdmitted lmin b = true) : b.toNat - 2 ≤ maxPayload := by
  have := (lenAdmitted_iff.1 h).2
  simp only [maxPayload] at this ⊢
  omega

end Sys2Proof.Machine
end

