-- ==== Sys2Proof/Laws/Decode.lean ====
section
/-! SUPPORT. What decoding can do, said once: the commands that decode and those that do not (R120 to R122), the operand ranges as
propositions, and the fields of an encoded frame (R149, R155). -/

namespace Sys2Proof

/-! ### Operand ranges -/

theorem writeOperandsOk_iff {v : Bytes} : writeOperandsOk v = true ↔ v.length ≤ 57 := decide_eq_true_iff

theorem payloadOk_iff {p : Bytes} : payloadOk p = true ↔ p.length ≤ 58 := decide_eq_true_iff

theorem bodyOk_iff {b : Bytes} : bodyOk b = true ↔ 1 ≤ b.length := decide_eq_true_iff

theorem txOperandsOk_iff {type : Byte} {p : Bytes} : txOperandsOk type p = true ↔ 0x28 ≤ type ∧ p.length ≤ 58 := by
  unfold txOperandsOk
  rw [Bool.and_eq_true, decide_eq_true_iff, decide_eq_true_iff]
  rfl

/-- A length that fits a byte is its value. -/
theorem ofNat8_toNat {n : Nat} (h : n ≤ 255) : (BitVec.ofNat 8 n).toNat = n := by
  rw [BitVec.toNat_ofNat, Nat.mod_eq_of_lt (by omega)]

/-- A byte that equals a length is that length as a byte. -/
theorem eq_ofNat8 {n : Nat} {b : Byte} (h : n = b.toNat) : n ≤ 255 ∧ b = BitVec.ofNat 8 n := by
  have := b.isLt
  exact ⟨by omega, by rw [h, BitVec.ofNat_toNat, BitVec.setWidth_eq]⟩

/-! ### Host commands -/

theorem decodeCommand_write (dev param : Byte) (v : Bytes) (h : v.length ≤ 255) :
    decodeCommand ([0x14, dev, param, BitVec.ofNat 8 v.length] ++ v) = .ok (.writeParam dev param v) := by
  have e : decodeCommand ([0x14, dev, param, BitVec.ofNat 8 v.length] ++ v) =
      if v.length = (BitVec.ofNat 8 v.length).toNat then .ok (.writeParam dev param v) else .error .badLength := rfl
  rw [e, if_pos (ofNat8_toNat h).symm]

theorem decodeCommand_tx (type dest origin : Byte) (p : Bytes) (h : p.length ≤ 255) :
    decodeCommand ([0x30, type, dest, origin, BitVec.ofNat 8 p.length] ++ p) = .ok (.txFrame type dest origin p) := by
  have e : decodeCommand ([0x30, type, dest, origin, BitVec.ofNat 8 p.length] ++ p) =
      if p.length = (BitVec.ofNat 8 p.length).toNat then .ok (.txFrame type dest origin p) else .error .badLength := rfl
  rw [e, if_pos (ofNat8_toNat h).symm]

/-- The opcodes of R120. -/
theorem decodeCommand_unlisted {op : Byte} (args : Bytes)
    (h : op ∉ [0x01, 0x02, 0x10, 0x11, 0x12, 0x13, 0x14, 0x20, 0x21, (0x30 : Byte)]) :
    decodeCommand (op :: args) = .error .unknownOpcode := by
  simp only [List.mem_cons, List.not_mem_nil, or_false, not_or] at h
  obtain ⟨h1, h2, h3, h4, h5, h6, h7, h8, h9, h10⟩ := h
  simp only [decodeCommand, if_neg h1, if_neg h2, if_neg h3, if_neg h4, if_neg h5, if_neg h6, if_neg h7, if_neg h8, if_neg h9,
    if_neg h10]

/-- A command with a listed opcode that does not decode has a wrong length (R121, R122). -/
theorem decodeCommand_listed {op : Byte} (args : Bytes)
    (h : op ∈ [0x01, 0x02, 0x10, 0x11, 0x12, 0x13, 0x14, 0x20, 0x21, (0x30 : Byte)]) :
    decodeCommand (op :: args) = .error .badLength ∨ ∃ i, decodeCommand (op :: args) = .ok i := by
  simp only [List.mem_cons, List.not_mem_nil, or_false] at h
  rcases h with rfl | rfl | rfl | rfl | rfl | rfl | rfl | rfl | rfl | rfl
  · rcases args with _ | ⟨b, _ | ⟨c, r⟩⟩ <;> first | exact .inl rfl | exact .inr ⟨_, rfl⟩
  · rcases args with _ | ⟨b, r⟩ <;> first | exact .inl rfl | exact .inr ⟨_, rfl⟩
  · rcases args with _ | ⟨b, r⟩ <;> first | exact .inl rfl | exact .inr ⟨_, rfl⟩
  · rcases args with _ | ⟨b, r⟩ <;> first | exact .inl rfl | exact .inr ⟨_, rfl⟩
  · rcases args with _ | ⟨b, _ | ⟨c, _ | ⟨d, r⟩⟩⟩ <;> first | exact .inl rfl | exact .inr ⟨_, rfl⟩
  · rcases args with _ | ⟨b, r⟩ <;> first | exact .inl rfl | exact .inr ⟨_, rfl⟩
  · rcases args with _ | ⟨b, _ | ⟨c, _ | ⟨n, v⟩⟩⟩
    · exact .inl rfl
    · exact .inl rfl
    · exact .inl rfl
    · have e : decodeCommand (0x14 :: b :: c :: n :: v) =
          if v.length = n.toNat then .ok (.writeParam b c v) else .error .badLength := rfl
      rw [e]; by_cases hv : v.length = n.toNat
      · exact .inr ⟨_, if_pos hv⟩
      · exact .inl (if_neg hv)
  · rcases args with _ | ⟨b, _ | ⟨c, r⟩⟩ <;> first | exact .inl rfl | exact .inr ⟨_, rfl⟩
  · rcases args with _ | ⟨b, r⟩ <;> first | exact .inl rfl | exact .inr ⟨_, rfl⟩
  · rcases args with _ | ⟨b, _ | ⟨c, _ | ⟨d, _ | ⟨n, v⟩⟩⟩⟩
    · exact .inl rfl
    · exact .inl rfl
    · exact .inl rfl
    · exact .inl rfl
    · have e : decodeCommand (0x30 :: b :: c :: d :: n :: v) =
          if v.length = n.toNat then .ok (.txFrame b c d v) else .error .badLength := rfl
      rw [e]; by_cases hv : v.length = n.toNat
      · exact .inr ⟨_, if_pos hv⟩
      · exact .inl (if_neg hv)

/-- Which commands have an opcode R120 does not list, or none. -/
theorem decodeCommand_unknown {c : Bytes} :
    decodeCommand c = .error .unknownOpcode ↔
      ∀ op args, c = op :: args → op ∉ [0x01, 0x02, 0x10, 0x11, 0x12, 0x13, 0x14, 0x20, 0x21, (0x30 : Byte)] := by
  match c with
  | [] => simp [decodeCommand]
  | op :: args =>
    constructor
    · rintro h op' args' ⟨rfl, rfl⟩ hop
      rcases decodeCommand_listed args hop with e | ⟨i, e⟩ <;> rw [h] at e <;> cases e
    · intro h; exact decodeCommand_unlisted args (h _ _ rfl)

/-- The operand ranges are not decoding's to check. -/
theorem decodeCommand_ne_badOperand (c : Bytes) : decodeCommand c ≠ .error .badOperand := by
  intro h
  match c with
  | [] => cases h
  | op :: args =>
    by_cases hop : op ∈ [0x01, 0x02, 0x10, 0x11, 0x12, 0x13, 0x14, 0x20, 0x21, (0x30 : Byte)]
    · rcases decodeCommand_listed args hop with e | ⟨i, e⟩ <;> rw [h] at e <;> cases e
    · rw [decodeCommand_unlisted args hop] at h; cases h

/-- What a command that decodes looks like: the opcode and length R120 and R121 give its instruction. -/
theorem decodeCommand_ok {c : Bytes} {i : Instr} (h : decodeCommand c = .ok i) :
    (∃ b, c = [0x01, b] ∧ i = .rxByte b) ∨ (c = [0x02] ∧ i = .tick) ∨ (c = [0x10] ∧ i = .startScan) ∨
      (c = [0x11] ∧ i = .cancelScan) ∨ (∃ dev cnt, c = [0x12, dev, cnt] ∧ i = .loadParams dev cnt) ∨
      (c = [0x13] ∧ i = .cancelLoad) ∨
      (∃ dev param v, v.length ≤ 255 ∧ c = [0x14, dev, param, BitVec.ofNat 8 v.length] ++ v ∧ i = .writeParam dev param v) ∨
      (∃ b, c = [0x20, b] ∧ i = .ptByte b) ∨ (c = [0x21] ∧ i = .ptConsume) ∨
      (∃ type dest origin p, p.length ≤ 255 ∧ c = [0x30, type, dest, origin, BitVec.ofNat 8 p.length] ++ p ∧
        i = .txFrame type dest origin p) := by
  match c with
  | [] => cases h
  | op :: args =>
    by_cases hop : op ∈ [0x01, 0x02, 0x10, 0x11, 0x12, 0x13, 0x14, 0x20, 0x21, (0x30 : Byte)]
    swap
    · rw [decodeCommand_unlisted args hop] at h; cases h
    simp only [List.mem_cons, List.not_mem_nil, or_false] at hop
    rcases hop with rfl | rfl | rfl | rfl | rfl | rfl | rfl | rfl | rfl | rfl
    · rcases args with _ | ⟨b, _ | ⟨c, r⟩⟩ <;> cases h; exact .inl ⟨_, rfl, rfl⟩
    · rcases args with _ | ⟨b, r⟩ <;> cases h; exact .inr (.inl ⟨rfl, rfl⟩)
    · rcases args with _ | ⟨b, r⟩ <;> cases h; exact .inr (.inr (.inl ⟨rfl, rfl⟩))
    · rcases args with _ | ⟨b, r⟩ <;> cases h; exact .inr (.inr (.inr (.inl ⟨rfl, rfl⟩)))
    · rcases args with _ | ⟨b, _ | ⟨c, _ | ⟨d, r⟩⟩⟩ <;> cases h
      exact .inr (.inr (.inr (.inr (.inl ⟨_, _, rfl, rfl⟩))))
    · rcases args with _ | ⟨b, r⟩ <;> cases h; exact .inr (.inr (.inr (.inr (.inr (.inl ⟨rfl, rfl⟩)))))
    · rcases args with _ | ⟨b, _ | ⟨c, _ | ⟨n, v⟩⟩⟩
      · cases h
      · cases h
      · cases h
      · change (if v.length = n.toNat then Except.ok (Instr.writeParam b c v) else Except.error CmdReason.badLength) = _ at h
        by_cases hv : v.length = n.toNat
        · rw [if_pos hv] at h; cases h
          obtain ⟨h1, h2⟩ := eq_ofNat8 hv
          exact .inr (.inr (.inr (.inr (.inr (.inr (.inl ⟨_, _, _, h1, by rw [h2]; rfl, rfl⟩))))))
        · rw [if_neg hv] at h; cases h
    · rcases args with _ | ⟨b, _ | ⟨c, r⟩⟩ <;> cases h
      exact .inr (.inr (.inr (.inr (.inr (.inr (.inr (.inl ⟨_, rfl, rfl⟩)))))))
    · rcases args with _ | ⟨b, r⟩ <;> cases h
      exact .inr (.inr (.inr (.inr (.inr (.inr (.inr (.inr (.inl ⟨rfl, rfl⟩))))))))
    · rcases args with _ | ⟨b, _ | ⟨c, _ | ⟨d, _ | ⟨n, v⟩⟩⟩⟩
      · cases h
      · cases h
      · cases h
      · cases h
      · change (if v.length = n.toNat then Except.ok (Instr.txFrame b c d v) else Except.error CmdReason.badLength) = _ at h
        by_cases hv : v.length = n.toNat
        · rw [if_pos hv] at h; cases h
          obtain ⟨h1, h2⟩ := eq_ofNat8 hv
          exact .inr (.inr (.inr (.inr (.inr (.inr (.inr (.inr (.inr ⟨_, _, _, _, h1, by rw [h2]; rfl, rfl⟩))))))))
        · rw [if_neg hv] at h; cases h

/-! ### Frames -/

@[simp] theorem frameBytes_length (t d o : Byte) (p : Bytes) : (frameBytes t d o p).length = p.length + 6 := by
  simp [frameBytes]

/-- The fields of an encoded extended frame read back (R149, R155). -/
theorem parseFrame_frameBytes {t d o : Byte} {p : Bytes} (ht : 0x28 ≤ t) (hp : p.length ≤ 58) :
    parseFrame (frameBytes t d o p) = .ok ⟨t, d, o, p⟩ := by
  have hl : (BitVec.ofNat 8 (p.length + 4)).toNat = p.length + 4 := ofNat8_toNat (by omega)
  simp only [frameBytes, List.cons_append, List.nil_append, parseFrame, hl]
  rw [if_neg (by omega), if_neg (show ¬ t < extTypeMin from BitVec.not_lt.2 ht), if_neg (by omega)]
  simp

/-- An encoded extended frame decodes to the instruction of its TYPE (R94, R155). -/
theorem decodeFrame_frameBytes {t d o : Byte} {p : Bytes} (ht : 0x28 ≤ t) (hp : p.length ≤ 58) :
    decodeFrame (frameBytes t d o p) = frameInstr ⟨t, d, o, p⟩ := by
  have hl : (BitVec.ofNat 8 (p.length + 4)).toNat = p.length + 4 := ofNat8_toNat (by omega)
  have hparse := parseFrame_frameBytes (d := d) (o := o) ht hp
  simp only [frameBytes, List.cons_append, List.nil_append] at hparse ⊢
  simp only [decodeFrame, hl, hparse]
  rw [if_neg (by simp), if_neg (by simp only [rxLenMin, rxLenMax, List.length_cons, List.length_append, List.length_nil]; omega),
    if_neg]
  · rfl
  · simp only [Nat.add_succ_sub_one, ne_eq, not_not]
    simp

/-- What a frame that decodes looks like: the encoding of its fields (R90, R92 to R94). -/
theorem decodeFrame_ok {f : Bytes} {i : Instr} (h : decodeFrame f = .ok i) :
    ∃ t d o p, 0x28 ≤ t ∧ p.length ≤ 58 ∧ f = frameBytes t d o p ∧ frameInstr ⟨t, d, o, p⟩ = .ok i := by
  match f with
  | [] => cases h
  | [_] => cases h
  | sync :: len :: rest =>
    simp only [decodeFrame] at h
    by_cases hs : sync = syncByte
    swap
    · rw [if_pos hs] at h; cases h
    rw [if_neg (not_not.2 hs)] at h
    by_cases hl : len.toNat < rxLenMin ∨ rxLenMax < len.toNat ∨ rest.length ≠ len.toNat
    · rw [if_pos hl] at h; cases h
    rw [if_neg hl] at h
    simp only [rxLenMin, rxLenMax, not_or, not_lt, ne_eq, not_not] at hl
    obtain ⟨hl1, hl2, hl3⟩ := hl
    by_cases hc : Machine.crc8 (rest.take (len.toNat - 1)) = rest.getD (len.toNat - 1) 0
    swap
    · rw [if_pos hc] at h; cases h
    rw [if_neg (not_not.2 hc)] at h
    simp only [parseFrame] at h
    by_cases h2 : len.toNat < 2
    · rw [if_pos h2] at h; cases h
    rw [if_neg h2] at h
    match rest, hl3, hc, h with
    | t :: addressed, hl3, hc, h =>
      simp only at h
      by_cases ht : t < extTypeMin
      · rw [if_pos ht] at h; cases h
      rw [if_neg ht] at h
      by_cases h4 : len.toNat < 4
      · rw [if_pos h4] at h; cases h
      rw [if_neg h4] at h
      match addressed, hl3, hc, h with
      | [], hl3, _, _ => simp at hl3; omega
      | [_], hl3, _, _ => simp at hl3; omega
      | d :: o :: tail, hl3, hc, h =>
        simp only [List.length_cons] at hl3
        have hn : len.toNat - 4 = tail.length - 1 := by omega
        have hp : (tail.take (len.toNat - 4)).length = len.toNat - 4 := by simp; omega
        refine ⟨t, d, o, tail.take (len.toNat - 4), BitVec.not_lt.1 ht, by omega, ?_, h⟩
        have hc1 : Machine.crc8 ([t, d, o] ++ tail.take (len.toNat - 4)) = tail.getD (len.toNat - 4) 0 := by
          rw [show len.toNat - 1 = len.toNat - 4 + 3 by omega] at hc
          simpa using hc
        have hlb : BitVec.ofNat 8 (len.toNat - 4 + 4) = len := by rw [Nat.sub_add_cancel (by omega)]; simp
        rw [frameBytes, hp, hlb, hc1, hs]
        simp only [List.cons_append, List.nil_append, List.cons.injEq, true_and]
        conv => lhs; rw [← List.take_append_drop (len.toNat - 4) tail]
        congr 1
        have hlast : len.toNat - 4 < tail.length := by omega
        rw [List.drop_eq_getElem_cons hlast, List.getD_eq_getElem?_getD, List.getElem?_eq_getElem hlast]
        simp only [Option.getD_some, List.cons.injEq, List.drop_eq_nil_iff, true_and]
        omega

/-- Which TYPE each frame instruction has (R97). -/
theorem frameInstr_ok {f : Frame} {i : Instr} (h : frameInstr f = .ok i) :
    i.format = .frameType ∧ encode i = frameBytes f.type f.dest f.origin f.payload := by
  obtain ⟨t, d, o, p⟩ := f
  unfold frameInstr at h
  by_cases h1 : t = typeDevicePing
  · subst h1; cases h; exact ⟨rfl, rfl⟩
  simp only [if_neg h1] at h
  by_cases h2 : t = typeDeviceInfo
  · subst h2; cases h; exact ⟨rfl, rfl⟩
  simp only [if_neg h2] at h
  by_cases h3 : t = typeParamEntry
  · subst h3; cases h; exact ⟨rfl, rfl⟩
  simp only [if_neg h3] at h
  by_cases h4 : t = typeParamRead
  · subst h4; cases h; exact ⟨rfl, rfl⟩
  simp only [if_neg h4] at h
  by_cases h5 : t = typeParamWrite
  · subst h5; cases h; exact ⟨rfl, rfl⟩
  simp only [if_neg h5] at h
  cases h

/-- A frame that begins with SYNC and has as many bytes as its length byte says: the CRC decides first, then its fields. -/
theorem decodeFrame_whole {len : Byte} {body : Bytes} (b : Byte) (h1 : 1 ≤ len.toNat) (h2 : len.toNat ≤ 62)
    (hl : body.length + 1 = len.toNat) :
    decodeFrame (syncByte :: len :: (body ++ [b])) =
      if Machine.crc8 body = b then (parseFrame (syncByte :: len :: (body ++ [b]))).bind frameInstr else .error .frameCrc := by
  have e : len.toNat - 1 = body.length := by omega
  simp only [decodeFrame]
  rw [if_neg (by simp), if_neg (by simp only [rxLenMin, rxLenMax, List.length_append, List.length_cons, List.length_nil]; omega), e]
  simp

/-- A frame that is not as long as its length byte says. -/
theorem decodeFrame_partial {len : Byte} {body : Bytes} (b : Byte) (hl : body.length + 1 ≠ len.toNat) :
    decodeFrame (syncByte :: len :: (body ++ [b])) = .error .frameLength := by
  simp only [decodeFrame]
  rw [if_neg (by simp), if_pos (.inr (.inr (by simpa using hl)))]

/-- Why a frame has no TYPE or no addresses (R261, R262). -/
theorem parseFrame_error {f : Bytes} {e : Reject} (h : parseFrame f = .error e) :
    e = .noType ∨ e = .standardFrame ∨ e = .noAddresses := by
  unfold parseFrame at h
  repeat' split at h
  all_goals cases h
  all_goals simp

/-- A TYPE that is no instruction is one R97 does not list. -/
theorem frameInstr_error {f : Frame} {e : Reject} (h : frameInstr f = .error e) :
    e = .unknownType ∧ f.type ≠ typeDevicePing ∧ f.type ≠ typeDeviceInfo ∧ f.type ≠ typeParamEntry ∧ f.type ≠ typeParamRead ∧
      f.type ≠ typeParamWrite := by
  unfold frameInstr at h
  repeat' split at h
  all_goals cases h
  exact ⟨rfl, ‹_›, ‹_›, ‹_›, ‹_›, ‹_›⟩

/-! ### Records -/

/-- The type byte of a kind reads back as its kind, its hidden flag and a clear bit 6 (R107, R108). -/
theorem typeByte_fields (hidden : Bool) (k : ParamKind) :
    kindCodeDefault.lookup (kindField (typeByte hidden k)) = some k ∧ hiddenBit (typeByte hidden k) = hidden := by
  cases hidden <;> cases k <;> decide

theorem encodeRecord_length (parent : Byte) (hidden : Bool) (k : ParamKind) (body : Bytes) :
    (encodeRecord parent hidden k body).length = 2 + body.length := by
  simp only [encodeRecord, List.length_cons]; omega

/-- An encoded record's head reads back (R106). -/
theorem parseRecord_encodeRecord (parent : Byte) (hidden : Bool) (k : ParamKind) {body : Bytes} (h : 1 ≤ body.length) :
    parseRecord kindCodeDefault (encodeRecord parent hidden k body) = .ok ⟨parent, hidden, k, body⟩ := by
  match body, h with
  | c :: tail, _ =>
    obtain ⟨h1, h2⟩ := typeByte_fields hidden k
    simp only [encodeRecord, parseRecord, h1, h2]

end Sys2Proof
end

