-- ==== Sys2Proof/Laws/State.lean ====
section
/-! SUPPORT. One lemma per field per update of State, so that no later proof unfolds a record update; and for the updates that
branch, the one equation that says all they do. -/

namespace Sys2Proof.Machine

@[simp] theorem State.emit_rx (s : State) (e : Event) : (s.emit e).rx = s.rx := rfl
@[simp] theorem State.emit_pt (s : State) (e : Event) : (s.emit e).pt = s.pt := rfl
@[simp] theorem State.emit_eng (s : State) (e : Event) : (s.emit e).eng = s.eng := rfl
@[simp] theorem State.emit_reasm (s : State) (e : Event) : (s.emit e).reasm = s.reasm := rfl
@[simp] theorem State.emit_dev (s : State) (e : Event) : (s.emit e).dev = s.dev := rfl
@[simp] theorem State.emit_out (s : State) (e : Event) : (s.emit e).out = { s.out with ev := s.out.ev ++ [e] } := rfl
@[simp] theorem State.emit_now (s : State) (e : Event) : (s.emit e).now = s.now := rfl
@[simp] theorem State.emit_inputs (s : State) (e : Event) : (s.emit e).inputs = s.inputs := rfl

@[simp] theorem State.send_rx (s : State) (bs : Bytes) : (s.send bs).rx = s.rx := rfl
@[simp] theorem State.send_pt (s : State) (bs : Bytes) : (s.send bs).pt = s.pt := rfl
@[simp] theorem State.send_eng (s : State) (bs : Bytes) : (s.send bs).eng = s.eng := rfl
@[simp] theorem State.send_reasm (s : State) (bs : Bytes) : (s.send bs).reasm = s.reasm := rfl
@[simp] theorem State.send_dev (s : State) (bs : Bytes) : (s.send bs).dev = s.dev := rfl
@[simp] theorem State.send_out (s : State) (bs : Bytes) : (s.send bs).out = { s.out with tx := s.out.tx ++ bs } := rfl
@[simp] theorem State.send_now (s : State) (bs : Bytes) : (s.send bs).now = s.now := rfl
@[simp] theorem State.send_inputs (s : State) (bs : Bytes) : (s.send bs).inputs = s.inputs := rfl

@[simp] theorem State.stamp_rx (s : State) : (s.stamp).rx = s.rx := rfl
@[simp] theorem State.stamp_pt (s : State) : (s.stamp).pt = s.pt := rfl
@[simp] theorem State.stamp_eng (s : State) : (s.stamp).eng = { s.eng with lastActivity := s.now } := rfl
@[simp] theorem State.stamp_reasm (s : State) : (s.stamp).reasm = s.reasm := rfl
@[simp] theorem State.stamp_dev (s : State) : (s.stamp).dev = s.dev := rfl
@[simp] theorem State.stamp_out (s : State) : (s.stamp).out = s.out := rfl
@[simp] theorem State.stamp_now (s : State) : (s.stamp).now = s.now := rfl
@[simp] theorem State.stamp_inputs (s : State) : (s.stamp).inputs = s.inputs := rfl

/-- All that SendFrame does where Encode gives a frame (R156). -/
theorem State.sendFrame_eq (s : State) {t : Byte} (d o : Byte) {p : Bytes} (h : txOperandsOk t p = true) :
    s.sendFrame t d o p = (s.send (frameBytes t d o p)).stamp := by
  rw [State.sendFrame, encodeFrame, if_pos h]

/-- The three frames the engine sends itself are within Encode's bounds (R155). -/
theorem State.sendPing_eq (s : State) : s.sendPing = (s.send (frameBytes typeDevicePing addrBroadcast addrSelf [])).stamp := rfl
theorem State.sendParamRead_eq (s : State) (dest param chunk : Byte) :
    s.sendParamRead dest param chunk = (s.send (frameBytes typeParamRead dest addrSelf [param, chunk])).stamp := rfl
theorem State.sendParamWrite_eq (s : State) (dest param : Byte) {v : Bytes} (h : writeOperandsOk v = true) :
    s.sendParamWrite dest param v = (s.send (frameBytes typeParamWrite dest addrSelf (param :: v))).stamp := by
  rw [writeOperandsOk, decide_eq_true_eq, writeMaxValue] at h
  refine State.sendFrame_eq s dest addrSelf ?_
  rw [txOperandsOk, Bool.and_eq_true, decide_eq_true_eq, decide_eq_true_eq, extMaxPayload, List.length_cons]
  exact ⟨by decide, by omega⟩

@[simp] theorem State.sendFrame_rx (s : State) (t d o : Byte) (p : Bytes) : (s.sendFrame t d o p).rx = s.rx := by
  unfold State.sendFrame; split <;> rfl
@[simp] theorem State.sendFrame_pt (s : State) (t d o : Byte) (p : Bytes) : (s.sendFrame t d o p).pt = s.pt := by
  unfold State.sendFrame; split <;> rfl
@[simp] theorem State.sendFrame_reasm (s : State) (t d o : Byte) (p : Bytes) : (s.sendFrame t d o p).reasm = s.reasm := by
  unfold State.sendFrame; split <;> rfl
@[simp] theorem State.sendFrame_dev (s : State) (t d o : Byte) (p : Bytes) : (s.sendFrame t d o p).dev = s.dev := by
  unfold State.sendFrame; split <;> rfl
@[simp] theorem State.sendFrame_now (s : State) (t d o : Byte) (p : Bytes) : (s.sendFrame t d o p).now = s.now := by
  unfold State.sendFrame; split <;> rfl
@[simp] theorem State.sendFrame_inputs (s : State) (t d o : Byte) (p : Bytes) : (s.sendFrame t d o p).inputs = s.inputs := by
  unfold State.sendFrame; split <;> rfl

@[simp] theorem State.setReq_rx (s : State) (r : Request) : (s.setReq r).rx = s.rx := rfl
@[simp] theorem State.setReq_pt (s : State) (r : Request) : (s.setReq r).pt = s.pt := rfl
@[simp] theorem State.setReq_eng (s : State) (r : Request) : (s.setReq r).eng = { s.eng with req := r } := rfl
@[simp] theorem State.setReq_reasm (s : State) (r : Request) : (s.setReq r).reasm = s.reasm := rfl
@[simp] theorem State.setReq_dev (s : State) (r : Request) : (s.setReq r).dev = s.dev := rfl
@[simp] theorem State.setReq_out (s : State) (r : Request) : (s.setReq r).out = s.out := rfl
@[simp] theorem State.setReq_now (s : State) (r : Request) : (s.setReq r).now = s.now := rfl
@[simp] theorem State.setReq_inputs (s : State) (r : Request) : (s.setReq r).inputs = s.inputs := rfl

@[simp] theorem State.malformed_rx (s : State) (op : Byte) (r : CmdReason) : (s.malformed op r).rx = s.rx := rfl
@[simp] theorem State.malformed_pt (s : State) (op : Byte) (r : CmdReason) : (s.malformed op r).pt = s.pt := rfl
@[simp] theorem State.malformed_eng (s : State) (op : Byte) (r : CmdReason) : (s.malformed op r).eng = s.eng := rfl
@[simp] theorem State.malformed_reasm (s : State) (op : Byte) (r : CmdReason) : (s.malformed op r).reasm = s.reasm := rfl
@[simp] theorem State.malformed_dev (s : State) (op : Byte) (r : CmdReason) : (s.malformed op r).dev = s.dev := rfl
@[simp] theorem State.malformed_out (s : State) (op : Byte) (r : CmdReason) : (s.malformed op r).out = { s.out with ev := s.out.ev ++ [.cmdError op r] } := rfl
@[simp] theorem State.malformed_now (s : State) (op : Byte) (r : CmdReason) : (s.malformed op r).now = s.now := rfl
@[simp] theorem State.malformed_inputs (s : State) (op : Byte) (r : CmdReason) : (s.malformed op r).inputs = s.inputs := rfl

@[simp] theorem State.clearReasm_rx (s : State) : (s.clearReasm).rx = s.rx := rfl
@[simp] theorem State.clearReasm_pt (s : State) : (s.clearReasm).pt = s.pt := rfl
@[simp] theorem State.clearReasm_eng (s : State) : (s.clearReasm).eng = s.eng := rfl
@[simp] theorem State.clearReasm_reasm (s : State) : (s.clearReasm).reasm = { buf := [], len := 0 } := rfl
@[simp] theorem State.clearReasm_dev (s : State) : (s.clearReasm).dev = s.dev := rfl
@[simp] theorem State.clearReasm_out (s : State) : (s.clearReasm).out = s.out := rfl
@[simp] theorem State.clearReasm_now (s : State) : (s.clearReasm).now = s.now := rfl
@[simp] theorem State.clearReasm_inputs (s : State) : (s.clearReasm).inputs = s.inputs := rfl

@[simp] theorem State.appendReasm_rx (s : State) (data : Bytes) : (s.appendReasm data).rx = s.rx := rfl
@[simp] theorem State.appendReasm_pt (s : State) (data : Bytes) : (s.appendReasm data).pt = s.pt := rfl
@[simp] theorem State.appendReasm_eng (s : State) (data : Bytes) : (s.appendReasm data).eng = s.eng := rfl
@[simp] theorem State.appendReasm_reasm (s : State) (data : Bytes) : (s.appendReasm data).reasm = { buf := Memory.writeRange s.reasm.buf s.reasm.len data, len := s.reasm.len + data.length } := rfl
@[simp] theorem State.appendReasm_dev (s : State) (data : Bytes) : (s.appendReasm data).dev = s.dev := rfl
@[simp] theorem State.appendReasm_out (s : State) (data : Bytes) : (s.appendReasm data).out = s.out := rfl
@[simp] theorem State.appendReasm_now (s : State) (data : Bytes) : (s.appendReasm data).now = s.now := rfl
@[simp] theorem State.appendReasm_inputs (s : State) (data : Bytes) : (s.appendReasm data).inputs = s.inputs := rfl

@[simp] theorem State.resetAll_rx (s : State) : (s.resetAll).rx = Codec.fresh := rfl
@[simp] theorem State.resetAll_pt (s : State) : (s.resetAll).pt = Codec.fresh := rfl
@[simp] theorem State.resetAll_eng (s : State) : (s.resetAll).eng = Engine.reset := rfl
@[simp] theorem State.resetAll_reasm (s : State) : (s.resetAll).reasm = { buf := [], len := 0 } := rfl
@[simp] theorem State.resetAll_dev (s : State) : (s.resetAll).dev = { list := [] } := rfl
@[simp] theorem State.resetAll_out (s : State) : (s.resetAll).out = { tx := [], ev := [] } := rfl
@[simp] theorem State.resetAll_now (s : State) : (s.resetAll).now = s.now := rfl
@[simp] theorem State.resetAll_inputs (s : State) : (s.resetAll).inputs = s.inputs := rfl

/-! ### Updates that branch: one equation each, then their fields -/

/-- All that Complete does (R270). -/
theorem State.complete_eq (s : State) (ok : Bool) (e : Option LastError) :
    s.complete ok e =
      { s with
        eng := { s.eng with req := .idle, err := e.getD s.eng.err }
        out := { s.out with ev := s.out.ev ++ (completionEvent ok s.eng.req).toList } } := by
  cases e <;> cases h : s.eng.req <;> simp [State.complete, State.recordError, State.emitOpt, completionEvent, State.setReq, State.emit, h]

/-- All that a delivery does (R267). -/
theorem State.deliver_eq (s : State) (r : Option ParameterRecord) :
    s.deliver r = { s with out := { s.out with ev := s.out.ev ++ (r.map Event.param).toList } } := by
  cases r <;> simp [State.deliver, State.emitOpt, State.emit]

/-- All that storing a device does (R263). -/
theorem State.storeDevice_eq (s : State) (c : Config) (r : DeviceInfo) :
    s.storeDevice c r =
      { s with dev := { list := if s.dev.list.length < c.maxDevices.size then s.dev.list ++ [r] else s.dev.list } } := by
  by_cases h : s.dev.list.length < c.maxDevices.size <;> simp [State.storeDevice, DevList.hasRoom, h]

@[simp] theorem State.complete_rx (s : State) (ok : Bool) (e : Option LastError) : (s.complete ok e).rx = s.rx := by simp [State.complete_eq]
@[simp] theorem State.complete_pt (s : State) (ok : Bool) (e : Option LastError) : (s.complete ok e).pt = s.pt := by simp [State.complete_eq]
@[simp] theorem State.complete_eng (s : State) (ok : Bool) (e : Option LastError) : (s.complete ok e).eng = { s.eng with req := .idle, err := e.getD s.eng.err } := by simp [State.complete_eq]
@[simp] theorem State.complete_reasm (s : State) (ok : Bool) (e : Option LastError) : (s.complete ok e).reasm = s.reasm := by simp [State.complete_eq]
@[simp] theorem State.complete_dev (s : State) (ok : Bool) (e : Option LastError) : (s.complete ok e).dev = s.dev := by simp [State.complete_eq]
@[simp] theorem State.complete_out (s : State) (ok : Bool) (e : Option LastError) : (s.complete ok e).out = { s.out with ev := s.out.ev ++ (completionEvent ok s.eng.req).toList } := by simp [State.complete_eq]
@[simp] theorem State.complete_now (s : State) (ok : Bool) (e : Option LastError) : (s.complete ok e).now = s.now := by simp [State.complete_eq]
@[simp] theorem State.complete_inputs (s : State) (ok : Bool) (e : Option LastError) : (s.complete ok e).inputs = s.inputs := by simp [State.complete_eq]

@[simp] theorem State.deliver_rx (s : State) (r : Option ParameterRecord) : (s.deliver r).rx = s.rx := by simp [State.deliver_eq]
@[simp] theorem State.deliver_pt (s : State) (r : Option ParameterRecord) : (s.deliver r).pt = s.pt := by simp [State.deliver_eq]
@[simp] theorem State.deliver_eng (s : State) (r : Option ParameterRecord) : (s.deliver r).eng = s.eng := by simp [State.deliver_eq]
@[simp] theorem State.deliver_reasm (s : State) (r : Option ParameterRecord) : (s.deliver r).reasm = s.reasm := by simp [State.deliver_eq]
@[simp] theorem State.deliver_dev (s : State) (r : Option ParameterRecord) : (s.deliver r).dev = s.dev := by simp [State.deliver_eq]
@[simp] theorem State.deliver_out (s : State) (r : Option ParameterRecord) : (s.deliver r).out = { s.out with ev := s.out.ev ++ (r.map Event.param).toList } := by simp [State.deliver_eq]
@[simp] theorem State.deliver_now (s : State) (r : Option ParameterRecord) : (s.deliver r).now = s.now := by simp [State.deliver_eq]
@[simp] theorem State.deliver_inputs (s : State) (r : Option ParameterRecord) : (s.deliver r).inputs = s.inputs := by simp [State.deliver_eq]

@[simp] theorem State.storeDevice_rx (s : State) (c : Config) (r : DeviceInfo) : (s.storeDevice c r).rx = s.rx := by simp [State.storeDevice_eq]
@[simp] theorem State.storeDevice_pt (s : State) (c : Config) (r : DeviceInfo) : (s.storeDevice c r).pt = s.pt := by simp [State.storeDevice_eq]
@[simp] theorem State.storeDevice_eng (s : State) (c : Config) (r : DeviceInfo) : (s.storeDevice c r).eng = s.eng := by simp [State.storeDevice_eq]
@[simp] theorem State.storeDevice_reasm (s : State) (c : Config) (r : DeviceInfo) : (s.storeDevice c r).reasm = s.reasm := by simp [State.storeDevice_eq]
@[simp] theorem State.storeDevice_dev (s : State) (c : Config) (r : DeviceInfo) : (s.storeDevice c r).dev = { list := if s.dev.list.length < c.maxDevices.size then s.dev.list ++ [r] else s.dev.list } := by simp [State.storeDevice_eq]
@[simp] theorem State.storeDevice_out (s : State) (c : Config) (r : DeviceInfo) : (s.storeDevice c r).out = s.out := by simp [State.storeDevice_eq]
@[simp] theorem State.storeDevice_now (s : State) (c : Config) (r : DeviceInfo) : (s.storeDevice c r).now = s.now := by simp [State.storeDevice_eq]
@[simp] theorem State.storeDevice_inputs (s : State) (c : Config) (r : DeviceInfo) : (s.storeDevice c r).inputs = s.inputs := by simp [State.storeDevice_eq]

end Sys2Proof.Machine
end

