-- ==== Sys2Proof/Laws/Engine.lean ====
section
/-! SUPPORT. What the Protocol Engine's routines can do, said once each: the reassembly buffer, the handlers of R263 to R267, Route,
and the shape RX_BYTE and PT_BYTE give their results. -/

namespace Sys2Proof.Machine

/-! ### The reassembly buffer -/

@[simp] theorem startChunk_rx (s : State) : (startChunk s).rx = s.rx := by unfold startChunk; split <;> rfl
@[simp] theorem startChunk_pt (s : State) : (startChunk s).pt = s.pt := by unfold startChunk; split <;> rfl
@[simp] theorem startChunk_eng (s : State) : (startChunk s).eng = s.eng := by unfold startChunk; split <;> rfl
@[simp] theorem startChunk_dev (s : State) : (startChunk s).dev = s.dev := by unfold startChunk; split <;> rfl
@[simp] theorem startChunk_out (s : State) : (startChunk s).out = s.out := by unfold startChunk; split <;> rfl
@[simp] theorem startChunk_now (s : State) : (startChunk s).now = s.now := by unfold startChunk; split <;> rfl
@[simp] theorem startChunk_inputs (s : State) : (startChunk s).inputs = s.inputs := by unfold startChunk; split <;> rfl

theorem startChunk_reasm (s : State) :
    (startChunk s).reasm = if s.eng.curChunk = 0 then { buf := [], len := 0 } else s.reasm := by
  unfold startChunk; split <;> rfl

/-- The bytes held after a chunk is appended (R46, R265). -/
theorem appendReasm_bytes {s : State} {d : Bytes} (h : s.reasm.bytes = some d) (data : Bytes) :
    (s.appendReasm data).reasm.bytes = some (d ++ data) :=
  Memory.readRange_append h data

/-- The length of the bytes held. -/
theorem Reasm.bytes_length {r : Reasm} {d : Bytes} (h : r.bytes = some d) : d.length = r.len := Memory.readRange_length h

/-- A buffer that lists the bytes below its length reads whole. -/
theorem Reasm.bytes_isSome {r : Reasm} (h : Memory.addresses r.buf = List.range r.len) : ∃ d, r.bytes = some d :=
  Memory.readRange_isSome h 0 r.len (by omega)

/-! ### The handlers -/

/-- All that NextChunk does (R266). -/
theorem nextChunk_eq (s : State) :
    nextChunk s =
      { s with
        eng := { s.eng with curChunk := s.eng.curChunk + 1, lastActivity := s.now }
        out := { s.out with
          tx := s.out.tx ++ frameBytes typeParamRead s.eng.target addrSelf [s.eng.curParam, s.eng.curChunk + 1] } } := rfl

/-- All that LastChunk does after the delivery (R267, R268). -/
theorem advanceParam_eq (s : State) :
    advanceParam s =
      if s.eng.count ≤ s.eng.curParam then
        { s with
          eng := { s.eng with curParam := s.eng.curParam + 1, curChunk := 0, req := .idle }
          reasm := { buf := [], len := 0 }
          out := { s.out with ev := s.out.ev ++ (completionEvent true s.eng.req).toList } }
      else
        { s with
          eng := { s.eng with curParam := s.eng.curParam + 1, curChunk := 0, lastActivity := s.now }
          reasm := { buf := [], len := 0 }
          out := { s.out with
            tx := s.out.tx ++ frameBytes typeParamRead s.eng.target addrSelf [s.eng.curParam + 1, 0] } } := by
  unfold advanceParam lastParameter
  by_cases h : s.eng.count ≤ s.eng.curParam
  · simp only [h, decide_true, if_true, State.complete_eq]; rfl
  · simp only [h, decide_false, if_false]; rfl

/-- LastChunk where the record reads whole (R267). -/
theorem lastChunk_of_bytes {c : Config} {s : State} {d : Bytes} (h : s.reasm.bytes = some d) :
    lastChunk c s = .next (advanceParam (s.deliver (decodeParameter c s.eng.curParam d))) := by
  simp [lastChunk, h]

/-- AcceptChunk where the chunk would overflow (R265). -/
theorem acceptChunk_overflow {c : Config} {remaining : Byte} {data : Bytes} {s : State}
    (h : reasmCap < (startChunk s).reasm.len + data.length) :
    acceptChunk c remaining data s =
      .next ((startChunk s).complete false (some { code := .bufOverflow, param := s.eng.curParam })) := by
  have hw : wouldOverflow (startChunk s).reasm data.length = true := decide_eq_true h
  simp only [acceptChunk, hw, if_true, startChunk_eng]

/-- AcceptChunk with more chunks to come (R265). -/
theorem acceptChunk_next {c : Config} {remaining : Byte} {data : Bytes} {s : State}
    (h : (startChunk s).reasm.len + data.length ≤ reasmCap) (hr : remaining ≠ 0) :
    acceptChunk c remaining data s = .next (nextChunk ((startChunk s).appendReasm data).stamp) := by
  have hw : wouldOverflow (startChunk s).reasm data.length = false := decide_eq_false (by omega)
  simp only [acceptChunk, hw, Bool.false_eq_true, if_false, if_neg hr]

/-- AcceptChunk at the last chunk (R265). -/
theorem acceptChunk_last {c : Config} {data : Bytes} {s : State} (h : (startChunk s).reasm.len + data.length ≤ reasmCap) :
    acceptChunk c 0 data s = lastChunk c ((startChunk s).appendReasm data).stamp := by
  have hw : wouldOverflow (startChunk s).reasm data.length = false := decide_eq_false (by omega)
  simp only [acceptChunk, hw, Bool.false_eq_true, if_false, if_true]

/-- What AcceptChunk can do (R265): the overflow, the next chunk, or the last one. -/
theorem acceptChunk_cases {c : Config} {remaining : Byte} {data : Bytes} {s t : State}
    (h : acceptChunk c remaining data s = .next t) :
    (reasmCap < (startChunk s).reasm.len + data.length ∧
      t = (startChunk s).complete false (some { code := .bufOverflow, param := s.eng.curParam })) ∨
    ((startChunk s).reasm.len + data.length ≤ reasmCap ∧ remaining ≠ 0 ∧
      t = nextChunk ((startChunk s).appendReasm data).stamp) ∨
    ((startChunk s).reasm.len + data.length ≤ reasmCap ∧ remaining = 0 ∧
      lastChunk c ((startChunk s).appendReasm data).stamp = .next t) := by
  by_cases ho : reasmCap < (startChunk s).reasm.len + data.length
  · rw [acceptChunk_overflow ho] at h; cases h; exact .inl ⟨ho, rfl⟩
  · by_cases hr : remaining = 0
    · subst hr
      rw [acceptChunk_last (by omega)] at h; exact .inr (.inr ⟨by omega, rfl, h⟩)
    · rw [acceptChunk_next (by omega) hr] at h; cases h; exact .inr (.inl ⟨by omega, hr, rfl⟩)

/-- What LastChunk can do (R267). -/
theorem lastChunk_cases {c : Config} {s t : State} (h : lastChunk c s = .next t) :
    ∃ d, s.reasm.bytes = some d ∧ t = advanceParam (s.deliver (decodeParameter c s.eng.curParam d)) := by
  unfold lastChunk at h
  cases hd : s.reasm.bytes with
  | none => simp [hd] at h
  | some d => simp only [hd, Host.Outcome.next.injEq] at h; exact ⟨d, rfl, h.symm⟩

/-- What OnParamEntry can do (R264): nothing, or the chunk is accepted. -/
theorem onParamEntry_cases {c : Config} {o : Byte} {p : Bytes} {s : State} :
    onParamEntry c o p s = .next s ∨
      ∃ remaining data, p = s.eng.curParam :: remaining :: data ∧ o = s.eng.target ∧ s.eng.req = .reading ∧
        onParamEntry c o p s = acceptChunk c remaining data s := by
  unfold onParamEntry
  by_cases hr : s.eng.req = .reading
  · rw [if_pos hr]
    match p with
    | [] => exact .inl rfl
    | [_] => exact .inl rfl
    | pnum :: remaining :: data =>
      by_cases hm : o = s.eng.target ∧ pnum = s.eng.curParam
      · refine .inr ⟨remaining, data, ?_, hm.1, hr, ?_⟩
        · rw [hm.2]
        · simp [hm]
      · left; simp [hm]
  · simp [hr]

/-- What OnDeviceInfo can do (R263): nothing, or the record is stored where there is room and reported. -/
theorem onDeviceInfo_cases (c : Config) (o : Byte) (p : Bytes) (s : State) :
    onDeviceInfo c o p s = s ∨
      ∃ r, decodeDeviceInfo c o p = some r ∧ s.eng.req = .scanning ∧
        onDeviceInfo c o p s = (s.storeDevice c r).emit (.deviceFound r) := by
  unfold onDeviceInfo
  by_cases hr : s.eng.req = .scanning
  · rw [if_pos hr]
    cases hd : decodeDeviceInfo c o p with
    | none => exact .inl rfl
    | some r => exact .inr ⟨r, rfl, hr, rfl⟩
  · simp [hr]

/-- What the handler of a TYPE can do (R260, R262): nothing, DEVICE_INFO's handler or PARAM_ENTRY's. -/
theorem routeFrame_cases (c : Config) (f : Frame) (s : State) :
    routeFrame c f s = .next s ∨ routeFrame c f s = .next (onDeviceInfo c f.origin f.payload s) ∨
      routeFrame c f s = onParamEntry c f.origin f.payload s := by
  unfold routeFrame
  split
  · exact .inl rfl
  split
  · exact .inr (.inl rfl)
  split
  · exact .inr (.inr rfl)
  split
  · exact .inl rfl
  split <;> exact .inl rfl

/-- What Route can do (R260): nothing, DEVICE_INFO's handler or PARAM_ENTRY's. -/
theorem route_cases (c : Config) (f : Bytes) (s : State) :
    route c f s = .next s ∨ (∃ o p, route c f s = .next (onDeviceInfo c o p s)) ∨ ∃ o p, route c f s = onParamEntry c o p s := by
  cases hp : parseFrame f with
  | error e => left; simp [route, hp]
  | ok fr =>
    have hr : route c f s = routeFrame c fr s := by simp [route, hp]
    rw [hr]
    rcases routeFrame_cases c fr s with h | h | h
    · exact .inl h
    · exact .inr (.inl ⟨_, _, h⟩)
    · exact .inr (.inr ⟨_, _, h⟩)

/-! ### The handlers and the receive states -/

/-- `s` with other receive states. -/
def State.withCodecs (s : State) (u v : Codec) : State := { s with rx := u, pt := v }

theorem onDeviceInfo_withCodecs (c : Config) (o : Byte) (p : Bytes) (s : State) (u v : Codec) :
    onDeviceInfo c o p (s.withCodecs u v) = (onDeviceInfo c o p s).withCodecs u v := by
  unfold onDeviceInfo
  by_cases hr : s.eng.req = .scanning
  · rw [if_pos hr, if_pos (show (s.withCodecs u v).eng.req = .scanning from hr)]
    cases decodeDeviceInfo c o p with
    | none => rfl
    | some r =>
      simp only [State.storeDevice]
      by_cases hd : s.dev.hasRoom c = true
      · rw [if_pos hd, if_pos (show (s.withCodecs u v).dev.hasRoom c = true from hd)]; rfl
      · rw [if_neg hd, if_neg (show ¬ (s.withCodecs u v).dev.hasRoom c = true from hd)]; rfl
  · rw [if_neg hr, if_neg (show ¬ (s.withCodecs u v).eng.req = .scanning from hr)]

theorem advanceParam_withCodecs (s : State) (u v : Codec) :
    advanceParam (s.withCodecs u v) = (advanceParam s).withCodecs u v := by
  rw [advanceParam_eq, advanceParam_eq]
  by_cases h : s.eng.count ≤ s.eng.curParam
  · rw [if_pos h, if_pos (show (s.withCodecs u v).eng.count ≤ (s.withCodecs u v).eng.curParam from h)]; rfl
  · rw [if_neg h, if_neg (show ¬ (s.withCodecs u v).eng.count ≤ (s.withCodecs u v).eng.curParam from h)]; rfl

theorem deliver_withCodecs (r : Option ParameterRecord) (s : State) (u v : Codec) :
    (s.withCodecs u v).deliver r = (s.deliver r).withCodecs u v := by cases r <;> rfl

theorem startChunk_withCodecs (s : State) (u v : Codec) : startChunk (s.withCodecs u v) = (startChunk s).withCodecs u v := by
  unfold startChunk
  by_cases h : s.eng.curChunk = 0
  · rw [if_pos h, if_pos (show (s.withCodecs u v).eng.curChunk = 0 from h)]; rfl
  · rw [if_neg h, if_neg (show ¬ (s.withCodecs u v).eng.curChunk = 0 from h)]

theorem acceptChunk_withCodecs {c : Config} {remaining : Byte} {data : Bytes} {s t : State}
    (h : acceptChunk c remaining data s = .next t) (u v : Codec) :
    acceptChunk c remaining data (s.withCodecs u v) = .next (t.withCodecs u v) := by
  have he : (startChunk (s.withCodecs u v)).reasm = (startChunk s).reasm := by rw [startChunk_withCodecs]; rfl
  rcases acceptChunk_cases h with ⟨ho, rfl⟩ | ⟨ho, hr, rfl⟩ | ⟨ho, rfl, hl⟩
  · rw [acceptChunk_overflow (he ▸ ho), startChunk_withCodecs, State.complete_eq, State.complete_eq]; rfl
  · rw [acceptChunk_next (he ▸ ho) hr, startChunk_withCodecs]; rfl
  · obtain ⟨d, hd, rfl⟩ := lastChunk_cases hl
    rw [acceptChunk_last (he ▸ ho), startChunk_withCodecs,
      show (((startChunk s).withCodecs u v).appendReasm data).stamp = ((startChunk s).appendReasm data).stamp.withCodecs u v from rfl,
      lastChunk_of_bytes (s := ((startChunk s).appendReasm data).stamp.withCodecs u v) (d := d) hd, deliver_withCodecs, advanceParam_withCodecs]
    rfl

theorem onParamEntry_withCodecs {c : Config} {o : Byte} {p : Bytes} {s t : State} (h : onParamEntry c o p s = .next t)
    (u v : Codec) : onParamEntry c o p (s.withCodecs u v) = .next (t.withCodecs u v) := by
  unfold onParamEntry at h ⊢
  by_cases hr : s.eng.req = .reading
  · rw [if_pos hr] at h
    rw [if_pos (show (s.withCodecs u v).eng.req = .reading from hr)]
    match p, h with
    | [], h => cases h; rfl
    | [_], h => cases h; rfl
    | pnum :: remaining :: data, h =>
      simp only at h ⊢
      by_cases hm : o = s.eng.target ∧ pnum = s.eng.curParam
      · rw [if_pos hm] at h
        rw [if_pos (show o = (s.withCodecs u v).eng.target ∧ pnum = (s.withCodecs u v).eng.curParam from hm)]
        exact acceptChunk_withCodecs h u v
      · rw [if_neg hm] at h
        rw [if_neg (show ¬ (o = (s.withCodecs u v).eng.target ∧ pnum = (s.withCodecs u v).eng.curParam) from hm)]
        cases h; rfl
  · rw [if_neg hr] at h
    rw [if_neg (show ¬ (s.withCodecs u v).eng.req = .reading from hr)]
    cases h; rfl

/-- No handler reads a receive state or writes one (R260 to R267). -/
theorem routeFrame_withCodecs {c : Config} {f : Frame} {s t : State} (h : routeFrame c f s = .next t) (u v : Codec) :
    routeFrame c f (s.withCodecs u v) = .next (t.withCodecs u v) := by
  unfold routeFrame at h ⊢
  split at h
  · cases h; rw [if_pos ‹_›]; rfl
  rw [if_neg ‹_›]
  split at h
  · cases h; rw [if_pos ‹_›, onDeviceInfo_withCodecs]
  rw [if_neg ‹_›]
  split at h
  · rw [if_pos ‹_›]; exact onParamEntry_withCodecs h u v
  rw [if_neg ‹_›]
  split at h
  · cases h; rw [if_pos ‹_›]; rfl
  rw [if_neg ‹_›]
  split at h
  · cases h; rw [if_pos ‹_›]; rfl
  rw [if_neg ‹_›]
  cases h; rfl

/-- Route reads no receive state and writes none. -/
theorem route_withCodecs {c : Config} {f : Bytes} {s t : State} (h : route c f s = .next t) (u v : Codec) :
    route c f (s.withCodecs u v) = .next (t.withCodecs u v) := by
  unfold route at h ⊢
  cases hp : parseFrame f with
  | error e => simp only [hp] at h ⊢; cases h; rfl
  | ok fr => simp only [hp] at h ⊢; exact routeFrame_withCodecs h u v

/-! ### RX_BYTE and PT_BYTE -/

/-- RX_BYTE where no frame is completed (R231). -/
theorem rxByte_open {c : Config} {b : Byte} {s : State} {u : Codec} {n : Bool}
    (h : feed .rxbuf rxLenMin s.rx b = .ok ⟨u, false, n⟩) : rxByte c b s = .next { s with rx := u } := by
  simp [rxByte, h]

/-- RX_BYTE where a frame is completed (R231). -/
theorem rxByte_done {c : Config} {b : Byte} {s : State} {u : Codec} {n : Bool} {f : Bytes}
    (h : feed .rxbuf rxLenMin s.rx b = .ok ⟨u, true, n⟩) (hf : heldFrame .rxbuf u = .ok f) :
    rxByte c b s = thenResetRx (route c f { s with rx := u }) := by
  simp [rxByte, h, routeHeld, hf]

/-- PT_BYTE where no frame is completed (R165). -/
theorem execPtByte_open {b : Byte} {s : State} {u : Codec} {n : Bool} (h : feed .ptbuf ptLenMin s.pt b = .ok ⟨u, false, n⟩) :
    execPtByte b s = .next { s with pt := u } := by
  simp [execPtByte, h]

/-- PT_BYTE where a frame is completed (R165). -/
theorem execPtByte_done {b : Byte} {s : State} {u : Codec} {n : Bool} {f : Bytes} {t : Byte}
    (h : feed .ptbuf ptLenMin s.pt b = .ok ⟨u, true, n⟩) (hf : heldFrame .ptbuf u = .ok f)
    (ht : Memory.read u.buf 2 = some t) : execPtByte b s = .next ({ s with pt := u }.emit (.ptFrame f (isExtended t))) := by
  simp [execPtByte, h, reportFrame, hf, ht]

/-- What RX_BYTE can do (R231): no frame yet, or the frame routed and the codec reset. -/
theorem rxByte_cases {c : Config} {b : Byte} {s t : State} (h : rxByte c b s = .next t) :
    ∃ r, feed .rxbuf rxLenMin s.rx b = .ok r ∧
      ((r.done = false ∧ t = { s with rx := r.unit }) ∨
        (r.done = true ∧ ∃ f s', heldFrame .rxbuf r.unit = .ok f ∧ route c f { s with rx := r.unit } = .next s' ∧
          t = { s' with rx := Codec.fresh })) := by
  unfold rxByte at h
  cases hf : feed .rxbuf rxLenMin s.rx b with
  | error e => simp [hf] at h
  | ok r =>
    refine ⟨r, rfl, ?_⟩
    simp only [hf] at h
    cases hd : r.done with
    | false => simp only [hd, Bool.false_eq_true, if_false, Host.Outcome.next.injEq] at h; exact .inl ⟨rfl, h.symm⟩
    | true =>
      simp only [hd, if_true, routeHeld] at h
      cases hh : heldFrame .rxbuf r.unit with
      | error e => simp [hh] at h
      | ok f =>
        simp only [hh] at h
        cases ht : route c f { s with rx := r.unit } with
        | next s' =>
          simp only [ht, thenResetRx, Host.Outcome.next.injEq, resetCodec_eq] at h
          exact .inr ⟨rfl, f, s', rfl, ht, h.symm⟩
        | fault e => simp [ht, thenResetRx] at h
        | refused e => simp [ht, thenResetRx] at h

/-- What PT_BYTE can do (R165): no frame yet, or the frame reported. -/
theorem execPtByte_cases {b : Byte} {s t : State} (h : execPtByte b s = .next t) :
    ∃ r, feed .ptbuf ptLenMin s.pt b = .ok r ∧
      ((r.done = false ∧ t = { s with pt := r.unit }) ∨
        (r.done = true ∧ ∃ f ty, heldFrame .ptbuf r.unit = .ok f ∧ Memory.read r.unit.buf 2 = some ty ∧
          t = { s with pt := r.unit }.emit (.ptFrame f (isExtended ty)))) := by
  unfold execPtByte at h
  cases hf : feed .ptbuf ptLenMin s.pt b with
  | error e => simp [hf] at h
  | ok r =>
    refine ⟨r, rfl, ?_⟩
    simp only [hf] at h
    cases hd : r.done with
    | false => simp only [hd, Bool.false_eq_true, if_false, Host.Outcome.next.injEq] at h; exact .inl ⟨rfl, h.symm⟩
    | true =>
      simp only [hd, if_true, reportFrame] at h
      cases hh : heldFrame .ptbuf r.unit with
      | error e => simp [hh] at h
      | ok f =>
        cases hr : Memory.read r.unit.buf 2 with
        | none => simp [hh, hr] at h
        | some ty => simp only [hh, hr, Host.Outcome.next.injEq] at h; exact .inr ⟨rfl, f, ty, rfl, rfl, h.symm⟩

/-- All that TX_FRAME does, its frame being one that Encode gives (R155, R167). -/
theorem execTxFrame_eq (type dest origin : Byte) (p : Bytes) (s : State) :
    execTxFrame type dest origin p s =
      if txOperandsOk type p then .next (s.send (frameBytes type dest origin p)).stamp else .next (s.malformed 0x30 .badOperand) := by
  unfold execTxFrame
  split
  · rename_i h; rw [State.sendFrame_eq s dest origin h]
  · rfl

/-- All that WRITE_PARAM does, its frame being one that Encode gives (R155, R237). -/
theorem execWriteParam_eq (dev param : Byte) (v : Bytes) (s : State) :
    execWriteParam dev param v s =
      if writeOperandsOk v then
        if s.eng.req ≠ .idle then .next (s.emit (.writeDone false true))
        else
          .next (({ s with eng := { s.eng with req := .writing, wParam := param } }.send
            (frameBytes typeParamWrite dev addrSelf (param :: v))).stamp.complete true none)
      else .next (s.malformed 0x14 .badOperand) := by
  unfold execWriteParam
  split
  · rename_i h
    split
    · rfl
    · exact congrArg (fun u : State => Host.Outcome.next (u.complete true none)) (State.sendParamWrite_eq _ dev param h)
  · rfl

end Sys2Proof.Machine
end

