-- ==== Sys2Proof/Laws/Operands.lean ====
section
/-! SUPPORT. The laws of operand assembly: big-endian values, bounded strings, and what the tail readers of a record give where the
field fits, where it does not, and once `ok` is clear (R73, R180, R181). -/

namespace Sys2Proof.Machine

/-! ### Big-endian values -/

theorem beNat_one (x : Byte) : beNat [x] = x.toNat := by simp [beNat]

theorem beNat_be2 (x : BitVec 16) : beNat (be2 x) = x.toNat := by
  have := x.isLt
  simp [be2, beNat, Nat.shiftRight_eq_div_pow]; omega

theorem beNat_be4 (x : Word32) : beNat (be4 x) = x.toNat := by
  have := x.isLt
  simp [be4, beNat, Nat.shiftRight_eq_div_pow]; omega

@[simp] theorem be2_length (x : BitVec 16) : (be2 x).length = 2 := rfl
@[simp] theorem be4_length (x : Word32) : (be4 x).length = 4 := rfl

@[simp] theorem beU_one (x : Byte) : beU [x] = x.setWidth 32 := by simp [beU, beNat_one]
@[simp] theorem beU_be2 (x : BitVec 16) : beU (be2 x) = x.setWidth 32 := by simp [beU, beNat_be2]
@[simp] theorem beU_be4 (x : Word32) : beU (be4 x) = x := by simp [beU, beNat_be4]

/-- be_s of bytes whose value and length are known. -/
theorem beS_of {w : Nat} {bs : Bytes} {x : BitVec w} (hl : 8 * bs.length = w) (hv : beNat bs = x.toNat) :
    beS bs = x.signExtend 32 := by
  subst hl
  rw [beS, hv, BitVec.ofNat_toNat, BitVec.setWidth_eq]

@[simp] theorem beS_one (x : Byte) : beS [x] = x.signExtend 32 := beS_of rfl (beNat_one x)
@[simp] theorem beS_be2 (x : BitVec 16) : beS (be2 x) = x.signExtend 32 := beS_of rfl (beNat_be2 x)
@[simp] theorem beS_be4 (x : Word32) : beS (be4 x) = x := by
  rw [beS_of (w := 32) (x := x) rfl (beNat_be4 x)]
  exact BitVec.signExtend_eq x

/-! ### Strings -/

theorem ne_zero_of_text {text : Bytes} (h : 0 ∉ text) : ∀ b ∈ text, (b != 0) = true := by
  intro b hb
  rw [bne_iff_ne]
  rintro rfl
  exact h hb

theorem strBytes_append {text : Bytes} (h : 0 ∉ text) (rest : Bytes) : strBytes (text ++ 0 :: rest) = text := by
  rw [strBytes, List.takeWhile_append_of_pos (ne_zero_of_text h)]; simp

theorem strRest_append {text : Bytes} (h : 0 ∉ text) (rest : Bytes) : strRest (text ++ 0 :: rest) = rest := by
  rw [strRest, List.dropWhile_append_of_pos (ne_zero_of_text h)]; simp

theorem strBytes_text {text : Bytes} (h : 0 ∉ text) : strBytes text = text :=
  List.takeWhile_eq_self_iff.2 (ne_zero_of_text h)

theorem strRest_text {text : Bytes} (h : 0 ∉ text) : strRest text = [] := by
  rw [strRest, List.dropWhile_eq_nil_iff.2 (ne_zero_of_text h)]; rfl

/-- A terminated string (R180). -/
theorem bStr_append (cap : Capacity) {text : Bytes} (h : 0 ∉ text) (rest : Bytes) :
    bStr cap (text ++ 0 :: rest) = (text.take (cap.size - 1), rest) := by
  rw [bStr, strBytes_append h, strRest_append h]

/-- A string that the data end before its terminator (R180). -/
theorem bStr_text (cap : Capacity) {text : Bytes} (h : 0 ∉ text) : bStr cap text = (text.take (cap.size - 1), []) := by
  rw [bStr, strBytes_text h, strRest_text h]

@[simp] theorem bStr_nil (cap : Capacity) : bStr cap [] = ([], []) := by simp [bStr, strBytes, strRest]

/-- Splitting data at its first zero byte. -/
theorem exists_text {d : Bytes} (h : 0 ∈ d) : ∃ text rest, d = text ++ 0 :: rest ∧ 0 ∉ text := by
  induction d with
  | nil => simp at h
  | cons b d ih =>
    by_cases hb : b = 0
    · exact ⟨[], d, by rw [hb]; rfl, by simp⟩
    · obtain ⟨text, rest, rfl, ht⟩ := ih ((List.mem_cons.1 h).resolve_left fun e => hb e.symm)
      exact ⟨b :: text, rest, rfl, fun hm => (List.mem_cons.1 hm).elim (fun e => hb e.symm) ht⟩

/-! ### Tail readers -/

/-- Fld where the field fits (R181). -/
theorem fld_fits {w : Nat} {f : Bytes → Word32} {x rest : Bytes} (hx : x.length = w) :
    fld w f ⟨x ++ rest, true⟩ = (f x, ⟨rest, true⟩) := by
  subst hx
  simp [fld]

/-- Fld where the field does not fit (R181): zero, `ok` cleared, the cursor unchanged. -/
theorem fld_short {w : Nat} {f : Bytes → Word32} {rest : Bytes} (h : rest.length < w) :
    fld w f ⟨rest, true⟩ = (0, ⟨rest, false⟩) := by
  simp [fld, h]

/-- Fld once `ok` is clear (R181). -/
@[simp] theorem fld_failed (w : Nat) (f : Bytes → Word32) (rest : Bytes) : fld w f ⟨rest, false⟩ = (0, ⟨rest, false⟩) := by
  simp [fld]

@[simp] theorem fldU_one (x : Byte) (rest : Bytes) : fldU 1 ⟨x :: rest, true⟩ = (x.setWidth 32, ⟨rest, true⟩) := by
  rw [fldU, show x :: rest = [x] ++ rest from rfl, fld_fits (w := 1) (x := [x]) rfl, beU_one]

@[simp] theorem fldS_one (x : Byte) (rest : Bytes) : fldS 1 ⟨x :: rest, true⟩ = (x.signExtend 32, ⟨rest, true⟩) := by
  rw [fldS, show x :: rest = [x] ++ rest from rfl, fld_fits (w := 1) (x := [x]) rfl, beS_one]

@[simp] theorem fldU_be2 (x : BitVec 16) (rest : Bytes) : fldU 2 ⟨be2 x ++ rest, true⟩ = (x.setWidth 32, ⟨rest, true⟩) := by
  rw [fldU, fld_fits (w := 2) (x := be2 x) rfl, beU_be2]

@[simp] theorem fldS_be2 (x : BitVec 16) (rest : Bytes) : fldS 2 ⟨be2 x ++ rest, true⟩ = (x.signExtend 32, ⟨rest, true⟩) := by
  rw [fldS, fld_fits (w := 2) (x := be2 x) rfl, beS_be2]

@[simp] theorem fldU_be4 (x : Word32) (rest : Bytes) : fldU 4 ⟨be4 x ++ rest, true⟩ = (x, ⟨rest, true⟩) := by
  rw [fldU, fld_fits (w := 4) (x := be4 x) rfl, beU_be4]

@[simp] theorem fldS_be4 (x : Word32) (rest : Bytes) : fldS 4 ⟨be4 x ++ rest, true⟩ = (x, ⟨rest, true⟩) := by
  rw [fldS, fld_fits (w := 4) (x := be4 x) rfl, beS_be4]

@[simp] theorem fldByte_one (x : Byte) (rest : Bytes) : fldByte ⟨x :: rest, true⟩ = (x, ⟨rest, true⟩) := by
  rw [fldByte, fldU_one]
  simp

@[simp] theorem fldU_failed (w : Nat) (rest : Bytes) : fldU w ⟨rest, false⟩ = (0, ⟨rest, false⟩) := fld_failed w beU rest
@[simp] theorem fldS_failed (w : Nat) (rest : Bytes) : fldS w ⟨rest, false⟩ = (0, ⟨rest, false⟩) := fld_failed w beS rest
@[simp] theorem fldByte_failed (rest : Bytes) : fldByte ⟨rest, false⟩ = (0, ⟨rest, false⟩) := by
  rw [fldByte, fldU_failed]; rfl

theorem fldU_short {w : Nat} {rest : Bytes} (h : rest.length < w) : fldU w ⟨rest, true⟩ = (0, ⟨rest, false⟩) := fld_short h
theorem fldS_short {w : Nat} {rest : Bytes} (h : rest.length < w) : fldS w ⟨rest, true⟩ = (0, ⟨rest, false⟩) := fld_short h
@[simp] theorem fldByte_empty : fldByte ⟨[], true⟩ = (0, ⟨[], false⟩) := by
  rw [fldByte, fldU_short (by simp)]; rfl

/-- Str of a terminated string (R181). -/
theorem str_append (cap : Capacity) {text : Bytes} (h : 0 ∉ text) (rest : Bytes) :
    str cap ⟨text ++ 0 :: rest, true⟩ = (text.take (cap.size - 1), ⟨rest, true⟩) := by
  simp only [str, if_true, bStr_append cap h]

/-- A string ends at a zero byte or at the end of the data (R180). -/
theorem bStr_ending (cap : Capacity) {text ending : Bytes} (h : 0 ∉ text) (he : ending = [] ∨ ending.head? = some 0) :
    bStr cap (text ++ ending) = (text.take (cap.size - 1), ending.drop 1) := by
  match ending, he with
  | [], _ => rw [List.append_nil, bStr_text cap h]; rfl
  | e :: rest, he =>
    have : e = 0 := by simpa using he
    rw [this, bStr_append cap h]; rfl

/-- Str of a string that ends at a zero byte or at the record's end (R181). -/
theorem str_ending (cap : Capacity) {text ending : Bytes} (h : 0 ∉ text) (he : ending = [] ∨ ending.head? = some 0) :
    str cap ⟨text ++ ending, true⟩ = (text.take (cap.size - 1), ⟨ending.drop 1, true⟩) := by
  simp only [str, if_true, bStr_ending cap h he]

@[simp] theorem str_failed (cap : Capacity) (rest : Bytes) : str cap ⟨rest, false⟩ = ([], ⟨rest, false⟩) := by
  simp [str]

/-- The name of a record whose name is terminated (R192). -/
theorem readName_append (c : Config) {name : Bytes} (h : 0 ∉ name) (rest : Bytes) :
    readName c (name ++ 0 :: rest) = (name.take (c.capPName.size - 1), ⟨rest, true⟩) := by
  simp only [readName, bStr_append c.capPName h]

/-- The name of a record whose name ends at a zero byte or at the record's end (R192). -/
theorem readName_ending (c : Config) {name ending : Bytes} (h : 0 ∉ name) (he : ending = [] ∨ ending.head? = some 0) :
    readName c (name ++ ending) = (name.take (c.capPName.size - 1), ⟨ending.drop 1, true⟩) := by
  simp only [readName, bStr_ending c.capPName h he]

/-! ### The policy -/

@[simp] theorem truncate_ok (c : Config) (r : ParameterRecord) (rest : Bytes) : truncate c r ⟨rest, true⟩ = some r := rfl

/-- A tail that ends too early (R193). -/
theorem truncate_failed (c : Config) (r : ParameterRecord) (rest : Bytes) :
    truncate c r ⟨rest, false⟩ = if c.truncPolicy = .reject then none else some r := by
  cases h : c.truncPolicy <;> simp [truncate, h]

/-- The delivery of a record whose tail ended too early (R193, R267). -/
theorem deliver_truncate_failed (s : State) (r : ParameterRecord) (rest : Bytes) :
    s.deliver (truncate given r ⟨rest, false⟩) = s.deliverTruncated r := by
  rw [truncate_failed, show given.truncPolicy = Config.openTruncPolicy from rfl, State.deliverTruncated]
  by_cases h : Config.openTruncPolicy = .reject
  · rw [if_pos h, if_pos h]; rfl
  · rw [if_neg h, if_neg h]; rfl

end Sys2Proof.Machine
end

