-- ==== Sys2Proof/Laws/PerInstr.lean ====
section
/-! SUPPORT. The per-instruction statements: how many bytes each instruction's encoding has. -/

namespace Sys2Proof.Laws.EncodeSize

/-- The number of bytes of an instruction in its format: R120 and R121 for a command, R90 and R92 for a frame, R106 for a record. -/
def size : Instr → Nat
  | .tick | .startScan | .cancelScan | .cancelLoad | .ptConsume => 1
  | .rxByte _ | .ptByte _ => 2
  | .loadParams _ _ => 3
  | .writeParam _ _ v => 4 + v.length
  | .txFrame _ _ _ p => 5 + p.length
  | .devicePing _ _ p | .deviceInfo _ _ p | .paramEntry _ _ p | .paramRead _ _ p | .paramWrite _ _ p => p.length + 4 + 2
  | .uint8 _ _ b | .int8 _ _ b | .uint16 _ _ b | .int16 _ _ b | .uint32 _ _ b | .int32 _ _ b | .float _ _ b
  | .textSelection _ _ b | .string _ _ b | .folder _ _ b | .info _ _ b | .command _ _ b => 2 + b.length

/-- The encoding of a well-formed instruction has the length its format gives it. -/
def Statement (i : Instr) : Prop := i.wf = true → (encode i).length = size i

theorem rxByte (b : Byte) : Statement (.rxByte b) := fun _ => rfl
theorem tick : Statement .tick := fun _ => rfl
theorem startScan : Statement .startScan := fun _ => rfl
theorem cancelScan : Statement .cancelScan := fun _ => rfl
theorem loadParams (dev cnt : Byte) : Statement (.loadParams dev cnt) := fun _ => rfl
theorem cancelLoad : Statement .cancelLoad := fun _ => rfl
theorem writeParam (dev param : Byte) (v : Bytes) : Statement (.writeParam dev param v) := fun _ => by simp [encode, size]; omega
theorem ptByte (b : Byte) : Statement (.ptByte b) := fun _ => rfl
theorem ptConsume : Statement .ptConsume := fun _ => rfl
theorem txFrame (type dest origin : Byte) (p : Bytes) : Statement (.txFrame type dest origin p) := fun _ => by simp [encode, size]; omega
theorem devicePing (dest origin : Byte) (p : Bytes) : Statement (.devicePing dest origin p) := fun _ => frameBytes_length _ _ _ _
theorem deviceInfo (dest origin : Byte) (p : Bytes) : Statement (.deviceInfo dest origin p) := fun _ => frameBytes_length _ _ _ _
theorem paramEntry (dest origin : Byte) (p : Bytes) : Statement (.paramEntry dest origin p) := fun _ => frameBytes_length _ _ _ _
theorem paramRead (dest origin : Byte) (p : Bytes) : Statement (.paramRead dest origin p) := fun _ => frameBytes_length _ _ _ _
theorem paramWrite (dest origin : Byte) (p : Bytes) : Statement (.paramWrite dest origin p) := fun _ => frameBytes_length _ _ _ _
theorem uint8 (parent : Byte) (hidden : Bool) (body : Bytes) : Statement (.uint8 parent hidden body) :=
  fun _ => encodeRecord_length _ _ _ _
theorem int8 (parent : Byte) (hidden : Bool) (body : Bytes) : Statement (.int8 parent hidden body) :=
  fun _ => encodeRecord_length _ _ _ _
theorem uint16 (parent : Byte) (hidden : Bool) (body : Bytes) : Statement (.uint16 parent hidden body) :=
  fun _ => encodeRecord_length _ _ _ _
theorem int16 (parent : Byte) (hidden : Bool) (body : Bytes) : Statement (.int16 parent hidden body) :=
  fun _ => encodeRecord_length _ _ _ _
theorem uint32 (parent : Byte) (hidden : Bool) (body : Bytes) : Statement (.uint32 parent hidden body) :=
  fun _ => encodeRecord_length _ _ _ _
theorem int32 (parent : Byte) (hidden : Bool) (body : Bytes) : Statement (.int32 parent hidden body) :=
  fun _ => encodeRecord_length _ _ _ _
theorem float (parent : Byte) (hidden : Bool) (body : Bytes) : Statement (.float parent hidden body) :=
  fun _ => encodeRecord_length _ _ _ _
theorem textSelection (parent : Byte) (hidden : Bool) (body : Bytes) : Statement (.textSelection parent hidden body) :=
  fun _ => encodeRecord_length _ _ _ _
theorem string (parent : Byte) (hidden : Bool) (body : Bytes) : Statement (.string parent hidden body) :=
  fun _ => encodeRecord_length _ _ _ _
theorem folder (parent : Byte) (hidden : Bool) (body : Bytes) : Statement (.folder parent hidden body) :=
  fun _ => encodeRecord_length _ _ _ _
theorem info (parent : Byte) (hidden : Bool) (body : Bytes) : Statement (.info parent hidden body) :=
  fun _ => encodeRecord_length _ _ _ _
theorem command (parent : Byte) (hidden : Bool) (body : Bytes) : Statement (.command parent hidden body) :=
  fun _ => encodeRecord_length _ _ _ _

end Sys2Proof.Laws.EncodeSize
end

