-- ==== Sys2Proof/Laws/Step.lean ====
section
/-! SUPPORT. What the instructions and the step can do, said once: Route as the frame instructions, and what each instruction can
change. -/

namespace Sys2Proof.Machine

/-! ### Runs -/

/-- One step, then the rest of the run. -/
theorem run_succ {M : Host.Core} {k : Nat} {s t : M.State} (h : M.step s = .next t) : M.run (k + 1) s = M.run k t := by
  rw [Host.Core.run, h]

/-! ### Route and the frame instructions -/

/-- Route runs the instruction its frame decodes to (R97, R260). -/
theorem routeFrame_instr {f : Frame} {i : Instr} (h : frameInstr f = .ok i) (s : State) : routeFrame given f s = exec i s := by
  unfold frameInstr at h
  unfold routeFrame
  split at h
  · cases h; rw [if_pos ‹_›]; rfl
  rw [if_neg ‹_›]
  split at h
  · cases h; rw [if_pos ‹_›]; rfl
  rw [if_neg ‹_›]
  split at h
  · cases h; rw [if_pos ‹_›]; rfl
  rw [if_neg ‹_›]
  split at h
  · cases h; rw [if_pos ‹_›]; rfl
  rw [if_neg ‹_›]
  split at h
  · cases h; rw [if_pos ‹_›]; rfl
  · cases h

/-- A frame that is no instruction is ignored (R261, R262). -/
theorem routeFrame_other {f : Frame} {e : Reject} (c : Config) (h : frameInstr f = .error e) (s : State) :
    routeFrame c f s = .next s := by
  obtain ⟨-, h1, h2, h3, h4, h5⟩ := frameInstr_error h
  rw [routeFrame, if_neg h1, if_neg h2, if_neg h3, if_neg h4, if_neg h5]

theorem route_instr {f : Bytes} {i : Instr} (h : (parseFrame f).bind frameInstr = .ok i) (s : State) :
    route given f s = exec i s := by
  unfold route
  cases hp : parseFrame f with
  | error e => rw [hp] at h; cases h
  | ok fr => rw [hp] at h; exact routeFrame_instr h s

theorem route_other {f : Bytes} {e : Reject} (c : Config) (h : (parseFrame f).bind frameInstr = .error e) (s : State) :
    route c f s = .next s := by
  unfold route
  cases hp : parseFrame f with
  | error e => rfl
  | ok fr => rw [hp] at h; exact routeFrame_other c h s

/-- A handler's result has the receive states it began with. -/
theorem route_codecs {c : Config} {f : Bytes} {s t : State} (h : route c f s = .next t) : t.rx = s.rx ∧ t.pt = s.pt := by
  have e := route_withCodecs h s.rx s.pt
  rw [show s.withCodecs s.rx s.pt = s from rfl, h] at e
  rw [Host.Outcome.next.injEq] at e
  constructor <;> rw [e] <;> rfl

/-! ### What each handler leaves -/

/-- The result of an accepted PARAM_ENTRY (R264 to R268): the overflow, the next chunk, the next parameter, or the end of the load. -/
inductive EntryResult (c : Config) (s : State) : State → Prop where
  | overflow (data : Bytes) (h : reasmCap < (startChunk s).reasm.len + data.length) :
      EntryResult c s
        { s with
          reasm := (startChunk s).reasm
          eng := { s.eng with req := .idle, err := { code := .bufOverflow, param := s.eng.curParam } }
          out := { s.out with ev := s.out.ev ++ [.loadDone false] } }
  | nextChunk (data : Bytes) (h : (startChunk s).reasm.len + data.length ≤ reasmCap) :
      EntryResult c s
        { s with
          reasm := ((startChunk s).appendReasm data).reasm
          eng := { s.eng with curChunk := s.eng.curChunk + 1, lastActivity := s.now }
          out := { s.out with
            tx := s.out.tx ++ frameBytes typeParamRead s.eng.target addrSelf [s.eng.curParam, s.eng.curChunk + 1] } }
  | nextParam (d : Bytes) (h : s.eng.curParam < s.eng.count) :
      EntryResult c s
        { s with
          reasm := { buf := [], len := 0 }
          eng := { s.eng with curParam := s.eng.curParam + 1, curChunk := 0, lastActivity := s.now }
          out := { s.out with
            ev := s.out.ev ++ ((decodeParameter c s.eng.curParam d).map Event.param).toList
            tx := s.out.tx ++ frameBytes typeParamRead s.eng.target addrSelf [s.eng.curParam + 1, 0] } }
  | lastParam (d : Bytes) (h : s.eng.count ≤ s.eng.curParam) :
      EntryResult c s
        { s with
          reasm := { buf := [], len := 0 }
          eng := { s.eng with curParam := s.eng.curParam + 1, curChunk := 0, req := .idle, lastActivity := s.now }
          out := { s.out with
            ev := s.out.ev ++ ((decodeParameter c s.eng.curParam d).map Event.param).toList ++ [.loadDone true] } }

/-- All that AcceptChunk can leave (R265). -/
theorem acceptChunk_result {c : Config} {remaining : Byte} {data : Bytes} {s t : State} (hr : s.eng.req = .reading)
    (h : acceptChunk c remaining data s = .next t) : EntryResult c s t := by
  rcases acceptChunk_cases h with ⟨ho, rfl⟩ | ⟨ho, -, rfl⟩ | ⟨ho, rfl, hl⟩
  · have e : (startChunk s).complete false (some { code := .bufOverflow, param := s.eng.curParam }) = _ := State.complete_eq _ _ _
    rw [e]
    have := EntryResult.overflow (c := c) (s := s) data ho
    simpa [hr, completionEvent] using this
  · have := EntryResult.nextChunk (c := c) (s := s) data ho
    simpa [nextChunk_eq] using this
  · obtain ⟨d, hd, rfl⟩ := lastChunk_cases hl
    rw [State.deliver_eq, advanceParam_eq]
    by_cases hc : s.eng.count ≤ s.eng.curParam
    · have := EntryResult.lastParam (c := c) (s := s) d hc
      simpa [hc, hr, completionEvent] using this
    · have := EntryResult.nextParam (c := c) (s := s) d (BitVec.not_le.1 hc)
      simpa [hc] using this

/-- The result of a routed frame (R260): nothing changed, a device reported, or an accepted PARAM_ENTRY's result. -/
inductive HandlerResult (c : Config) (s : State) : State → Prop where
  | unchanged : HandlerResult c s s
  | device (h : s.eng.req = .scanning) (r : DeviceInfo) : HandlerResult c s ((s.storeDevice c r).emit (.deviceFound r))
  | entry {t : State} (h : s.eng.req = .reading) (e : EntryResult c s t) : HandlerResult c s t

theorem onDeviceInfo_result (c : Config) (o : Byte) (p : Bytes) (s : State) : HandlerResult c s (onDeviceInfo c o p s) := by
  rcases onDeviceInfo_cases c o p s with e | ⟨r, -, hr, e⟩
  · rw [e]; exact .unchanged
  · rw [e]; exact .device hr r

theorem onParamEntry_result {c : Config} {o : Byte} {p : Bytes} {s t : State} (h : onParamEntry c o p s = .next t) :
    HandlerResult c s t := by
  rcases onParamEntry_cases (c := c) (o := o) (p := p) (s := s) with e | ⟨remaining, data, -, -, hr, e⟩
  · rw [e] at h; cases h; exact .unchanged
  · rw [e] at h; exact .entry hr (acceptChunk_result hr h)

theorem route_result {c : Config} {f : Bytes} {s t : State} (h : route c f s = .next t) : HandlerResult c s t := by
  rcases route_cases c f s with e | ⟨o, p, e⟩ | ⟨o, p, e⟩
  · rw [h] at e; cases e; exact .unchanged
  · rw [h] at e; cases e; exact onDeviceInfo_result c o p s
  · rw [h] at e; exact onParamEntry_result e.symm

/-- All that RX_BYTE can leave (R231): a handler's result, with the codec's new receive state. -/
theorem rxByte_result {c : Config} {b : Byte} {s t : State} (h : rxByte c b s = .next t) :
    ∃ u s', HandlerResult c s s' ∧ t = { s' with rx := u } := by
  obtain ⟨r, -, ⟨-, rfl⟩ | ⟨-, f, s', -, hr, rfl⟩⟩ := rxByte_cases h
  · exact ⟨_, s, .unchanged, rfl⟩
  · have e := route_withCodecs hr s.rx s.pt
    have hp : s'.pt = s.pt := (route_codecs hr).2
    exact ⟨Codec.fresh, _, route_result e, by rw [State.withCodecs, ← hp]⟩

/-- All that PT_BYTE can leave (R165): the detector's new receive state, and at most one PT_FRAME. -/
theorem execPtByte_result {b : Byte} {s t : State} (h : execPtByte b s = .next t) :
    ∃ u es, t = { s with pt := u, out := { s.out with ev := s.out.ev ++ es } } ∧
      (es = [] ∨ ∃ f x, es = [.ptFrame f x]) := by
  obtain ⟨r, -, ⟨-, rfl⟩ | ⟨-, f, ty, -, -, rfl⟩⟩ := execPtByte_cases h
  · exact ⟨r.unit, [], by simp, .inl rfl⟩
  · exact ⟨r.unit, _, rfl, .inr ⟨_, _, rfl⟩⟩

end Sys2Proof.Machine
end

