-- ==== Sys2Proof/Tests/Slice0.lean ====
section
/-! SUPPORT. Tests: the checks of WellFormed, one word for each constructor's decoding, at most two results per instruction, and for
every obligation with hypotheses a state and operands that meet them. Expected values are the spec's (30_encoding.md,
95_test_vectors.md and the examples of the rules named). -/

set_option maxRecDepth 20000

namespace Sys2Proof.Machine

/-! ### Helpers -/

/-- The state a step goes on in. -/
def after : Host.Outcome State Fault Refusal → Option State
  | .next s => some s
  | _ => none

/-- The TV configuration (R14). -/
def tv : Config :=
  { scanTimeout := 1000, paramTimeout := 500, capDevName := ⟨15⟩, capPName := ⟨15⟩, capUnit := ⟨7⟩, capOptions := ⟨31⟩,
    capStrVal := ⟨15⟩, capInfo := ⟨15⟩, maxDevices := ⟨7⟩, kindCode := kindCodeDefault, truncPolicy := .partialRecord }

/-- The state after reset, at a time. -/
def at_ (t : Time) : State := { State.reset with now := t }

/-- A codec that holds the first bytes of a frame. -/
def holding (f : Bytes) : Codec := { state := .accum, buf := Memory.writeRange [] 0 f, count := f.length }

/-- A state whose engine codec holds the first bytes of a frame. -/
def rxHolding (f : Bytes) : State := { State.reset with rx := holding f }

/-- A state whose detector holds the first bytes of a frame. -/
def ptHolding (f : Bytes) : State := { State.reset with pt := holding f }

/-- A scan that began at time 0. -/
def scanning (t : Time) : State := { at_ t with eng := { Engine.reset with req := .scanning } }

/-- A load of `cnt` parameters from 0xEE, at parameter `p` and chunk `c`, with the bytes received so far. -/
def loading (cnt p c : Byte) (held : Bytes) : State :=
  { State.reset with
    eng := { Engine.reset with req := .reading, target := 0xEE, count := cnt, curParam := p, curChunk := c }
    reasm := { buf := Memory.writeRange [] 0 held, len := held.length } }

/-- A state with one input. -/
def presented (c : Bytes) : State := { State.reset with inputs := [⟨c, 7, false⟩] }

/-- A device descriptor. -/
def rec_ : DeviceInfo := ⟨0xEE, [0x54, 0x58, 0x31, 0x36], 0x12345678, 1, 0x00030201, 12, 1, true⟩

/-! ### WellFormed refuses -/

/-- R122: n ≤ 57. -/
theorem test_wf_write_58 : Instr.wf (.writeParam 0xEE 0x01 (List.replicate 58 0x00)) = false := by decide
/-- R122: type ≥ 0x28. -/
theorem test_wf_tx_type : Instr.wf (.txFrame 0x27 0x00 0xEA []) = false := by decide
/-- R122: n ≤ 58. -/
theorem test_wf_tx_59 : Instr.wf (.txFrame 0x28 0x00 0xEA (List.replicate 59 0x00)) = false := by decide
/-- R92: n ≤ 58. -/
theorem test_wf_frame_59 : Instr.wf (.deviceInfo 0xEA 0xEE (List.replicate 59 0x00)) = false := by decide
/-- R189: at least 3 bytes. -/
theorem test_wf_record_2 : Instr.wf (.folder 0x00 false []) = false := by decide

/-! ### Words written out from the encodings of R92, R106, R107 and R120 -/

theorem test_decode_rxByte : decode .hostCmd [0x01, 0xC8] = .ok (.rxByte 0xC8) := by decide
theorem test_decode_tick : decode .hostCmd [0x02] = .ok (.tick) := by decide
theorem test_decode_startScan : decode .hostCmd [0x10] = .ok (.startScan) := by decide
theorem test_decode_cancelScan : decode .hostCmd [0x11] = .ok (.cancelScan) := by decide
theorem test_decode_loadParams : decode .hostCmd [0x12, 0xEE, 0x02] = .ok (.loadParams 0xEE 0x02) := by decide
theorem test_decode_cancelLoad : decode .hostCmd [0x13] = .ok (.cancelLoad) := by decide
theorem test_decode_writeParam : decode .hostCmd [0x14, 0xEE, 0x03, 0x02, 0x05, 0x06] = .ok (.writeParam 0xEE 0x03 [0x05, 0x06]) := by decide
theorem test_decode_ptByte : decode .hostCmd [0x20, 0xC8] = .ok (.ptByte 0xC8) := by decide
theorem test_decode_ptConsume : decode .hostCmd [0x21] = .ok (.ptConsume) := by decide
theorem test_decode_txFrame : decode .hostCmd [0x30, 0x2D, 0xEE, 0xEA, 0x02, 0x03, 0x05] = .ok (.txFrame 0x2D 0xEE 0xEA [0x03, 0x05]) := by decide
theorem test_decode_devicePing : decode .frameType [0xC8, 0x04, 0x28, 0x00, 0xEA, 0x54] = .ok (.devicePing 0x00 0xEA []) := by decide
theorem test_decode_deviceInfo : decode .frameType [0xC8, 0x14, 0x29, 0xEA, 0xEE, 0x41, 0x00, 0x00, 0x00, 0x00, 0x00, 0x00, 0x00, 0x00, 0x00, 0x00, 0x00, 0x00, 0x00, 0x00, 0x00, 0xD7] = .ok (.deviceInfo 0xEA 0xEE [0x41, 0, 0, 0, 0, 0, 0, 0, 0, 0, 0, 0, 0, 0, 0, 0]) := by decide
theorem test_decode_paramEntry : decode .frameType [0xC8, 0x08, 0x2B, 0xEA, 0xEE, 0x05, 0x00, 0x01, 0x02, 0xDA] = .ok (.paramEntry 0xEA 0xEE [0x05, 0x00, 0x01, 0x02]) := by decide
theorem test_decode_paramRead : decode .frameType [0xC8, 0x06, 0x2C, 0xEE, 0xEA, 0x01, 0x00, 0x86] = .ok (.paramRead 0xEE 0xEA [0x01, 0x00]) := by decide
theorem test_decode_paramWrite : decode .frameType [0xC8, 0x06, 0x2D, 0xEE, 0xEA, 0x03, 0x05, 0x0D] = .ok (.paramWrite 0xEE 0xEA [0x03, 0x05]) := by decide
theorem test_decode_uint8 : decode .paramKind [0x07, 0x00, 0x41, 0x00] = .ok (.uint8 0x07 false [0x41, 0x00]) := by decide
theorem test_decode_int8 : decode .paramKind [0x07, 0x01, 0x41, 0x00] = .ok (.int8 0x07 false [0x41, 0x00]) := by decide
theorem test_decode_uint16 : decode .paramKind [0x07, 0x02, 0x41, 0x00] = .ok (.uint16 0x07 false [0x41, 0x00]) := by decide
theorem test_decode_int16 : decode .paramKind [0x07, 0x03, 0x41, 0x00] = .ok (.int16 0x07 false [0x41, 0x00]) := by decide
theorem test_decode_uint32 : decode .paramKind [0x07, 0x04, 0x41, 0x00] = .ok (.uint32 0x07 false [0x41, 0x00]) := by decide
theorem test_decode_int32 : decode .paramKind [0x07, 0x05, 0x41, 0x00] = .ok (.int32 0x07 false [0x41, 0x00]) := by decide
theorem test_decode_float : decode .paramKind [0x07, 0x08, 0x41, 0x00] = .ok (.float 0x07 false [0x41, 0x00]) := by decide
theorem test_decode_textSelection : decode .paramKind [0x07, 0x09, 0x41, 0x00] = .ok (.textSelection 0x07 false [0x41, 0x00]) := by decide
theorem test_decode_string : decode .paramKind [0x07, 0x0A, 0x41, 0x00] = .ok (.string 0x07 false [0x41, 0x00]) := by decide
theorem test_decode_folder : decode .paramKind [0x07, 0x0B, 0x41, 0x00] = .ok (.folder 0x07 false [0x41, 0x00]) := by decide
theorem test_decode_info : decode .paramKind [0x07, 0x0C, 0x41, 0x00] = .ok (.info 0x07 false [0x41, 0x00]) := by decide
theorem test_decode_command : decode .paramKind [0x07, 0x0D, 0x41, 0x00] = .ok (.command 0x07 false [0x41, 0x00]) := by decide
/-- R107: bit 7 is the hidden flag, bit 6 is ignored. -/
theorem test_decode_hidden : decode .paramKind [0x00, 0xC0, 0x41] = .ok (.uint8 0x00 true [0x41]) := by decide
/-- R191's examples. -/
theorem test_decode_reserved_kinds : decode .paramKind [0x00, 0x06, 0x41, 0x00, 0x01] = .error .unknownKind ∧ decode .paramKind [0x00, 0x3F, 0x41, 0x00] = .error .unknownKind := by decide
/-- R238's examples. -/
theorem test_decode_malformed : decode .hostCmd [0x03] = .error (.command .unknownOpcode) ∧ decode .hostCmd [0x12, 0xEE] = .error (.command .badLength) ∧
    malformedReason [0x30, 0x10, 0x00, 0xEA, 0x00] = some .badOperand := by decide
/-- The three spaces of a table word (log 13). -/
theorem test_table_words : decodeTableWord 8 0x10 = some .startScan ∧ decodeTableWord 8 0x28 = some (.devicePing 0x00 0x00 []) ∧
    decodeTableWord 6 0x0B = some (.folder 0x00 false (List.replicate 23 0x00)) := by decide

/-! ### The CRC and the codec -/

/-- CR6, CR9, CR10. -/
theorem test_crc : crc8 [0x10] = 0x52 ∧ crc8 [0x2C, 0xEE, 0xEA, 0x01, 0x00] = 0x86 ∧ crc8 [0x2D, 0xEE, 0xEA, 0x03, 0x05] = 0x0D := by decide
/-- R144: the byte after SYNC is the length byte, even when it is 0xC8. -/
theorem test_codec_double_sync : feedAll .rxbuf 1 Codec.fresh [0xC8, 0xC8] = .ok (Codec.fresh, [false, false]) := by decide
/-- FD6. -/
theorem test_codec_shortest : (feedAll .rxbuf 1 Codec.fresh [0xC8, 0x01, 0x00]).toOption.map Prod.snd = some [false, false, true] := by decide

/-! ### Host commands -/

/-- R231's example. -/
theorem test_rxByte_ping_ignored : after (exec (.rxByte 0x54) (rxHolding [0xC8, 0x04, 0x28, 0x00, 0xEA])) = some State.reset := by decide
/-- FD2. -/
theorem test_rxByte_bad_crc : after (exec (.rxByte 0x55) (rxHolding [0xC8, 0x04, 0x28, 0x00, 0xEA])) = some State.reset := by decide
/-- P1: one unit before the window ends. -/
theorem test_tick_before : tick tv (scanning 999) = scanning 999 := by decide
/-- P1: the window ends. -/
theorem test_tick_at : (tick tv (scanning 1000)).out.ev = [.scanDone true false] ∧ (tick tv (scanning 1000)).eng.req = .idle := by decide
/-- R233's example. -/
theorem test_startScan : (after (exec .startScan (at_ 6))).map (fun s => (s.out.tx, s.eng.scanStart, s.eng.req)) =
    some ([0xC8, 0x04, 0x28, 0x00, 0xEA, 0x54], 6, .scanning) := by decide
/-- R233's example. -/
theorem test_startScan_busy : (after (exec .startScan (scanning 6))).map (fun s => (s.out.tx, s.out.ev)) = some ([], [.scanDone false true]) := by decide
/-- R234's example. -/
theorem test_cancelScan : (after (exec .cancelScan (scanning 7))).map (fun s => (s.eng.req, s.out.ev)) = some (.idle, []) := by decide
/-- P5. -/
theorem test_loadParams : (after (exec (.loadParams 0xEE 0x02) (at_ 0))).map (fun s => s.out.tx) =
    some [0xC8, 0x06, 0x2C, 0xEE, 0xEA, 0x01, 0x00, 0x86] := by decide
/-- R235: a count of 0. -/
theorem test_loadParams_none : (after (exec (.loadParams 0xEE 0x00) (at_ 0))).map (fun s => (s.out.tx, s.out.ev, s.eng.req)) =
    some ([], [.loadDone true], .idle) := by decide
/-- R236's example. -/
theorem test_cancelLoad : (after (exec .cancelLoad (loading 2 1 0 []))).map (fun s => (s.eng.req, s.out.ev)) = some (.idle, []) := by decide
/-- R237's example. -/
theorem test_writeParam : (after (exec (.writeParam 0xEE 0x03 [0x05]) (at_ 8))).map (fun s => (s.out.tx, s.out.ev, s.eng.lastActivity)) =
    some ([0xC8, 0x06, 0x2D, 0xEE, 0xEA, 0x03, 0x05, 0x0D], [.writeDone true false], 8) := by decide
/-- R237's example. -/
theorem test_writeParam_busy : (after (exec (.writeParam 0xEE 0x03 [0x05]) (scanning 5))).map (fun s => (s.out.tx, s.out.ev)) = some ([], [.writeDone false true]) := by decide
/-- R165's example. -/
theorem test_ptByte : (after (exec (.ptByte 0x14) (ptHolding [0xC8, 0x03, 0x10, 0x20]))).map (fun s => (s.out.ev, s.pt.state)) =
    some ([.ptFrame [0xC8, 0x03, 0x10, 0x20, 0x14] false], .complete) := by decide
/-- FD14: LEN 2 is rejected by the detector. -/
theorem test_ptByte_short : after (exec (.ptByte 0x02) { State.reset with pt := { state := .awaitLen, buf := [(0, 0xC8)], count := 1 } }) = some State.reset := by decide
/-- R166. -/
theorem test_ptConsume : after (exec .ptConsume { State.reset with pt := { holding [0xC8, 0x03, 0x10, 0x20, 0x14] with state := .complete } }) = some State.reset := by decide
/-- R167's example. -/
theorem test_txFrame : (after (exec (.txFrame 0x2D 0xEE 0xEA [0x03, 0x05]) (at_ 9))).map (fun s => (s.out.tx, s.eng.lastActivity)) =
    some ([0xC8, 0x06, 0x2D, 0xEE, 0xEA, 0x03, 0x05, 0x0D], 9) := by decide
/-- R238's example. -/
theorem test_txFrame_type : (after (exec (.txFrame 0x10 0x00 0xEA []) (at_ 9))).map (fun s => (s.out.tx, s.out.ev)) = some ([], [.cmdError 0x30 .badOperand]) := by decide

/-! ### Received frames -/

/-- R263's example. -/
theorem test_deviceInfo : onDeviceInfo tv 0xEE [0x54, 0x58, 0x31, 0x36, 0x00, 0x12, 0x34, 0x56, 0x78, 0x00, 0x00, 0x00, 0x01, 0x00, 0x03, 0x02, 0x01, 0x0C, 0x01] (scanning 100) =
    { scanning 100 with dev := { list := [rec_] }, out := { tx := [], ev := [.deviceFound rec_] } } := by decide
/-- R186's example. -/
theorem test_deviceInfo_short : decodeDeviceInfo tv 0xEE ([0x54, 0x58, 0x31, 0x36, 0x00, 0x12, 0x34, 0x56, 0x78, 0x00, 0x00, 0x00, 0x01, 0x00, 0x03, 0x02, 0x01, 0x0C, 0x01].take 18) = none := by decide
/-- R266's example. -/
theorem test_paramEntry_next : (after (onParamEntry tv 0xEE [0x01, 0x01, 0x00, 0x02, 0x50, 0x77, 0x72, 0x00, 0x01, 0xF4, 0x00] (loading 2 1 0 []))).map (fun s => (s.out.tx, s.reasm.len)) =
    some ([0xC8, 0x06, 0x2C, 0xEE, 0xEA, 0x01, 0x01, 0x53], 9) := by decide
/-- R267's example. -/
theorem test_paramEntry_last : (after (onParamEntry tv 0xEE [0x01, 0x00, 0x00, 0x03, 0xE8, 0x00, 0x64, 0x6D, 0x57, 0x00] (loading 2 1 1 [0x00, 0x02, 0x50, 0x77, 0x72, 0x00, 0x01, 0xF4, 0x00]))).map
      (fun s => (s.out.tx, s.out.ev)) =
    some ([0xC8, 0x06, 0x2C, 0xEE, 0xEA, 0x02, 0x00, 0x9B],
      [.param { zeroRecord .uint16 1 0 false [0x50, 0x77, 0x72] with cur := 500, min := 0, max := 1000, dflt := 100, unit := [0x6D, 0x57] }]) := by decide
/-- R262. -/
theorem test_sent_types_ignored : after (exec (.devicePing 0x00 0xEC []) (scanning 3)) = some (scanning 3) ∧ after (exec (.paramRead 0xEA 0xEC []) (scanning 3)) = some (scanning 3) ∧
    after (exec (.paramWrite 0xEA 0xEC []) (scanning 3)) = some (scanning 3) := by decide

/-! ### Parameter kinds: the examples of R195 to R208 -/

/-- R195's example. -/
theorem test_uint8 : decodeParameter tv 1 [0x00, 0x00, 0x52, 0x61, 0x74, 0x65, 0x00, 0x05, 0x00, 0x0A, 0x03, 0x48, 0x7A, 0x00] =
    some { zeroRecord .uint8 1 0 false [0x52, 0x61, 0x74, 0x65] with
        cur := 5, min := 0, max := 10, dflt := 3, unit := [0x48, 0x7A] } := by decide
/-- R196's example. -/
theorem test_int8 : decodeParameter tv 1 [0x01, 0x01, 0x54, 0x72, 0x69, 0x6D, 0x00, 0xFE, 0x80, 0x7F, 0x00, 0x00] =
    some { zeroRecord .int8 1 1 false [0x54, 0x72, 0x69, 0x6D] with
        cur := -2, min := -128, max := 127, dflt := 0 } := by decide
/-- R197's example. -/
theorem test_uint16 : decodeParameter tv 1 [0x00, 0x02, 0x50, 0x77, 0x72, 0x00, 0x01, 0xF4, 0x00, 0x00, 0x03, 0xE8, 0x00, 0x64, 0x6D, 0x57, 0x00] =
    some { zeroRecord .uint16 1 0 false [0x50, 0x77, 0x72] with
        cur := 500, min := 0, max := 1000, dflt := 100, unit := [0x6D, 0x57] } := by decide
/-- R198's example. -/
theorem test_int16 : decodeParameter tv 1 [0x00, 0x03, 0x4F, 0x66, 0x73, 0x00, 0xFF, 0x38, 0x80, 0x00, 0x7F, 0xFF, 0x00, 0x00, 0x00] =
    some { zeroRecord .int16 1 0 false [0x4F, 0x66, 0x73] with
        cur := -200, min := -32768, max := 32767, dflt := 0 } := by decide
/-- R199's example. -/
theorem test_uint32 : decodeParameter tv 1 [0x00, 0x04, 0x53, 0x65, 0x72, 0x00, 0xFF, 0xFF, 0xFF, 0xFF, 0x00, 0x00, 0x00, 0x00, 0x80, 0x00, 0x00, 0x00, 0x00, 0x00, 0x00, 0x01, 0x00] =
    some { zeroRecord .uint32 1 0 false [0x53, 0x65, 0x72] with
        cur := 0xFFFFFFFF, min := 0, max := 0x80000000, dflt := 1 } := by decide
/-- R200's example. -/
theorem test_int32 : decodeParameter tv 1 [0x00, 0x05, 0x58, 0x00, 0xFF, 0xFF, 0xFF, 0xFF, 0x80, 0x00, 0x00, 0x00, 0x7F, 0xFF, 0xFF, 0xFF, 0x00, 0x00, 0x00, 0x00, 0x75, 0x00] =
    some { zeroRecord .int32 1 0 false [0x58] with
        cur := -1, min := -2147483648, max := 2147483647, dflt := 0, unit := [0x75] } := by decide
/-- R202's example. -/
theorem test_float : decodeParameter tv 1 [0x00, 0x08, 0x47, 0x61, 0x69, 0x6E, 0x00, 0x00, 0x00, 0x05, 0xDC, 0x00, 0x00, 0x00, 0x00, 0x00, 0x00, 0x27, 0x10, 0x00, 0x00, 0x03, 0xE8, 0x02, 0x00, 0x00, 0x00, 0x19, 0x64, 0x42, 0x00] =
    some { zeroRecord .float 1 0 false [0x47, 0x61, 0x69, 0x6E] with
        fcur := ⟨1500, 2⟩, fmin := ⟨0, 2⟩, fmax := ⟨10000, 2⟩, fdef := ⟨1000, 2⟩, fstep := ⟨25, 2⟩, dp := 2, unit := [0x64, 0x42] } := by decide
/-- R204's example. -/
theorem test_textSelection : decodeParameter tv 1 [0x02, 0x09, 0x4D, 0x6F, 0x64, 0x65, 0x00, 0x35, 0x30, 0x48, 0x7A, 0x3B, 0x31, 0x35, 0x30, 0x48, 0x7A, 0x3B, 0x35, 0x30, 0x30, 0x48, 0x7A, 0x00, 0x01, 0x00, 0x02, 0x00, 0x00] =
    some { zeroRecord .textSelection 1 2 false [0x4D, 0x6F, 0x64, 0x65] with
        options := [0x35, 0x30, 0x48, 0x7A, 0x3B, 0x31, 0x35, 0x30, 0x48, 0x7A, 0x3B, 0x35, 0x30, 0x30, 0x48, 0x7A], cur := 1, min := 0, max := 2, dflt := 0 } := by decide
/-- R205's example. -/
theorem test_string : decodeParameter tv 1 [0x00, 0x0A, 0x49, 0x64, 0x00, 0x61, 0x62, 0x63, 0x00, 0x10] =
    some { zeroRecord .string 1 0 false [0x49, 0x64] with
        value := [0x61, 0x62, 0x63], maxlen := 16 } := by decide
/-- R206's example. -/
theorem test_folder : decodeParameter tv 1 [0x00, 0x8B, 0x43, 0x66, 0x67, 0x00] =
    some (zeroRecord .folder 1 0 true [0x43, 0x66, 0x67]) := by decide
/-- R207's example. -/
theorem test_info : decodeParameter tv 1 [0x03, 0x0C, 0x56, 0x65, 0x72, 0x00, 0x33, 0x2E, 0x32, 0x2E, 0x31, 0x00] =
    some { zeroRecord .info 1 3 false [0x56, 0x65, 0x72] with
        info := [0x33, 0x2E, 0x32, 0x2E, 0x31] } := by decide
/-- R208's example. -/
theorem test_command : decodeParameter tv 1 [0x00, 0x0D, 0x42, 0x69, 0x6E, 0x64, 0x00, 0x00, 0xC8, 0x52, 0x65, 0x61, 0x64, 0x79, 0x00] =
    some { zeroRecord .command 1 0 false [0x42, 0x69, 0x6E, 0x64] with
        status := 0, timeout := 200, info := [0x52, 0x65, 0x61, 0x64, 0x79] } := by decide
/-- R197's corner case, under both policies. -/
theorem test_uint16_short : decodeParameter tv 1 [0x00, 0x02, 0x50, 0x00, 0x01, 0xF4, 0x00] =
    some { zeroRecord .uint16 1 0 false [0x50] with cur := 500 } ∧
    decodeParameter { tv with truncPolicy := .reject } 1 [0x00, 0x02, 0x50, 0x00, 0x01, 0xF4, 0x00] = none := by decide
/-- R209: a name longer than the capacity. -/
theorem test_folder_long_name : decodeParameter tv 1 ([0x00, 0x0B] ++ List.replicate 20 0x41 ++ [0x00]) =
    some (zeroRecord .folder 1 0 false (List.replicate 15 0x41)) := by decide

/-! ### The assembler (R123, R124) -/

theorem test_encode_refuses : (encodeFrame 0x28 0x00 0xEA (List.replicate 58 0)).isSome = true ∧ encodeFrame 0x28 0x00 0xEA (List.replicate 59 0) = none := by decide
theorem test_rxf_refused : asmOp ['R', 'X', 'F'] [0x28, 0x00, 0xEA] (some (List.replicate 59 0)) = none := by decide
theorem test_assemble : assemble 0 [['@', '5', ' ', 'P', 'T', 'C', ' ', ';', ' ', 'x'],
      ['R', 'X', 'S', ' ', '[', '1', ',', '0', 'x', '2', ']']] =
    some [⟨[0x21], 5, false⟩, ⟨[0x01, 0x01], 5, false⟩, ⟨[0x01, 0x02], 5, false⟩] := by decide

/-! ### The step (R230) and a placed instruction (log 14) -/

/-- R230: an empty command. -/
theorem test_step_malformed : (after (step (presented []))).map (fun s => s.out.ev) = some [.cmdError 0x00 .unknownOpcode] := by decide
/-- R340. -/
theorem test_step_reset : after (step { scanning 3 with inputs := [⟨[0x02], 9, true⟩] }) = some (at_ 3) := by decide
theorem test_step_placed_command : (after (step (State.reset.withFetchWord 8 0x10))).map (fun s => s.eng.req) = some .scanning := by decide
theorem test_step_placed_frame : after (step (State.reset.withFetchWord 8 0x28)) = some State.reset := by decide
theorem test_step_placed_record : (after (step (State.reset.withFetchWord 6 0x08))).map (fun s => s.eng.req) = some .idle := by decide

/-! ### Witnesses: states and operands that meet the hypotheses of each obligation -/

theorem witness_DecodeEncodeRoundTrip :
    Instr.wf (.writeParam 0xEE 0x01 (List.replicate 57 0xFF)) = true ∧ Instr.wf (.txFrame 0x28 0x00 0xEA (List.replicate 58 0xFF)) = true ∧
      Instr.wf (.paramEntry 0xEA 0xEE (List.replicate 58 0xFF)) = true ∧ Instr.wf (.float 0x00 true [0x00]) = true := by decide
theorem witness_EncodeDecodeRoundTrip :
    decode .hostCmd [0x14, 0xEE, 0x03, 0x00] = .ok (.writeParam 0xEE 0x03 []) ∧
      decode .frameType [0xC8, 0x04, 0x28, 0x00, 0xEA, 0x54] = .ok (.devicePing 0x00 0xEA []) ∧
      decode .paramKind ([0x00, 0x8B] ++ [0x41]) = .ok (.folder 0x00 true [0x41]) ∧ (0x8B : Byte).getLsbD 6 = false := by decide
theorem witness_MalformedReasons :
    malformedReason ([0x14, 0xEE, 0x01, 57] ++ List.replicate 57 0x00) = none ∧
      malformedReason ([0x14, 0xEE, 0x01, 58] ++ List.replicate 58 0x00) = some .badOperand ∧
      malformedReason ([0x30, 0x28, 0x00, 0xEA, 58] ++ List.replicate 58 0x00) = none ∧
      malformedReason ([0x30, 0x28, 0x00, 0xEA, 59] ++ List.replicate 59 0x00) = some .badOperand ∧
      malformedReason [0x30, 0x27, 0x00, 0xEA, 0] = some .badOperand ∧ malformedReason [0x03] = some .unknownOpcode := by decide
theorem witness_StepRunsDecodedCommand :
    (presented [0x12, 0xEE, 0x02]).inputs = [⟨[0x12, 0xEE, 0x02], 7, false⟩] ∧
      decode .hostCmd [0x12, 0xEE, 0x02] = .ok (.loadParams 0xEE 0x02) := by decide
theorem witness_MalformedCommandReported :
    (presented []).inputs = [⟨[], 7, false⟩] ∧ malformedReason [] = some .unknownOpcode ∧
      (presented [0x12]).inputs = [⟨[0x12], 7, false⟩] ∧ malformedReason [0x12] = some .badLength ∧
      (presented [0x30, 0x27, 0, 0, 0]).inputs = [⟨[0x30, 0x27, 0, 0, 0], 7, false⟩] ∧
      malformedReason [0x30, 0x27, 0, 0, 0] = some .badOperand := by decide
theorem witness_ResetStep : { scanning 3 with inputs := [⟨[0x02], 9, true⟩] }.inputs = ⟨[0x02], 9, true⟩ :: [] := by decide
theorem witness_NothingPresentedNothingDone : (scanning 3).inputs = [] := by decide

theorem witness_RxByteWithinFrame :
    State.reset.rx.inv 1 = true ∧ State.reset.rx.state = .awaitSync ∧
      (let s := { State.reset with rx := { state := .awaitLen, buf := [(0, 0xC8)], count := 1 } };
        s.rx.inv 1 = true ∧ s.rx.state = .awaitLen) ∧
      (let s := rxHolding [0xC8, 0x01];
        s.rx.inv 1 = true ∧ s.rx.state = .accum ∧ Memory.read s.rx.buf 1 = some 0x01 ∧ s.rx.count + 1 = 3) ∧
      (let s := rxHolding ([0xC8, 62] ++ List.replicate 60 0x00);
        s.rx.inv 1 = true ∧ s.rx.state = .accum ∧ Memory.read s.rx.buf 1 = some 62 ∧ s.rx.count + 1 ≠ 64) := by decide
theorem witness_RxByteBadCrcDiscards :
    let s := rxHolding [0xC8, 0x04, 0x28, 0x00, 0xEA];
    s.rx.inv 1 = true ∧ s.rx.state = .accum ∧ Memory.readRange s.rx.buf 0 s.rx.count = some [0xC8, 0x04, 0x28, 0x00, 0xEA] ∧
      decode .frameType ([0xC8, 0x04, 0x28, 0x00, 0xEA] ++ [0x55]) = .error .frameCrc := by decide
theorem witness_RxByteRunsFrameInstruction :
    let s := rxHolding [0xC8, 0x04, 0x28, 0x00, 0xEA];
    s.rx.inv 1 = true ∧ s.rx.state = .accum ∧ Memory.readRange s.rx.buf 0 s.rx.count = some [0xC8, 0x04, 0x28, 0x00, 0xEA] ∧
      decode .frameType ([0xC8, 0x04, 0x28, 0x00, 0xEA] ++ [0x54]) = .ok (.devicePing 0x00 0xEA []) ∧
      after (exec (.devicePing 0x00 0xEA []) s) = some s := by decide
/-- No TYPE, a standard TYPE, no room for addresses, and a TYPE not listed. -/
theorem witness_RxByteIgnoresOtherFrames :
    (∀ x ∈ [([0xC8, 0x01], 0x00, Reject.noType), ([0xC8, 0x02, 0x10], 0x52, .standardFrame), ([0xC8, 0x03, 0x29, 0x00], 0xE6, .noAddresses),
        ([0xC8, 0x04, 0x2A, 0x00, 0xEA], crc8 [0x2A, 0x00, 0xEA], .unknownType)],
      let s := rxHolding x.1;
      s.rx.inv 1 = true ∧ s.rx.state = .accum ∧ Memory.readRange s.rx.buf 0 s.rx.count = some x.1 ∧
        decode .frameType (x.1 ++ [x.2.1]) = .error x.2.2 ∧ x.2.2 ∈ [.noType, .standardFrame, .noAddresses, .unknownType]) := by decide
theorem witness_RxByteFrame :
    (after (exec (.rxByte 0x54) (rxHolding [0xC8, 0x04, 0x28, 0x00, 0xEA]))).isSome = true ∧
      (rxHolding [0xC8, 0x04, 0x28, 0x00, 0xEA]).eng.req ≠ .reading ∧ (rxHolding [0xC8, 0x04, 0x28, 0x00, 0xEA]).eng.req ≠ .scanning := by
  decide
/-- A PARAM_ENTRY completed while READING: the one-chunk load of a FOLDER record. -/
theorem witness_RxByteEvents :
    let f := frameBytes 0x2B 0xEA 0xEE [0x01, 0x00, 0x00, 0x0B, 0x41];
    let s := { loading 1 1 0 [] with rx := holding f.dropLast };
    s.eng.req = .reading ∧ (after (exec (.rxByte (f.getLastD 0)) s)).map (fun t => t.out.ev.length) = some 2 := by decide

theorem witness_PtByteWithinFrame :
    State.reset.pt.inv 3 = true ∧ State.reset.pt.state = .awaitSync ∧
      (let s := { State.reset with pt := { state := .awaitLen, buf := [(0, 0xC8)], count := 1 } };
        s.pt.inv 3 = true ∧ s.pt.state = .awaitLen) ∧
      (let s := ptHolding [0xC8, 0x03];
        s.pt.inv 3 = true ∧ s.pt.state = .accum ∧ Memory.read s.pt.buf 1 = some 0x03 ∧ s.pt.count + 1 ≠ 5) ∧
      (let s := { State.reset with pt := { holding [0xC8, 0x03, 0x10, 0x20, 0x14] with state := .complete } };
        s.pt.inv 3 = true ∧ s.pt.state = .complete) := by decide
theorem witness_PtByteEndsFrame :
    let s := ptHolding [0xC8, 0x03, 0x10, 0x20];
    s.pt.inv 3 = true ∧ s.pt.state = .accum ∧ Memory.readRange s.pt.buf 0 s.pt.count = some [0xC8, 0x03, 0x10, 0x20] ∧
      Memory.read s.pt.buf 1 = some 0x03 ∧ s.pt.count + 1 = 5 ∧ crc8 ([0xC8, 0x03, 0x10, 0x20].drop 2) = 0x14 ∧
      crc8 ([0xC8, 0x03, 0x10, 0x20].drop 2) ≠ 0x15 := by decide
theorem witness_PtConsumeResult :
    { State.reset with pt := { holding [0xC8, 0x03, 0x10, 0x20, 0x14] with state := .complete } }.pt.state = .complete ∧
      State.reset.pt.state ≠ .complete := by decide
theorem witness_ReceiversDoNotInterfere :
    (after (exec (.rxByte 0xC8) State.reset)).isSome = true ∧
      (after (exec (.ptByte 0x14) (ptHolding [0xC8, 0x03, 0x10, 0x20]))).isSome = true := by decide

theorem witness_TickResult :
    (scanning 3).eng.req = .scanning ∧ (loading 2 1 0 []).eng.req = .reading ∧ State.reset.eng.req = .idle ∧
      { State.reset with eng := { Engine.reset with req := .writing } }.eng.req = .writing := by decide
theorem witness_StartScanResult : State.reset.eng.req = .idle ∧ (scanning 3).eng.req ≠ .idle := by decide
theorem witness_LoadParamsResult : (1 : Byte) ≠ 0 ∧ (255 : Byte) ≠ 0 ∧ (0 : Byte) = 0 := by decide
theorem witness_WriteParamResult :
    57 < (List.replicate 58 (0 : Byte)).length ∧
      ((List.replicate 57 (0 : Byte)).length ≤ 57 ∧ (scanning 3).eng.req ≠ .idle) ∧
      ((List.replicate 57 (0 : Byte)).length ≤ 57 ∧ State.reset.eng.req = .idle) := by decide
theorem witness_TxFrameResult :
    ((0x28 : Byte) ≤ 0x28 ∧ (List.replicate 58 (0 : Byte)).length ≤ 58) ∧ (0x27 : Byte) < 0x28 ∧
      58 < (List.replicate 59 (0 : Byte)).length := by decide

theorem witness_DeviceInfoResult :
    ((scanning 3).eng.req = .scanning ∧ (0 : Byte) ∉ ([] : Bytes) ∧ (0 : Byte) ∉ [0x41, 0xFF]) ∧
    State.reset.eng.req ≠ .scanning ∧ (0 : Byte) ∉ [0x41] ∧
      ([0x41, 0] ++ List.replicate 13 (1 : Byte) = [0x41] ++ [0] ++ List.replicate 13 1 ∧ (0 : Byte) ∉ [0x41] ∧
        (List.replicate 13 (1 : Byte)).length < 14) := by decide
theorem witness_ParamEntryIgnored :
    State.reset.eng.req ≠ .reading ∧ [(0x01 : Byte)].length < 2 ∧ (0xEC : Byte) ≠ (loading 2 1 0 []).eng.target ∧
      [(0x05 : Byte), 0].head? ≠ some (loading 2 1 0 []).eng.curParam := by decide
/-- 224 bytes held and a chunk of 33, and a chunk index of 0 with a chunk of 257. -/
theorem witness_ParamEntryOverflow :
    ((loading 2 1 4 (List.replicate 224 0)).eng.req = .reading ∧
      256 < (loading 2 1 4 (List.replicate 224 0)).reasm.len + (List.replicate 33 (0 : Byte)).length) ∧
    ((loading 2 1 0 []).eng.req = .reading ∧ 256 < 0 + (List.replicate 257 (0 : Byte)).length) := by decide
/-- 224 bytes held and a chunk of 32, and a chunk index of 0 with a chunk of 56. -/
theorem witness_ParamEntryNextChunk :
    ((loading 2 1 4 (List.replicate 224 0)).eng.req = .reading ∧ (1 : Byte) ≠ 0 ∧
      (loading 2 1 4 (List.replicate 224 0)).reasm.len + (List.replicate 32 (0 : Byte)).length ≤ 256) ∧
    ((loading 2 1 0 []).eng.req = .reading ∧ (255 : Byte) ≠ 0 ∧ 0 + (List.replicate 56 (0 : Byte)).length ≤ 256) := by decide
/-- The last parameter at a later chunk, and an earlier parameter at chunk 0. -/
theorem witness_ParamEntryLastChunk :
    (let s := loading 255 255 1 [0x00, 0x0B];
      s.eng.req = .reading ∧ s.eng.curChunk ≠ 0 ∧ s.reasm.bytes = some [0x00, 0x0B] ∧
        [(0x00 : Byte), 0x0B].length + [(0x41 : Byte)].length ≤ 256 ∧ s.eng.count ≤ s.eng.curParam) ∧
    (let s := loading 2 1 0 [];
      s.eng.req = .reading ∧ s.eng.curChunk = 0 ∧ ([] : Bytes).length + (List.replicate 256 (0 : Byte)).length ≤ 256 ∧
        ¬ s.eng.count ≤ s.eng.curParam) := by decide

theorem witness_KindDeliversItsRecord :
    Instr.format (.folder 0 false [0x41]) = .paramKind ∧ Instr.wf (.folder 0 false [0x41]) = true ∧
      Instr.format (.uint8 0 true [0x00]) = .paramKind ∧ Instr.wf (.uint8 0 true [0x00]) = true := by decide
/-- A unit that ends at the record's end and one that ends at a zero byte; three fields read, and none after an unterminated name. -/
theorem witness_ByteKinds :
    ((0 : Byte) ∉ [0x50] ∧ (0 : Byte) ∉ ([] : Bytes) ∧ (([] : Bytes) = [] ∨ ([] : Bytes).head? = some 0) ∧
      ([(0 : Byte), 7] = [] ∨ [(0 : Byte), 7].head? = some 0)) ∧
    ([(1 : Byte), 2, 3].length ≤ 3 ∧ [(0x50 : Byte), 0] = [0x50] ++ [0]) ∧
    (([] : Bytes).length ≤ 3 ∧ [(0x50 : Byte)] = [0x50] ∧ ([] : Bytes) = []) := by decide
theorem witness_HalfWordKinds :
    ((0 : Byte) ∉ [0x50] ∧ (0 : Byte) ∉ [0x48, 0x7A] ∧ ([(0 : Byte)] = [] ∨ [(0 : Byte)].head? = some 0)) ∧
    ([(1 : BitVec 16), 2, 3].length ≤ 3 ∧ [(9 : Byte)].length < 2 ∧ [(0x50 : Byte), 0] = [0x50] ++ [0]) ∧
    (([] : List (BitVec 16)).length ≤ 3 ∧ ([] : Bytes).length < 2 ∧ [(0x50 : Byte)] = [0x50]) := by decide
theorem witness_WordKinds :
    ((0 : Byte) ∉ [0x50] ∧ (0 : Byte) ∉ [0x48, 0x7A] ∧ ([(0 : Byte)] = [] ∨ [(0 : Byte)].head? = some 0)) ∧
    ([(1 : Word32), 2, 3].length ≤ 3 ∧ [(9 : Byte), 0, 8].length < 4 ∧ [(0x50 : Byte), 0] = [0x50] ++ [0]) ∧
    (([] : List Word32).length ≤ 3 ∧ ([] : Bytes).length < 4 ∧ [(0x50 : Byte)] = [0x50]) := by decide
/-- The tail cut inside the fourth value, before the decimal-point byte, and inside the step. -/
theorem witness_FloatKind :
    ((0 : Byte) ∉ [0x50] ∧ (0 : Byte) ∉ [0x48, 0x7A] ∧ ([(0 : Byte)] = [] ∨ [(0 : Byte)].head? = some 0)) ∧
    ([(1 : Word32), 2, 3].length ≤ 3 ∧ [(9 : Byte), 0, 8].length < 4) ∧
    ([(1 : Word32), 2, 3, 4].length = 4 ∧ ([] : Bytes).length < 5) ∧
    ([(1 : Word32), 2, 3, 4].length = 4 ∧ [(2 : Byte), 0, 0, 0].length < 5 ∧ [(0x50 : Byte), 0] = [0x50] ++ [0]) ∧
    (([] : List Word32).length ≤ 3 ∧ ([] : Bytes).length < 4 ∧ [(0x50 : Byte)] = [0x50]) := by decide
theorem witness_TextSelectionKind :
    ((0 : Byte) ∉ [0x50] ∧ (0 : Byte) ∉ [0x41, 0x3B, 0x42] ∧ (0 : Byte) ∉ ([] : Bytes) ∧
      ([(0 : Byte)] = [] ∨ [(0 : Byte)].head? = some 0)) ∧
    ([(1 : Byte), 2, 3].length ≤ 3 ∧ [0x50, 0, 0x41, 0] = [0x50] ++ [0] ++ [0x41] ++ [(0 : Byte)]) ∧
    (([] : Bytes).length ≤ 3 ∧ [0x50, 0, 0x41] = [0x50] ++ [0] ++ [(0x41 : Byte)]) ∧
    (([] : Bytes).length ≤ 3 ∧ (0 : Byte) ∉ ([] : Bytes) ∧ [(0x50 : Byte)] = [0x50]) := by decide
theorem witness_StringFolderInfoCommandKinds :
    ((0 : Byte) ∉ [0x50] ∧ (0 : Byte) ∉ [0x41, 0x42] ∧ ([(0 : Byte), 9] = [] ∨ [(0 : Byte), 9].head? = some 0) ∧
      [(0x50 : Byte), 0] = [0x50] ++ [0]) ∧
    ((0 : Byte) ∉ ([] : Bytes) ∧ (([] : Bytes) = [] ∨ ([] : Bytes).head? = some 0) ∧ [(0x50 : Byte)] = [0x50]) := by decide
theorem witness_RejectedRecords :
    [(0x00 : Byte), 0x0B].length < 3 ∧ tv.kindCode.lookup ((0xC6 : Byte).setWidth 6) = none ∧
      tv.kindCode.lookup ((0x3F : Byte).setWidth 6) = none := by decide
theorem witness_BoundedStringCopy : (0 : Byte) ∉ [0x61, 0xFF] := by decide
theorem witness_EncodeThenFeedRoundTrip :
    (0x28 : Byte) ≤ 0x28 ∧ (0x28 : Byte) ≤ 0xFF ∧ ([] : Bytes).length ≤ 58 ∧ (List.replicate 58 (0 : Byte)).length ≤ 58 ∧
      (List.replicate 59 (0 : Byte)).length = 59 ∧ (List.replicate 60 (0 : Byte)).length = 60 := by decide

/-- A scan in progress with a partial frame in each receiver meets the invariant. -/
theorem witness_StepNeverStops : { scanning 3 with rx := holding [0xC8, 0x06, 0x2C], pt := holding [0xC8, 0x03] }.Inv := by
  constructor <;> decide
/-- A load with a partial record meets the invariant. -/
theorem witness_Inv_reading : (loading 2 1 1 [0x00, 0x0B]).Inv := by
  constructor <;> decide
theorem witness_StepKeepsInvariant :
    (after (step { loading 2 1 1 [0x00, 0x0B] with inputs := [⟨[0x13], 4, false⟩] })).map (fun t => t.eng.req) = some .idle := by decide
theorem witness_MemoriesStayCanonical :
    (rxHolding [0xC8, 0x06, 0x2C]).memoriesWf = true ∧
      (after (step { rxHolding [0xC8, 0x06, 0x2C] with inputs := [⟨[0x01, 0x00], 4, false⟩] })).isSome = true := by decide
theorem witness_RequestTransitions :
    Instr.format .startScan = .hostCmd ∧ State.reset.eng.req ≠ .writing ∧ (after (exec .startScan State.reset)).isSome = true ∧
      Instr.format (.loadParams 0xEE 0) = .hostCmd ∧ (scanning 3).eng.req ≠ .writing ∧
      (after (exec (.loadParams 0xEE 0) (scanning 3))).isSome = true := by decide
theorem witness_SendsWholeFrames : (after (exec .startScan State.reset)).map (fun t => t.out.tx.length) = some 6 := by decide
theorem witness_TimeRegisterWriters :
    (after (exec .startScan (at_ 6))).map (fun t => (t.eng.scanStart, t.eng.lastActivity)) = some (6, 6) := by decide
theorem witness_ErrorWrittenOnlyByFailure :
    (after (exec (.paramEntry 0xEA 0xEE [0x01, 0x01, 0x00]) (loading 2 1 4 (List.replicate 256 0)))).map (fun t => t.eng.err) =
      some ⟨.bufOverflow, 1⟩ := by decide
theorem witness_ChunkZeroMeansEmptyBuffer :
    let s := { loading 2 1 0 [] with inputs := [⟨[0x13], 4, false⟩] };
    (s.eng.req = .reading → s.eng.curChunk = 0 → s.reasm.len = 0) ∧ (after (step s)).isSome = true := by decide
/-- A case of each class: Noise while a frame is sought, built and held; Mismatch of a frame and of a record, with a parameter left and
with none; Busy; Malformed. -/
theorem witness_ErrorClassActions :
    (∀ x ∈ [(Instr.rxByte 0x00, State.reset, ErrorClass.noise), (.rxByte 0x55, rxHolding [0xC8, 0x04, 0x28, 0x00, 0xEA], .noise),
        (.ptByte 0x00, { State.reset with pt := { holding [0xC8, 0x03, 0x10, 0x20, 0x14] with state := .complete } }, .noise),
        (.rxByte 0x54, rxHolding [0xC8, 0x04, 0x28, 0x00, 0xEA], .mismatch), (.paramEntry 0xEA 0xEC [0x01, 0x00], loading 2 1 0 [], .mismatch),
        (.paramEntry 0xEA 0xEE [0x01, 0x00, 0x00, 0x06, 0x41], loading 2 1 0 [], .mismatch),
        (.paramEntry 0xEA 0xEE [0x01, 0x00, 0x00, 0x06, 0x41], loading 1 1 0 [], .mismatch),
        (.startScan, scanning 3, .busy), (.writeParam 0xEE 1 [], scanning 3, .busy),
        (.writeParam 0xEE 1 (List.replicate 58 0), State.reset, .malformed), (.txFrame 0x27 0 0 [], scanning 3, .malformed)],
      raised given x.1 x.2.1 = some x.2.2 ∧ (after (exec x.1 x.2.1)).isSome = true) := by decide
theorem witness_StatusViewShowsState :
    (loading 2 1 1 [0x00, 0x0B]).dev.list.length < 256 ∧ [rec_].length < 256 ∧ [rec_][0]? = some rec_ ∧ [rec_].length ≤ 1 := by decide
theorem witness_PseudoInstructionsExpand : encodeFrame 0x28 0x00 0xEA [] = some [0xC8, 0x04, 0x28, 0x00, 0xEA, 0x54] := by decide
/-- The bounds of each clause. -/
theorem witness_EncoderResult :
    ((0x28 : Byte) ≤ 0x28 ∧ (List.replicate 58 (0 : Byte)).length ≤ 58) ∧ 58 < (List.replicate 59 (0 : Byte)).length ∧ (0x27 : Byte) < 0x28 := by
  decide

end Sys2Proof.Machine
end

section
/-! PROOF. The encoding statements: which commands are well formed and the reason of each that is not (R122), and what the
pseudo-instructions stand for (R124). -/

namespace Sys2Proof

/-! ### The reason of a command, by what decoding gives -/

theorem malformedReason_of_ok {c : Bytes} {i : Instr} (h : decodeCommand c = .ok i) :
    malformedReason c = if i.wf then none else some .badOperand := by
  simp only [malformedReason, h]

theorem malformedReason_of_error {c : Bytes} {r : CmdReason} (h : decodeCommand c = .error r) : malformedReason c = some r := by
  simp only [malformedReason, h]

theorem malformedReason_unknown_iff {c : Bytes} :
    malformedReason c = some .unknownOpcode ↔ decodeCommand c = .error .unknownOpcode := by
  cases h : decodeCommand c with
  | error r => simp [malformedReason_of_error h]
  | ok i => simp [malformedReason_of_ok h]

theorem malformedReason_none_iff {c : Bytes} : malformedReason c = none ↔ ∃ i, decodeCommand c = .ok i ∧ i.wf = true := by
  cases h : decodeCommand c with
  | error r => simp [malformedReason_of_error h]
  | ok i => simp [malformedReason_of_ok h]

/-- Decoding never gives the reason BAD_OPERAND, so it comes from the operand ranges alone. -/
theorem malformedReason_badOperand_iff {c : Bytes} :
    malformedReason c = some .badOperand ↔ ∃ i, decodeCommand c = .ok i ∧ i.wf = false := by
  cases h : decodeCommand c with
  | error r =>
    have hr : r ≠ .badOperand := fun e => decodeCommand_ne_badOperand c (e ▸ h)
    simp [malformedReason_of_error h, hr]
  | ok i => simp [malformedReason_of_ok h]

/-! ### Operands out of range (R122) -/

theorem writeOperandsOk_eq_false_iff {v : Bytes} : writeOperandsOk v = false ↔ 57 < v.length := by
  rw [← Bool.not_eq_true, writeOperandsOk_iff, Nat.not_le]

theorem txOperandsOk_eq_false_iff {type : Byte} {p : Bytes} :
    txOperandsOk type p = false ↔ 58 < p.length ∨ type < 0x28 := by
  rw [← Bool.not_eq_true, txOperandsOk_iff, not_and_or, BitVec.not_le, Nat.not_le, or_comm]

/-! ### The well-formed commands and those with an operand out of range -/

/-- The ten shapes of R120, with the operand ranges of R122. -/
theorem malformedReason_none_shapes {c : Bytes} :
    malformedReason c = none ↔
      (∃ b, c = [0x01, b]) ∨ c = [0x02] ∨ c = [0x10] ∨ c = [0x11] ∨ (∃ dev cnt, c = [0x12, dev, cnt]) ∨ c = [0x13] ∨
      (∃ dev param v, v.length ≤ 57 ∧ c = [0x14, dev, param, BitVec.ofNat 8 v.length] ++ v) ∨
      (∃ b, c = [0x20, b]) ∨ c = [0x21] ∨
      (∃ type dest origin p, 0x28 ≤ type ∧ p.length ≤ 58 ∧ c = [0x30, type, dest, origin, BitVec.ofNat 8 p.length] ++ p) := by
  rw [malformedReason_none_iff]
  constructor
  · rintro ⟨i, hi, hwf⟩
    refine (decodeCommand_ok hi).imp ?rx <| .imp And.left <| .imp And.left <| .imp And.left <| .imp ?load <| .imp And.left <|
      .imp ?write <| .imp ?pt <| .imp And.left ?tx
    case rx => exact fun ⟨b, hc, _⟩ => ⟨b, hc⟩
    case load => exact fun ⟨dev, cnt, hc, _⟩ => ⟨dev, cnt, hc⟩
    case write =>
      rintro ⟨dev, param, v, -, hc, rfl⟩
      exact ⟨dev, param, v, writeOperandsOk_iff.mp hwf, hc⟩
    case pt => exact fun ⟨b, hc, _⟩ => ⟨b, hc⟩
    case tx =>
      rintro ⟨type, dest, origin, p, -, hc, rfl⟩
      obtain ⟨htype, hp⟩ := txOperandsOk_iff.mp hwf
      exact ⟨type, dest, origin, p, htype, hp, hc⟩
  · rintro (⟨b, rfl⟩ | rfl | rfl | rfl | ⟨dev, cnt, rfl⟩ | rfl | ⟨dev, param, v, hv, rfl⟩ | ⟨b, rfl⟩ | rfl |
      ⟨type, dest, origin, p, ht, hp, rfl⟩)
    iterate 6 exact ⟨_, rfl, rfl⟩
    · exact ⟨_, decodeCommand_write dev param v (by omega), writeOperandsOk_iff.mpr hv⟩
    iterate 2 exact ⟨_, rfl, rfl⟩
    · exact ⟨_, decodeCommand_tx type dest origin p (by omega), txOperandsOk_iff.mpr ⟨ht, hp⟩⟩

/-- Two commands have an operand range, and one out of it still has the length its n byte says. -/
theorem malformedReason_badOperand_shapes {c : Bytes} :
    malformedReason c = some .badOperand ↔
      (∃ dev param v, 57 < v.length ∧ v.length ≤ 255 ∧ c = [0x14, dev, param, BitVec.ofNat 8 v.length] ++ v) ∨
      (∃ type dest origin p, (58 < p.length ∨ type < 0x28) ∧ p.length ≤ 255 ∧
        c = [0x30, type, dest, origin, BitVec.ofNat 8 p.length] ++ p) := by
  rw [malformedReason_badOperand_iff]
  constructor
  · rintro ⟨i, hi, hwf⟩
    rcases decodeCommand_ok hi with ⟨_, -, rfl⟩ | ⟨-, rfl⟩ | ⟨-, rfl⟩ | ⟨-, rfl⟩ | ⟨_, _, -, rfl⟩ | ⟨-, rfl⟩ |
      ⟨dev, param, v, hv, hc, rfl⟩ | ⟨_, -, rfl⟩ | ⟨-, rfl⟩ | ⟨type, dest, origin, p, hp, hc, rfl⟩
    iterate 6 cases hwf
    · exact .inl ⟨dev, param, v, writeOperandsOk_eq_false_iff.mp hwf, hv, hc⟩
    iterate 2 cases hwf
    · exact .inr ⟨type, dest, origin, p, txOperandsOk_eq_false_iff.mp hwf, hp, hc⟩
  · rintro (⟨dev, param, v, hlong, hv, rfl⟩ | ⟨type, dest, origin, p, hout, hp, rfl⟩)
    · exact ⟨_, decodeCommand_write dev param v hv, writeOperandsOk_eq_false_iff.mpr hlong⟩
    · exact ⟨_, decodeCommand_tx type dest origin p hp, txOperandsOk_eq_false_iff.mpr hout⟩

/-- Settles O4: each reason is read off what decoding gives, and the operand ranges of R122 tell the commands that decode apart. -/
theorem malformedReasons : Obligations.MalformedReasons := fun _ =>
  ⟨malformedReason_none_shapes, malformedReason_unknown_iff.trans decodeCommand_unknown, malformedReason_badOperand_shapes⟩

end Sys2Proof

namespace Sys2Proof.Machine

/-! ### The pseudo-instructions -/

theorem opInputs_rxs (t : Time) (bs : Bytes) : opInputs t (.rxs bs) = bs.map (fun b => ⟨[0x01, b], t, false⟩) := List.map_map

theorem opInputs_pts (t : Time) (bs : Bytes) : opInputs t (.pts bs) = bs.map (fun b => ⟨[0x20, b], t, false⟩) := List.map_map

/-- An RXF whose frame the encoder gives stands for the commands of that frame's RXS. -/
theorem opInputs_rxf {type dest origin : Byte} {p f : Bytes} (t : Time) (h : encodeFrame type dest origin p = some f) :
    opInputs t (.rxf type dest origin p) = opInputs t (.rxs f) := by
  simp only [opInputs, AsmOp.expand, h, Option.getD_some]

/-- Settles O57, one clause for each pseudo-instruction. -/
theorem pseudoInstructionsExpand : Obligations.PseudoInstructionsExpand := fun t bs _ _ _ _ =>
  ⟨opInputs_rxs t bs, opInputs_pts t bs, fun _ => opInputs_rxf t⟩

end Sys2Proof.Machine
end

section
/-! PROOF. The framing units: what PT_BYTE does in each receive state of the detector (R143 to R147, R160 to R162, R165), PT_CONSUME
(R166) and TX_FRAME (R167). -/

namespace Sys2Proof.Machine

/-! ### Feed, by the bytes a codec that meets the invariant holds -/

/-- Feed in AWAIT_SYNC (R143): the SYNC byte begins a frame, any other is dropped. -/
theorem feed_awaitSync_of_inv {m : MemName} {lmin : Nat} {u : Codec} (b : Byte) (hs : u.state = .awaitSync)
    (h : u.inv lmin = true) :
    feed m lmin u b =
      .ok (if b = 0xC8 then ⟨{ state := .awaitLen, buf := [(0, 0xC8)], count := 1 }, false, false⟩ else ⟨u, false, true⟩) := by
  rw [feed_awaitSync b hs, Codec.inv_awaitSync_buf hs h, feedSync, syncByte]
  split
  · subst b; rfl
  · rfl

/-- Feed in AWAIT_LEN (R144): an admitted length byte is kept, any other discards the frame. -/
theorem feed_awaitLen_of_inv {m : MemName} {lmin : Nat} {u : Codec} (b : Byte) (hs : u.state = .awaitLen)
    (h : u.inv lmin = true) :
    feed m lmin u b =
      .ok (if lmin ≤ b.toNat ∧ b.toNat ≤ 62 then ⟨{ state := .accum, buf := [(0, 0xC8), (1, b)], count := 2 }, false, false⟩
        else ⟨Codec.fresh, false, true⟩) := by
  rw [feed_awaitLen b hs, Codec.inv_awaitLen_buf hs h, feedLen]
  simp only [lenAdmitted_iff]
  rfl

/-- Feed in ACCUM before the frame's last byte, the frame buffer having room for it (R145). -/
theorem feed_accum_more_of_inv {m : MemName} {lmin : Nat} {u : Codec} {len : Byte} (b : Byte) (hm : m.size = maxFrame)
    (hs : u.state = .accum) (h : u.inv lmin = true) (hl : Memory.read u.buf 1 = some len)
    (hn : u.count + 1 ≠ len.toNat + 2) : feed m lmin u b = .ok ⟨u.push b, false, false⟩ := by
  obtain ⟨-, hc, -, len', -, -, hhi, hlt⟩ := (Codec.inv_accum hs).1 h
  have hroom : u.count < m.size := by
    rw [hm]
    simp only [maxFrame, rxLenMax] at hhi ⊢
    omega
  rw [feed_accum b hs, feedAccum_more hc hroom hl hn]

/-- The TYPE of a frame that has grown by one stays the first byte of its body. -/
theorem Codec.read_push_type {u : Codec} {body : Bytes} (b : Byte) (hc : u.count = body.length + 2)
    (hb : Memory.readRange u.buf 2 (u.count - 2) = some body) (hne : body ≠ []) :
    Memory.read (u.push b).buf 2 = some (body.getD 0 0) := by
  cases body with
  | nil => exact absurd rfl hne
  | cons type rest =>
    rw [List.length_cons] at hc
    rw [Codec.read_push, if_neg (by omega)]
    exact (Memory.readRange_getElem? hb 0 (by omega)).symm

/-! ### PT_BYTE -/

/-- PT_BYTE on the last byte of a frame whose CRC matches (R161, R165): the detector holds the frame and reports it with its TYPE,
which its least length 3 leaves room for before the CRC. -/
theorem execPtByte_frame {s : State} {b len : Byte} {body : Bytes} (h : s.pt.inv ptLenMin = true) (hs : s.pt.state = .accum)
    (hf : Memory.readRange s.pt.buf 0 s.pt.count = some (syncByte :: len :: body)) (hn : body.length + 1 = len.toNat)
    (hcrc : crc8 body = b) :
    execPtByte b s =
      .next ({ s with pt := { s.pt.push b with state := .complete } }.emit
        (.ptFrame (syncByte :: len :: (body ++ [b])) (isExtended (body.getD 0 0)))) := by
  obtain ⟨len', body', e, hc, hl, hb, hlo, -, -⟩ := Codec.inv_accum_bytes hs h hf
  cases e
  have hbody : body ≠ [] := by
    rintro rfl
    simp only [List.length_nil, ptLenMin] at hn hlo
    omega
  have htype := Codec.read_push_type b hc hb hbody
  refine execPtByte_done (n := false) ?_ (heldFrame_push b hl hn hc hf) htype
  rw [feed_accum_bytes b rfl hs h hf, if_pos hn, if_pos hcrc]

/-- PT_BYTE on the last byte of a frame whose CRC does not match (R146): the detector is reset. -/
theorem execPtByte_badCrc {s : State} {b len : Byte} {body : Bytes} (h : s.pt.inv ptLenMin = true) (hs : s.pt.state = .accum)
    (hf : Memory.readRange s.pt.buf 0 s.pt.count = some (syncByte :: len :: body)) (hn : body.length + 1 = len.toNat)
    (hcrc : crc8 body ≠ b) : execPtByte b s = .next { s with pt := Codec.fresh } := by
  refine execPtByte_open (n := true) ?_
  rw [feed_accum_bytes b rfl hs h hf, if_pos hn, if_neg hcrc]

/-- Settles O18: the CRC of the bytes held from TYPE on, against the last byte, decides between the two ends of a frame. -/
theorem ptByteEndsFrame : Obligations.PtByteEndsFrame := by
  intro s b len f hinv hs hf hl hn
  obtain ⟨len', body, rfl, hc, hl', -, -, -, -⟩ := Codec.inv_accum_bytes hs hinv hf
  have hlen : body.length + 1 = len'.toNat := by
    cases hl.symm.trans hl'
    omega
  exact ⟨fun hcrc => ⟨_, execPtByte_frame hinv hs hf hlen hcrc, Codec.read_push s.pt b⟩,
    fun hcrc => execPtByte_badCrc hinv hs hf hlen hcrc⟩

/-- Settles O17, one receive state after another. -/
theorem ptByteWithinFrame : Obligations.PtByteWithinFrame := by
  intro s b hinv
  refine ⟨fun hs => ?sync, fun hs => ?len, fun len hs hl hn => ?accum, fun hs => execPtByte_open (feed_complete b hs)⟩
  case sync =>
    have hfeed := feed_awaitSync_of_inv (m := .ptbuf) b hs hinv
    by_cases hb : b = 0xC8
    · rw [if_pos hb] at hfeed ⊢
      exact execPtByte_open hfeed
    · rw [if_neg hb] at hfeed ⊢
      exact execPtByte_open hfeed
  case len =>
    have hfeed := feed_awaitLen_of_inv (m := .ptbuf) b hs hinv
    by_cases hb : 3 ≤ b.toNat ∧ b.toNat ≤ 62
    · rw [if_pos hb] at hfeed ⊢
      exact execPtByte_open hfeed
    · rw [if_neg hb] at hfeed ⊢
      exact execPtByte_open hfeed
  case accum =>
    refine ⟨_, ?_, Codec.read_push s.pt b⟩
    rw [← hs]
    exact execPtByte_open (feed_accum_more_of_inv b rfl hs hinv hl hn)

/-! ### PT_CONSUME and TX_FRAME -/

/-- Settles O19: the one test of PT_CONSUME, either way. -/
theorem ptConsumeResult : Obligations.PtConsumeResult := fun _ => ⟨fun h => if_pos h, fun h => if_neg h⟩

/-- Settles O26: TX_FRAME tests its operand range and nothing of the state, and the frame it sends has the layout of R155. -/
theorem txFrameResult : Obligations.TxFrameResult := by
  intro s type dest origin p
  refine ⟨fun htype hp => ?sent, fun hout => ?refused⟩
  case sent => exact (execTxFrame_eq type dest origin p s).trans (if_pos (txOperandsOk_iff.mpr ⟨htype, hp⟩))
  case refused =>
    have hbad : txOperandsOk type p = false := txOperandsOk_eq_false_iff.mpr hout.symm
    exact (execTxFrame_eq type dest origin p s).trans (if_neg (Bool.eq_false_iff.mp hbad))

end Sys2Proof.Machine
end

section
/-! PROOF. The parameter codec's strings, fixed-point values and device descriptors: BStr (R180), the value of a pair (R203), and
what a received DEVICE_INFO does (R183 to R185, R263). -/

namespace Sys2Proof.Machine

/-! ### Strings and fixed-point values -/

/-- Settles O41: the copy is cut to the capacity, the cursor is not. -/
theorem boundedStringCopy : Obligations.BoundedStringCopy := fun cap text rest h =>
  ⟨by rw [List.append_assoc]; exact bStr_append cap h rest, bStr_text cap h⟩

/-- The divisor 10^D of a pair is never 0, so the division is undone exactly. -/
theorem Fixed.real_mul_pow (x : Fixed) : x.real * (10 ^ x.d.toNat : Nat) = x.v.toInt := by
  have hpow : ((10 ^ x.d.toNat : Nat) : Rat) ≠ 0 := Nat.cast_ne_zero.2 (pow_ne_zero _ (by decide))
  rw [Fixed.real, div_mul_cancel₀ _ hpow]

/-- The worked value of R203. -/
theorem Fixed.real_1500_2 : Fixed.real ⟨1500, 2⟩ = 15 := by
  have hv : (1500 : Word32).toInt = 1500 := by decide
  have hd : (2 : Byte).toNat = 2 := by decide
  rw [Fixed.real, hv, hd]
  norm_num

/-- Settles O42: the quotient is exact because 10^D is never 0. -/
theorem fixedPointIsExact : Obligations.FixedPointIsExact := ⟨Fixed.real_mul_pow, Fixed.real_1500_2, fun _ => rfl⟩

/-! ### decodeDeviceInfo -/

/-- A payload with no terminator is rejected (R184). -/
theorem decodeDeviceInfo_unterminated (c : Config) (origin : Byte) {p : Bytes} (h : 0 ∉ p) : decodeDeviceInfo c origin p = none :=
  if_pos (by simpa using h)

/-- All that decodeDeviceInfo does with a terminated name: the bytes `f` after the terminator decide, 14 of them being read (R183 to
R185). -/
theorem decodeDeviceInfo_terminated (c : Config) (origin : Byte) {name : Bytes} (h : 0 ∉ name) (f : Bytes) :
    decodeDeviceInfo c origin (name ++ 0 :: f) =
      if f.length < 14 then none
      else some
        { address := origin, name := name.take (c.capDevName.size - 1), serial := beU (f.take 4), hwId := beU ((f.drop 4).take 4),
          fwId := beU ((f.drop 8).take 4), paramCount := f.getD 12 0, protoVer := f.getD 13 0, online := true } := by
  have hterm : ¬ (name ++ 0 :: f).contains 0 = false := by simp
  have hshort : (name ++ 0 :: f).length < (strBytes (name ++ 0 :: f)).length + 15 ↔ f.length < 14 := by
    rw [strBytes_append h, List.length_append, List.length_cons]
    omega
  rw [decodeDeviceInfo, if_neg hterm, bStr_append c.capDevName h]
  simp only [hshort]

/-- Fewer than 14 bytes after the terminator are rejected (R184). -/
theorem decodeDeviceInfo_short (c : Config) (origin : Byte) {name f : Bytes} (h : 0 ∉ name) (hf : f.length < 14) :
    decodeDeviceInfo c origin (name ++ 0 :: f) = none := by
  rw [decodeDeviceInfo_terminated c origin h, if_pos hf]

/-- A whole payload: the fields are the wire's big-endian values, and what follows them is ignored (R183, R185, R186). -/
theorem decodeDeviceInfo_fields (c : Config) (origin : Byte) {name : Bytes} (h : 0 ∉ name) (serial hwId fwId : Word32)
    (paramCount protoVer : Byte) (extra : Bytes) :
    decodeDeviceInfo c origin (name ++ 0 :: (be4 serial ++ (be4 hwId ++ (be4 fwId ++ (paramCount :: protoVer :: extra))))) =
      some { address := origin, name := name.take (c.capDevName.size - 1), serial := serial, hwId := hwId, fwId := fwId,
             paramCount := paramCount, protoVer := protoVer, online := true } := by
  have hlen : ¬ (be4 serial ++ (be4 hwId ++ (be4 fwId ++ (paramCount :: protoVer :: extra)))).length < 14 := by
    simp only [List.length_append, be4_length, List.length_cons]
    omega
  rw [decodeDeviceInfo_terminated c origin h, if_neg hlen]
  conv_rhs => rw [← beU_be4 serial, ← beU_be4 hwId, ← beU_be4 fwId]
  rfl

/-! ### OnDeviceInfo -/

/-- OnDeviceInfo outside SCANNING (R263). -/
theorem onDeviceInfo_of_not_scanning {c : Config} {origin : Byte} {p : Bytes} {s : State} (h : s.eng.req ≠ .scanning) :
    onDeviceInfo c origin p s = s :=
  if_neg h

/-- OnDeviceInfo of a payload that does not decode (R263). -/
theorem onDeviceInfo_of_rejected {c : Config} {origin : Byte} {p : Bytes} {s : State} (h : decodeDeviceInfo c origin p = none) :
    onDeviceInfo c origin p s = s := by
  simp only [onDeviceInfo, h, ite_self]

/-- OnDeviceInfo of a payload that decodes, while SCANNING (R263). -/
theorem onDeviceInfo_of_decoded {c : Config} {origin : Byte} {p : Bytes} {s : State} {r : DeviceInfo}
    (hs : s.eng.req = .scanning) (h : decodeDeviceInfo c origin p = some r) :
    onDeviceInfo c origin p s = (s.storeDevice c r).emit (.deviceFound r) := by
  rw [onDeviceInfo, if_pos hs, h]

/-- Settles O27: what decodes is stored where there is room and reported, and each way of not decoding leaves the state. -/
theorem deviceInfoResult : Obligations.DeviceInfoResult := by
  refine ⟨fun s dest origin name extra serial hwId fwId paramCount protoVer hs hname => ?decoded, fun s dest origin p hp => ?ignored⟩
  case decoded =>
    have hdec := decodeDeviceInfo_fields given origin hname serial hwId fwId paramCount protoVer extra
    have hon := onDeviceInfo_of_decoded hs hdec
    rw [State.storeDevice_eq] at hon
    simp only [List.append_assoc]
    exact congrArg Host.Outcome.next hon
  case ignored =>
    refine congrArg Host.Outcome.next ?_
    rcases hp with hs | hp | ⟨name, f, rfl, hname, hf⟩
    · exact onDeviceInfo_of_not_scanning hs
    · exact onDeviceInfo_of_rejected (decodeDeviceInfo_unterminated given origin hp)
    · rw [List.append_assoc]
      exact onDeviceInfo_of_rejected (decodeDeviceInfo_short given origin hname hf)

end Sys2Proof.Machine
end

section
/-! PROOF. The Protocol Engine: RX_BYTE on a frame with no handler (R261, R262), TICK (R232), and the commands that start and end
requests (R233 to R237). -/

namespace Sys2Proof.Machine

/-! ### RX_BYTE on the last byte of a frame -/

/-- The last byte of a frame whose CRC matches: RX_BYTE routes the whole frame, then resets the codec (R231, R260). -/
theorem rxByte_frame {c : Config} {s : State} {b len : Byte} {body : Bytes} (h : s.rx.inv rxLenMin = true)
    (hs : s.rx.state = .accum) (hf : Memory.readRange s.rx.buf 0 s.rx.count = some (syncByte :: len :: body))
    (hn : body.length + 1 = len.toNat) (hcrc : crc8 body = b) :
    rxByte c b s =
      thenResetRx (route c (syncByte :: len :: (body ++ [b])) { s with rx := { s.rx.push b with state := .complete } }) := by
  obtain ⟨len', body', e, hc, hl, -, -, -, -⟩ := Codec.inv_accum_bytes hs h hf
  cases e
  refine rxByte_done (n := false) ?_ (heldFrame_push b hl hn hc hf)
  rw [feed_accum_bytes b rfl hs h hf, if_pos hn, if_pos hcrc]

/-- A frame that is not refused for its length or its CRC is whole, its CRC matches, and Route's checks give the result. -/
theorem decodeFrame_checked {len b : Byte} {body : Bytes} {r : Except Reject Instr} (h1 : 1 ≤ len.toNat) (h2 : len.toNat ≤ 62)
    (hd : decodeFrame (syncByte :: len :: (body ++ [b])) = r) (hlen : r ≠ .error .frameLength) (hcrc : r ≠ .error .frameCrc) :
    body.length + 1 = len.toNat ∧ crc8 body = b ∧ (parseFrame (syncByte :: len :: (body ++ [b]))).bind frameInstr = r := by
  have hn : body.length + 1 = len.toNat := by
    by_contra hn
    exact hlen (hd.symm.trans (decodeFrame_partial b hn))
  rw [decodeFrame_whole b h1 h2 hn] at hd
  by_cases hb : crc8 body = b
  · rw [if_pos hb] at hd
    exact ⟨hn, hb, hd⟩
  · rw [if_neg hb] at hd
    exact absurd hd.symm hcrc

/-- Settles O14: each of the four reasons is one of Route's, so the frame is whole with a matching CRC, and no handler is run. -/
theorem rxByteIgnoresOtherFrames : Obligations.RxByteIgnoresOtherFrames := by
  intro s b f e hinv hs hf hd he
  obtain ⟨len, body, rfl, -, -, -, hlo, hhi, -⟩ := Codec.inv_accum_bytes hs hinv hf
  have hlen : (.error e : Except Reject Instr) ≠ .error .frameLength := by
    rintro ⟨⟩
    revert he
    decide
  have hcrc : (.error e : Except Reject Instr) ≠ .error .frameCrc := by
    rintro ⟨⟩
    revert he
    decide
  obtain ⟨hn, hb, hroute⟩ := decodeFrame_checked hlo hhi hd hlen hcrc
  refine (rxByte_frame hinv hs hf hn hb).trans ?_
  rw [route_other given hroute]
  rfl

/-! ### Complete, by the event of the request in progress -/

/-- Complete with a request in progress (R270): IDLE, the error where there is one, and the one event. -/
theorem State.complete_of_event {s : State} {ok : Bool} {ev : Event} (e : Option LastError)
    (h : completionEvent ok s.eng.req = some ev) :
    s.complete ok e = { s with eng := { s.eng with req := .idle, err := e.getD s.eng.err } }.plusEvents [ev] := by
  rw [State.complete_eq, h]
  rfl

/-! ### TICK -/

theorem expired_iff {now ref window : Time} : expired now ref window = true ↔ window ≤ now - ref := decide_eq_true_iff

/-- TICK while SCANNING (R232). -/
theorem tick_scanning (c : Config) {s : State} (h : s.eng.req = .scanning) :
    tick c s = if c.scanTimeout ≤ s.now - s.eng.scanStart then s.complete true none else s := by
  simp only [tick, h, expired_iff]

/-- TICK while READING (R232). -/
theorem tick_reading (c : Config) {s : State} (h : s.eng.req = .reading) :
    tick c s =
      if c.paramTimeout ≤ s.now - s.eng.lastActivity then s.complete false (some ⟨.readTimeout, s.eng.curParam⟩) else s := by
  simp only [tick, h, expired_iff]

/-- TICK while WRITING (R232). -/
theorem tick_writing (c : Config) {s : State} (h : s.eng.req = .writing) :
    tick c s =
      if c.paramTimeout ≤ s.now - s.eng.lastActivity then s.complete false (some ⟨.writeTimeout, s.eng.wParam⟩) else s := by
  simp only [tick, h, expired_iff]

/-- TICK in IDLE (R232). -/
theorem tick_idle (c : Config) {s : State} (h : s.eng.req = .idle) : tick c s = s := by
  simp only [tick, h]

/-- Settles O21, one request state after another: the window decides, and Complete reports the request that was in progress. -/
theorem tickResult : Obligations.TickResult := by
  intro s
  refine ⟨fun h => congrArg Host.Outcome.next ?scanning, fun h => congrArg Host.Outcome.next ?reading,
    fun h => congrArg Host.Outcome.next ?writing, fun h => congrArg Host.Outcome.next (tick_idle given h)⟩
  case scanning =>
    have hev : completionEvent true s.eng.req = some (.scanDone true false) := congrArg (completionEvent true) h
    rw [tick_scanning given h, State.complete_of_event none hev]
    rfl
  case reading =>
    have hev : completionEvent false s.eng.req = some (.loadDone false) := congrArg (completionEvent false) h
    rw [tick_reading given h, State.complete_of_event _ hev]
    rfl
  case writing =>
    have hev : completionEvent false s.eng.req = some (.writeDone false false) := congrArg (completionEvent false) h
    rw [tick_writing given h, State.complete_of_event _ hev]
    rfl

/-! ### START_SCAN and the cancels -/

/-- The DEVICE_PING of a scan is always these six bytes (R98). -/
theorem frameBytes_ping : frameBytes typeDevicePing addrBroadcast addrSelf [] = [0xC8, 0x04, 0x28, 0x00, 0xEA, 0x54] := by
  have htype : crcByte crcInit typeDevicePing = 0x8D := by decide
  have hdest : crcByte 0x8D addrBroadcast = 0xED := by decide
  have horigin : crcByte 0xED addrSelf = 0x54 := by decide
  have hcrc : crc8 [typeDevicePing, addrBroadcast, addrSelf] = 0x54 := by
    rw [crc8, List.foldl_cons, htype, List.foldl_cons, hdest, List.foldl_cons, horigin, List.foldl_nil]
  exact congrArg (fun c => [syncByte, 0x04, typeDevicePing, addrBroadcast, addrSelf, c]) hcrc

/-- Settles O22: the busy test decides, and the scan's one frame is the PING. -/
theorem startScanResult : Obligations.StartScanResult := by
  intro s
  refine ⟨fun h => (if_neg (not_not_intro h)).trans ?_, fun h => if_pos h⟩
  rw [State.sendPing_eq, frameBytes_ping]
  rfl

/-- Settles O23: each cancel tests its own request state. -/
theorem cancelResults : Obligations.CancelResults := fun s =>
  ⟨(apply_ite Host.Outcome.next (s.eng.req = .scanning) _ _).symm, (apply_ite Host.Outcome.next (s.eng.req = .reading) _ _).symm⟩

/-! ### LOAD_PARAMS and WRITE_PARAM -/

/-- Settles O24: the registers of a load are set first, in every request state; the count then decides between the first PARAM_READ
and the completion of an empty load. -/
theorem loadParamsResult : Obligations.LoadParamsResult := by
  intro s dev cnt
  refine ⟨fun h => ?sent, fun h => ?empty⟩
  case sent =>
    refine (if_neg h).trans ?_
    rw [State.sendParamRead_eq]
    rfl
  case empty =>
    refine (if_pos h).trans ?_
    rw [State.complete_of_event (ev := .loadDone true) none rfl, h]
    rfl

/-- Settles O25: the operand range, then the busy test, decide between the three results; a write that is sent ends at once. -/
theorem writeParamResult : Obligations.WriteParamResult := by
  intro s dev param v
  have hexec : exec (.writeParam dev param v) s = _ := execWriteParam_eq dev param v s
  rw [hexec]
  refine ⟨fun hv => ?refused, fun hv hreq => ?busy, fun hv hreq => ?sent⟩
  case refused => exact if_neg (Bool.eq_false_iff.mp (writeOperandsOk_eq_false_iff.mpr hv))
  case busy => exact (if_pos (writeOperandsOk_iff.mpr hv)).trans (if_pos hreq)
  case sent =>
    rw [if_pos (writeOperandsOk_iff.mpr hv), if_neg (not_not_intro hreq),
      State.complete_of_event (ev := .writeDone true false) none rfl, ← hreq]
    rfl

end Sys2Proof.Machine
end

section
/-! PROOF. Exceptions: a malformed command is reported and not performed (R122, R230, R307). -/

namespace Sys2Proof.Machine

/-! ### The step on a presented command (R230) -/

/-- A command that decodes is run, the input taken and its time latched. -/
theorem step_of_decodeCommand_ok {s : State} {c : Bytes} {t : Time} {rest : List HostInput} {i : Instr}
    (hin : s.inputs = ⟨c, t, false⟩ :: rest) (hd : decodeCommand c = .ok i) :
    step s = exec i { s with now := t, inputs := rest } := by
  simp only [step, fetch, hin, present, hd, Bool.false_eq_true, if_false]

/-- A command that does not decode is answered in place of being run. -/
theorem step_of_decodeCommand_error {s : State} {c : Bytes} {t : Time} {rest : List HostInput} {r : CmdReason}
    (hin : s.inputs = ⟨c, t, false⟩ :: rest) (hd : decodeCommand c = .error r) :
    step s = .next ({ s with now := t, inputs := rest }.malformed (c.headD 0x00) r) := by
  simp only [step, fetch, hin, present, hd, Bool.false_eq_true, if_false]

/-! ### Malformed commands -/

/-- A command that decodes with an operand out of range only reports: it is one of the two that have an operand range (R122). -/
theorem exec_of_wf_eq_false {c : Bytes} {i : Instr} (hd : decodeCommand c = .ok i) (hwf : i.wf = false) (s : State) :
    exec i s = .next (s.malformed (c.headD 0x00) .badOperand) := by
  have hshape := malformedReason_badOperand_shapes.mp (malformedReason_badOperand_iff.mpr ⟨i, hd, hwf⟩)
  rcases hshape with ⟨dev, param, v, hlong, hv, rfl⟩ | ⟨type, dest, origin, p, hout, hp, rfl⟩
  · obtain rfl : i = .writeParam dev param v := Except.ok.inj (hd.symm.trans (decodeCommand_write dev param v hv))
    obtain ⟨hrefused, -⟩ := writeParamResult s dev param v
    exact hrefused hlong
  · obtain rfl : i = .txFrame type dest origin p := Except.ok.inj (hd.symm.trans (decodeCommand_tx type dest origin p hp))
    obtain ⟨-, hrefused⟩ := txFrameResult s type dest origin p
    exact hrefused hout.symm

/-- The step on a malformed command, whether decoding refuses it or its operand range does (R122, R307). -/
theorem step_malformed {s : State} {c : Bytes} {t : Time} {rest : List HostInput} {r : CmdReason}
    (hin : s.inputs = ⟨c, t, false⟩ :: rest) (hr : malformedReason c = some r) :
    step s = .next ({ s with now := t, inputs := rest }.malformed (c.headD 0x00) r) := by
  cases hd : decodeCommand c with
  | error e =>
    obtain rfl : e = r := Option.some.inj ((malformedReason_of_error hd).symm.trans hr)
    exact step_of_decodeCommand_error hin hd
  | ok i =>
    obtain ⟨hwf, rfl⟩ : i.wf = false ∧ .badOperand = r := by simpa [malformedReason_of_ok hd] using hr
    exact (step_of_decodeCommand_ok hin hd).trans (exec_of_wf_eq_false hd hwf _)

/-- Settles O8: the step takes the input and latches its time, and the report is all else that it changes. -/
theorem malformedCommandReported : Obligations.MalformedCommandReported := fun _ _ t rest _ hin hr =>
  ⟨t, rest, step_malformed hin hr⟩

end Sys2Proof.Machine
end

section
/-! PROOF. Reset: a step whose input has `reset` = 1 performs ResetAll and no command (R340, R341). -/

namespace Sys2Proof.Machine

/-- An input with its reset bit set is taken and supplies no instruction, whatever its command and time (R340). -/
theorem fetch_of_reset {s : State} {c : Bytes} {t : Time} {rest : List HostInput} (hin : s.inputs = ⟨c, t, true⟩ :: rest) :
    fetch s = ({ s with inputs := rest }.resetAll, none) := by
  simp only [fetch, hin, if_true]

/-- With no instruction supplied, ResetAll is all that the step does (R341). -/
theorem step_of_reset {s : State} {c : Bytes} {t : Time} {rest : List HostInput} (hin : s.inputs = ⟨c, t, true⟩ :: rest) :
    step s = .next { s with inputs := rest }.resetAll := by
  simp only [step, fetch_of_reset hin]

/-- Settles O9: the step is ResetAll on the state with the input taken, and the time latch keeps its value (log 20). -/
theorem resetStep : Obligations.ResetStep := fun s _ _ rest hin =>
  ⟨s.now, rest, step_of_reset hin⟩

end Sys2Proof.Machine
end

section
/-! PROOF. The three encoding spaces: decoding what the encoder gives and encoding what decodes (30_encoding.md sections 1, 3 and
4), the words and frames written out in the spec, and the encoder's bounds (R155). -/

namespace Sys2Proof

/-! ### Frames and records, both ways -/

/-- An encoded frame decodes to the instruction of its fields. -/
theorem decode_frameBytes {t d o : Byte} {p : Bytes} {i : Instr} (ht : 0x28 ≤ t) (hp : payloadOk p = true)
    (hi : frameInstr ⟨t, d, o, p⟩ = .ok i) : decode .frameType (frameBytes t d o p) = .ok i :=
  (decodeFrame_frameBytes ht (payloadOk_iff.mp hp)).trans hi

/-- An encoded record decodes to the instruction of its head. -/
theorem decode_encodeRecord (parent : Byte) (hidden : Bool) (k : ParamKind) {body : Bytes} (h : bodyOk body = true) :
    decode .paramKind (encodeRecord parent hidden k body) = .ok (recordInstr ⟨parent, hidden, k, body⟩) := by
  simp only [decode, decodeRecord, parseRecord_encodeRecord parent hidden k (bodyOk_iff.mp h)]
  rfl

/-- A record's instruction is encoded from its head. -/
theorem encode_recordInstr (h : RecordHead) : encode (recordInstr h) = encodeRecord h.parent h.hidden h.kind h.body := by
  obtain ⟨parent, hidden, kind, body⟩ := h
  cases kind <;> rfl

/-- The default table maps a code to the kind whose code it is. -/
theorem kindCodeOf_of_lookup {code : BitVec 6} {k : ParamKind} (h : kindCodeDefault.lookup code = some k) :
    kindCodeOf k = code := by
  have hall : ∀ x ∈ kindCodeDefault, kindCodeOf x.2 = x.1 := by decide
  obtain ⟨l₁, l₂, hl, -⟩ := List.lookup_eq_some_iff.mp h
  exact hall (code, k) (by rw [hl]; simp)

/-- A type byte with bit 6 clear is its hidden flag and its kind field (R107). -/
theorem typeByte_of_fields {tb : Byte} {k : ParamKind} (hk : kindCodeOf k = kindField tb) (h6 : tb.getLsbD 6 = false) :
    typeByte (hiddenBit tb) k = tb := by
  refine BitVec.eq_of_getLsbD_eq fun i hi => ?_
  rw [typeByte, hk, BitVec.getLsbD_append, BitVec.getLsbD_append, kindField, BitVec.getLsbD_extractLsb', hiddenBit]
  by_cases hlow : i < 6
  · simp [hlow]
  · obtain rfl | rfl : i = 6 ∨ i = 7 := by omega
    · simpa using h6
    · simp

/-- What a record that decodes looks like: the encoding of its head, where bit 6 is clear (R106, R107). -/
theorem decodeRecord_ok {parent tb : Byte} {body : Bytes} {i : Instr} (h : decodeRecord (parent :: tb :: body) = .ok i)
    (h6 : tb.getLsbD 6 = false) : ∃ k, i = recordInstr ⟨parent, hiddenBit tb, k, body⟩ ∧ typeByte (hiddenBit tb) k = tb := by
  cases body with
  | nil => cases h
  | cons c tail =>
    simp only [decodeRecord, parseRecord] at h
    cases hk : kindCodeDefault.lookup (kindField tb) with
    | none => rw [hk] at h; cases h
    | some k =>
      rw [hk] at h
      cases h
      exact ⟨k, rfl, typeByte_of_fields (kindCodeOf_of_lookup hk) h6⟩

/-- Settles O2: in each space the lemma of that space's layout; the operand ranges are what makes the n and length bytes fit. -/
theorem decodeEncodeRoundTrip : Obligations.DecodeEncodeRoundTrip := by
  intro i hwf
  cases i
  case rxByte | tick | startScan | cancelScan | loadParams | cancelLoad | ptByte | ptConsume => rfl
  case writeParam dev param v =>
    have hv := writeOperandsOk_iff.mp hwf
    exact congrArg (Except.mapError Reject.command) (decodeCommand_write dev param v (by omega))
  case txFrame type dest origin p =>
    obtain ⟨-, hp⟩ := txOperandsOk_iff.mp hwf
    exact congrArg (Except.mapError Reject.command) (decodeCommand_tx type dest origin p (by omega))
  case devicePing | deviceInfo | paramEntry | paramRead | paramWrite => exact decode_frameBytes (by decide) hwf rfl
  all_goals exact decode_encodeRecord _ _ _ hwf

/-- What decodes as a command is what the encoder gives for it (R120, R121). -/
theorem encode_of_decodeCommand {c : Bytes} {i : Instr} (h : decodeCommand c = .ok i) : encode i = c := by
  rcases decodeCommand_ok h with ⟨_, rfl, rfl⟩ | ⟨rfl, rfl⟩ | ⟨rfl, rfl⟩ | ⟨rfl, rfl⟩ | ⟨_, _, rfl, rfl⟩ | ⟨rfl, rfl⟩ |
    ⟨_, _, _, -, rfl, rfl⟩ | ⟨_, rfl, rfl⟩ | ⟨rfl, rfl⟩ | ⟨_, _, _, _, -, rfl, rfl⟩ <;> rfl

theorem decode_hostCmd_ok_iff {c : Bytes} {i : Instr} : decode .hostCmd c = .ok i ↔ decodeCommand c = .ok i := by
  rw [decode]
  cases decodeCommand c <;> simp [Except.mapError]

/-- Settles O3, space by space: what decodes has the layout its instruction is encoded in. -/
theorem encodeDecodeRoundTrip : Obligations.EncodeDecodeRoundTrip := by
  refine ⟨fun c i h => encode_of_decodeCommand (decode_hostCmd_ok_iff.mp h), fun f i h => ?frame,
    fun parent tb body i h h6 => ?record⟩
  case frame =>
    obtain ⟨t, d, o, p, -, -, rfl, hi⟩ := decodeFrame_ok h
    exact (frameInstr_ok hi).2
  case record =>
    obtain ⟨k, rfl, htb⟩ := decodeRecord_ok h h6
    rw [encode_recordInstr, encodeRecord, htb]

/-! ### The encoder -/

/-- Settles O58: Encode's one test is the operand range of R122. -/
theorem encoderResult : Obligations.EncoderResult := by
  intro t d o p
  refine ⟨fun ht hp => ?gives, fun hp => ?long, fun ht => ?standard⟩
  case gives =>
    rw [encodeFrame, if_pos (txOperandsOk_iff.mpr ⟨ht, hp⟩), frameBytes]
    simp [syncByte]
  case long => exact if_neg (Bool.eq_false_iff.mp (txOperandsOk_eq_false_iff.mpr (.inl hp)))
  case standard => exact if_neg (Bool.eq_false_iff.mp (txOperandsOk_eq_false_iff.mpr (.inr ht)))

/-- Settles O5: the PING is within the encoder's bounds, and its six bytes are those of `frameBytes_ping`. -/
theorem devicePingFrame : Obligations.DevicePingFrame := (if_pos rfl).trans (congrArg some Machine.frameBytes_ping)

/-! ### Words written out -/

/-- The PARAM_READ of the spec's example is an encoded frame. -/
theorem frameBytes_paramRead :
    frameBytes typeParamRead 0xEE 0xEA [0x01, 0x00] = [0xC8, 0x06, 0x2C, 0xEE, 0xEA, 0x01, 0x00, 0x86] := by
  have hcrc : Machine.crc8 [0x2C, 0xEE, 0xEA, 0x01, 0x00] = 0x86 := by
    simp [Machine.crc8, Machine.crcByte, Machine.crcRounds, Machine.crcShift, crcInit, crcPoly, BitVec.msb_eq_decide]
  exact congrArg (fun c => [syncByte, 0x06, typeParamRead, 0xEE, 0xEA, 0x01, 0x00, c]) hcrc

/-- Settles O1: the commands and the records by their bytes, the frames as what the encoder gives. -/
theorem writtenWordsDecode : Obligations.WrittenWordsDecode := by
  refine ⟨rfl, rfl, rfl, ?ping, ?read, rfl, rfl⟩
  case ping =>
    rw [← Machine.frameBytes_ping]
    exact decode_frameBytes (by decide) rfl rfl
  case read =>
    rw [← frameBytes_paramRead]
    exact decode_frameBytes (by decide) rfl rfl

end Sys2Proof
end

section
/-! PROOF. The CRC (R141), a frame fed byte by byte (R157), and RX_BYTE within a frame and on its last byte (R143 to R146, R231). -/

namespace Sys2Proof.Machine

/-! ### The CRC -/

theorem crc8_append_singleton (s : Bytes) (b : Byte) : crc8 (s ++ [b]) = crcByte (crc8 s) b := by
  rw [crc8, List.foldl_append]
  rfl

/-- A byte equal to the CRC so far cancels it, and 8 rounds leave 0. -/
theorem crcByte_self (c : Byte) : crcByte c c = 0x00 := by
  rw [crcByte, BitVec.xor_self]
  decide

/-- Settles O43: the listed values by computation, and the residue from the last byte cancelling the CRC before it. -/
theorem crcCornerCases : Obligations.CrcCornerCases := by
  refine ⟨rfl, by decide, by decide, by decide, by decide, ?check, fun s => ?residue⟩
  case check => simp [crc8, crcByte, crcRounds, crcShift, crcInit, crcPoly, BitVec.msb_eq_decide]
  case residue => rw [crc8_append_singleton, crcByte_self]

/-! ### A frame fed byte by byte -/

theorem feedAll_cons {m : MemName} {lmin : Nat} {u v : Codec} {b : Byte} {bs : Bytes} {done noise : Bool}
    (h : feed m lmin u b = .ok ⟨v, done, noise⟩) :
    feedAll m lmin u (b :: bs) = (feedAll m lmin v bs).map fun x => (x.1, done :: x.2) := by
  simp only [feedAll, h]
  cases feedAll m lmin v bs <;> rfl

/-- A codec in ACCUM that meets its invariant and holds the given bytes of a frame. -/
structure Codec.Holds (lmin : Nat) (len : Byte) (body : Bytes) (u : Codec) : Prop where
  state : u.state = .accum
  inv : u.inv lmin = true
  bytes : Memory.readRange u.buf 0 u.count = some (syncByte :: len :: body)

/-- A frame whose SYNC and admitted length byte have come. -/
theorem Codec.holds_nil {lmin : Nat} {len : Byte} (h1 : 1 ≤ lmin) (h : lenAdmitted lmin len = true) :
    Codec.Holds lmin len [] { state := .accum, buf := [(0, syncByte), (1, len)], count := 2 } where
  state := rfl
  inv := by
    obtain ⟨hlo, hhi⟩ := lenAdmitted_iff.mp h
    exact (Codec.inv_accum rfl).mpr ⟨rfl, le_rfl, rfl, len, rfl, hlo, hhi, show 2 < len.toNat + 2 by omega⟩
  bytes := rfl

/-- One more byte of a frame that is not its last. -/
theorem Codec.Holds.push {m : MemName} {lmin : Nat} {len : Byte} {body : Bytes} {u : Codec} (h : u.Holds lmin len body)
    (hm : m.size = maxFrame) (h1 : 1 ≤ lmin) (b : Byte) (hn : body.length + 1 ≠ len.toNat) :
    feed m lmin u b = .ok ⟨u.push b, false, false⟩ ∧ (u.push b).Holds lmin len (body ++ [b]) := by
  obtain ⟨hs, hinv, hf⟩ := h
  have hfeed : feed m lmin u b = .ok ⟨u.push b, false, false⟩ := by rw [feed_accum_bytes b hm hs hinv hf, if_neg hn]
  obtain ⟨r, hr, hrinv, -⟩ := feed_of_inv b hm h1 hinv
  obtain rfl : _ = r := Except.ok.inj (hfeed.symm.trans hr)
  exact ⟨hfeed, hs, hrinv, Memory.readRange_append hf [b]⟩

/-- The bytes of a frame up to its last one: none completes it. -/
theorem Codec.Holds.feedAll_rest {m : MemName} {lmin : Nat} {len : Byte} {body rest : Bytes} {u : Codec}
    (h : u.Holds lmin len body) (hm : m.size = maxFrame) (h1 : 1 ≤ lmin) (hn : body.length + rest.length + 1 ≤ len.toNat)
    (bs : Bytes) :
    ∃ v, v.Holds lmin len (body ++ rest) ∧
      feedAll m lmin u (rest ++ bs) =
        (feedAll m lmin v bs).map fun x => (x.1, List.replicate rest.length false ++ x.2) := by
  induction rest generalizing u body with
  | nil =>
    refine ⟨u, by simpa using h, ?_⟩
    rw [List.nil_append]
    cases feedAll m lmin u bs <;> rfl
  | cons b rest ih =>
    rw [List.length_cons] at hn
    obtain ⟨hfeed, hpush⟩ := h.push hm h1 b (by omega)
    obtain ⟨v, hv, hall⟩ := ih hpush (by simp only [List.length_append, List.length_singleton]; omega)
    refine ⟨v, by simpa using hv, ?_⟩
    rw [List.cons_append, feedAll_cons hfeed, hall]
    cases feedAll m lmin v bs <;> rfl

/-- The last byte of a frame whose CRC matches: the codec holds the whole frame (R146, R149). -/
theorem Codec.Holds.complete {m : MemName} {lmin : Nat} {len : Byte} {body : Bytes} {u : Codec} (h : u.Holds lmin len body)
    (hm : m.size = maxFrame) (hn : body.length + 1 = len.toNat) :
    ∃ v, feed m lmin u (crc8 body) = .ok ⟨v, true, false⟩ ∧ v.state = .complete ∧
      heldFrame m v = .ok (syncByte :: len :: (body ++ [crc8 body])) := by
  obtain ⟨hs, hinv, hf⟩ := h
  obtain ⟨len', body', e, hc, hl, -, -, -, -⟩ := Codec.inv_accum_bytes hs hinv hf
  cases e
  exact ⟨_, by rw [feed_accum_bytes _ hm hs hinv hf, if_pos hn, if_pos rfl], rfl, heldFrame_push _ hl hn hc hf⟩

/-- The two bytes that begin a frame. -/
theorem feedAll_head {m : MemName} {lmin : Nat} {len : Byte} {v : Codec} {noise : Bool} (bs : Bytes)
    (h : feed m lmin { state := .awaitLen, buf := [(0, syncByte)], count := 1 } len = .ok ⟨v, false, noise⟩) :
    feedAll m lmin Codec.fresh (syncByte :: len :: bs) = (feedAll m lmin v bs).map fun x => (x.1, false :: false :: x.2) := by
  have hsync : feed m lmin Codec.fresh syncByte =
      .ok ⟨{ state := .awaitLen, buf := [(0, syncByte)], count := 1 }, false, false⟩ := rfl
  rw [feedAll_cons hsync, feedAll_cons h]
  cases feedAll m lmin v bs <;> rfl

/-- A whole frame fed to a codec that seeks SYNC, its CRC matching: its last byte completes it and no other does. -/
theorem feedAll_frame {m : MemName} {lmin : Nat} {len : Byte} {body : Bytes} (hm : m.size = maxFrame) (h1 : 1 ≤ lmin)
    (hl : lenAdmitted lmin len = true) (hn : body.length + 1 = len.toNat) :
    ∃ u, feedAll m lmin Codec.fresh (syncByte :: len :: (body ++ [crc8 body])) =
        .ok (u, List.replicate (body.length + 2) false ++ [true]) ∧
      u.state = .complete ∧ heldFrame m u = .ok (syncByte :: len :: (body ++ [crc8 body])) := by
  have hlen : feed m lmin { state := .awaitLen, buf := [(0, syncByte)], count := 1 } len =
      .ok ⟨{ state := .accum, buf := [(0, syncByte), (1, len)], count := 2 }, false, false⟩ := by
    rw [feed_awaitLen len rfl, feedLen, if_pos hl]
    rfl
  obtain ⟨v, hv, hbody⟩ := (Codec.holds_nil h1 hl).feedAll_rest (rest := body) hm h1 (by simp; omega) [crc8 body]
  rw [List.nil_append] at hv
  obtain ⟨u, hfeed, hs, hheld⟩ := hv.complete hm hn
  refine ⟨u, ?_, hs, hheld⟩
  rw [feedAll_head _ hlen, hbody, feedAll_cons hfeed]
  rfl

/-- A length byte that is not admitted resets the codec (R144). -/
theorem feedAll_rejected {m : MemName} {lmin : Nat} {len : Byte} (hl : lenAdmitted lmin len = false) :
    feedAll m lmin Codec.fresh [syncByte, len] = .ok (Codec.fresh, [false, false]) := by
  have hlen : feed m lmin { state := .awaitLen, buf := [(0, syncByte)], count := 1 } len = .ok ⟨Codec.fresh, false, true⟩ := by
    rw [feed_awaitLen len rfl, feedLen, if_neg (Bool.eq_false_iff.mp hl)]
  rw [feedAll_head _ hlen]
  rfl

/-- Settles O44: the length byte of a payload of at most 58 bytes is admitted and its frame then fed whole; that of 59 or 60 bytes
is past the bound. -/
theorem encodeThenFeedRoundTrip : Obligations.EncodeThenFeedRoundTrip := by
  refine ⟨fun t d o p ht hp => ?fed, fun t d o p hp => ⟨?refused, ?rejected⟩⟩
  case fed =>
    have hlen : (BitVec.ofNat 8 (p.length + 4)).toNat = p.length + 4 := ofNat8_toNat (by omega)
    obtain ⟨u, hfeed, hs, hheld⟩ := feedAll_frame (m := .rxbuf) (lmin := 1) (len := BitVec.ofNat 8 (p.length + 4))
      (body := [t, d, o] ++ p) rfl le_rfl (lenAdmitted_iff.mpr (by omega)) (by simp [hlen])
    have hframe : frameBytes t d o p =
        syncByte :: BitVec.ofNat 8 (p.length + 4) :: ([t, d, o] ++ p ++ [crc8 ([t, d, o] ++ p)]) := rfl
    refine ⟨frameBytes t d o p, u, if_pos (txOperandsOk_iff.mpr ⟨ht, hp⟩), ?_, hs, hframe ▸ hheld, parseFrame_frameBytes ht hp⟩
    rw [hframe, hfeed]
    simp
  case refused => exact if_neg (Bool.eq_false_iff.mp (txOperandsOk_eq_false_iff.mpr (.inl (by omega))))
  case rejected =>
    have hlen : (BitVec.ofNat 8 (p.length + 4)).toNat = p.length + 4 := ofNat8_toNat (by omega)
    refine feedAll_rejected (Bool.eq_false_iff.mpr fun h => ?_)
    have := lenAdmitted_iff.mp h
    omega

/-! ### RX_BYTE -/

/-- Settles O11, one receive state after another. -/
theorem rxByteWithinFrame : Obligations.RxByteWithinFrame := by
  intro s b hinv
  refine ⟨fun hs => ?sync, fun hs => ?len, fun len hs hl hn => ?accum⟩
  case sync =>
    have hfeed := feed_awaitSync_of_inv (m := .rxbuf) b hs hinv
    by_cases hb : b = 0xC8
    · rw [if_pos hb] at hfeed ⊢
      exact rxByte_open hfeed
    · rw [if_neg hb] at hfeed ⊢
      exact rxByte_open hfeed
  case len =>
    have hfeed := feed_awaitLen_of_inv (m := .rxbuf) b hs hinv
    by_cases hb : 1 ≤ b.toNat ∧ b.toNat ≤ 62
    · rw [if_pos hb] at hfeed ⊢
      exact rxByte_open hfeed
    · rw [if_neg hb] at hfeed ⊢
      exact rxByte_open hfeed
  case accum =>
    refine ⟨_, ?_, Codec.read_push s.rx b⟩
    rw [← hs]
    exact rxByte_open (feed_accum_more_of_inv b rfl hs hinv hl hn)

/-- A frame refused for its CRC is whole, and its CRC does not match. -/
theorem decodeFrame_badCrc {len b : Byte} {body : Bytes} (h1 : 1 ≤ len.toNat) (h2 : len.toNat ≤ 62)
    (hd : decodeFrame (syncByte :: len :: (body ++ [b])) = .error .frameCrc) : body.length + 1 = len.toNat ∧ crc8 body ≠ b := by
  have hn : body.length + 1 = len.toNat := by
    by_contra hn
    rw [decodeFrame_partial b hn] at hd
    cases hd
  refine ⟨hn, fun hb => ?_⟩
  rw [decodeFrame_whole b h1 h2 hn, if_pos hb] at hd
  cases hp : parseFrame (syncByte :: len :: (body ++ [b])) with
  | error e =>
    rw [hp] at hd
    cases hd
    simpa using parseFrame_error hp
  | ok fr =>
    rw [hp] at hd
    exact absurd (frameInstr_error hd).1 (by decide)

/-- Settles O12: the codec's own check of the CRC is the decoder's. -/
theorem rxByteBadCrcDiscards : Obligations.RxByteBadCrcDiscards := by
  intro s b f hinv hs hf hd
  obtain ⟨len, body, rfl, -, -, -, hlo, hhi, -⟩ := Codec.inv_accum_bytes hs hinv hf
  obtain ⟨hn, hb⟩ := decodeFrame_badCrc hlo hhi hd
  have hfeed := feed_accum_bytes (m := .rxbuf) b rfl hs hinv hf
  rw [if_pos hn, if_neg hb] at hfeed
  exact rxByte_open hfeed

/-- Settles O13: the frame routed is the frame decoded, its handler does not depend on the codec, and the codec is then reset. -/
theorem rxByteRunsFrameInstruction : Obligations.RxByteRunsFrameInstruction := by
  intro s t b f i hinv hs hf hd ht
  obtain ⟨len, body, rfl, -, -, -, hlo, hhi, -⟩ := Codec.inv_accum_bytes hs hinv hf
  obtain ⟨hn, hb, hroute⟩ := decodeFrame_checked hlo hhi hd (by simp) (by simp)
  refine (rxByte_frame hinv hs hf hn hb).trans ?_
  have hrun := route_instr hroute s
  rw [ht] at hrun
  obtain ⟨-, hpt⟩ := route_codecs hrun
  have hheld := route_withCodecs hrun { s.rx.push b with state := .complete } s.pt
  rw [State.withCodecs] at hheld
  rw [hheld, thenResetRx, State.withCodecs, ← hpt]
  rfl

end Sys2Proof.Machine
end

section
/-! PROOF. The received frames the engine ignores (R262, R264) and the three results of an accepted PARAM_ENTRY (R265 to R268). -/

namespace Sys2Proof.Machine

/-- Settles O28: the three handlers of R262 answer the state they are given. -/
theorem sentTypesIgnored : Obligations.SentTypesIgnored := fun _ _ _ _ => ⟨rfl, rfl, rfl⟩

/-- Settles O29: a PARAM_ENTRY that is not ignored is while READING, has a header, and matches the target and the parameter. -/
theorem paramEntryIgnored : Obligations.ParamEntryIgnored := by
  intro s dest origin p h
  rcases onParamEntry_cases (c := given) (o := origin) (p := p) (s := s) with e | ⟨remaining, data, rfl, rfl, hr, -⟩
  · exact e
  · rcases h with h | h | h | h
    · exact absurd hr h
    · simp only [List.length_cons] at h
      omega
    · exact absurd rfl h
    · exact absurd rfl h

/-- PARAM_ENTRY from the target for the current parameter, while READING (R264). -/
theorem onParamEntry_of_match (c : Config) {s : State} (h : s.eng.req = .reading) (remaining : Byte) (data : Bytes) :
    onParamEntry c s.eng.target (s.eng.curParam :: remaining :: data) s = acceptChunk c remaining data s := by
  rw [onParamEntry, if_pos h]
  exact if_pos ⟨rfl, rfl⟩

/-- All that starting a chunk does (R265). -/
theorem startChunk_eq (s : State) :
    startChunk s = { s with reasm := if s.eng.curChunk = 0 then { buf := [], len := 0 } else s.reasm } := by
  unfold startChunk
  split <;> rfl

/-- Settles O30: the chunk is measured against the buffer `startChunk` leaves, and Complete reports the load. -/
theorem paramEntryOverflow : Obligations.ParamEntryOverflow := by
  intro s dest remaining data hr held ho
  refine (onParamEntry_of_match given hr remaining data).trans ?_
  have hev : completionEvent false (startChunk s).eng.req = some (.loadDone false) := by
    rw [startChunk_eng, hr]
    rfl
  rw [acceptChunk_overflow (by rw [startChunk_reasm]; exact ho), State.complete_of_event _ hev, startChunk_eq]
  rfl

/-- Every byte of a memory after a range is written. -/
theorem Memory.read_writeRange (m : Memory) (i a : Nat) (bs : Bytes) :
    Memory.read (Memory.writeRange m i bs) a = if i ≤ a ∧ a < i + bs.length then bs[a - i]? else Memory.read m a := by
  by_cases h : i ≤ a ∧ a < i + bs.length
  · obtain ⟨hlo, hhi⟩ := h
    rw [if_pos ⟨hlo, hhi⟩, Memory.readRange_getElem? (Memory.readRange_writeRange bs m i) (a - i) (by omega),
      Nat.add_sub_cancel' hlo]
  · rw [if_neg h, Memory.read_writeRange_other bs m i a (by omega)]

/-- All that storing a chunk does (R265), the buffer apart. -/
theorem storedChunk_eq (s : State) (data : Bytes) :
    ((startChunk s).appendReasm data).stamp =
      { s with reasm := ((startChunk s).appendReasm data).reasm, eng := { s.eng with lastActivity := s.now } } := by
  rw [startChunk_eq]
  rfl

/-- Settles O31: the chunk is appended to the buffer `startChunk` leaves, and NextChunk asks for the chunk after it. -/
theorem paramEntryNextChunk : Obligations.ParamEntryNextChunk := by
  intro s dest remaining data hr hrem base hfit
  have hbase : (startChunk s).reasm.len = base := by
    rw [startChunk_reasm]
    exact apply_ite Reasm.len _ _ _
  refine ⟨Memory.writeRange (startChunk s).reasm.buf base data, ?_, fun a => ?_⟩
  · refine (onParamEntry_of_match given hr remaining data).trans ?_
    rw [acceptChunk_next (by rw [hbase]; exact hfit) hrem, storedChunk_eq, nextChunk_eq, ← hbase]
    rfl
  · rw [Memory.read_writeRange, startChunk_reasm]
    by_cases h0 : s.eng.curChunk = 0
    · rw [if_pos h0, if_pos h0]
      rfl
    · rw [if_neg h0, if_neg h0]

/-- `s` when its current parameter's record has come, with the events of its delivery: the next parameter requested, or the load
completed (R267, R268). -/
def State.movedOn (s : State) (delivered : List Event) : State :=
  if s.eng.count ≤ s.eng.curParam then
    { s with
      reasm := { buf := [], len := 0 }
      eng := { s.eng with req := .idle, curParam := s.eng.curParam + 1, curChunk := 0, lastActivity := s.now } }.plusEvents
        (delivered ++ [Event.loadDone true])
  else
    ({ s with
      reasm := { buf := [], len := 0 }
      eng := { s.eng with curParam := s.eng.curParam + 1, curChunk := 0, lastActivity := s.now } }.plusEvents delivered).plusTx
        (frameBytes typeParamRead s.eng.target addrSelf [s.eng.curParam + 1, 0])

/-- All that AcceptChunk does at the last chunk of a record, its bytes reading whole (R265, R267, R268). -/
theorem acceptChunk_last_of_bytes {c : Config} {data d : Bytes} {s : State} (hr : s.eng.req = .reading)
    (hfit : (startChunk s).reasm.len + data.length ≤ reasmCap)
    (hd : ((startChunk s).appendReasm data).reasm.bytes = some d) :
    acceptChunk c 0 data s = .next (s.movedOn ((decodeParameter c s.eng.curParam d).map Event.param).toList) := by
  have hlast := lastChunk_of_bytes (c := c) (s := ((startChunk s).appendReasm data).stamp) hd
  rw [storedChunk_eq, State.deliver_eq, advanceParam_eq] at hlast
  rw [acceptChunk_last hfit, storedChunk_eq, hlast, State.movedOn]
  by_cases hc : s.eng.count ≤ s.eng.curParam
  · rw [if_pos hc, if_pos hc, State.plusEvents, ← List.append_assoc]
    simp only [hr]
    rfl
  · rw [if_neg hc, if_neg hc]
    rfl

/-- Settles O32: the bytes the buffer holds after the chunk are decoded, and the load moves on. -/
theorem paramEntryLastChunk : Obligations.ParamEntryLastChunk := by
  intro s dest held data hr hheld hfit delivered
  have hbytes : (startChunk s).reasm.bytes = some held := by
    rw [startChunk_reasm]
    by_cases h0 : s.eng.curChunk = 0
    · rw [if_pos h0] at hheld ⊢
      rw [hheld]
      rfl
    · rw [if_neg h0] at hheld ⊢
      exact hheld
  refine (onParamEntry_of_match given hr 0 data).trans ?_
  rw [acceptChunk_last_of_bytes hr (by rw [← Reasm.bytes_length hbytes]; exact hfit) (appendReasm_bytes hbytes data)]
  rfl

end Sys2Proof.Machine
end

section
/-! PROOF. The parameter codec: fields (R17, R73), rejected records (R189, R191), the kinds as instructions (R193), and what the six
integer kinds deliver (R195 to R200). -/

namespace Sys2Proof.Machine

/-! ### Fields and rejected records -/

/-- Settles O6, by the widths a field has. -/
theorem fieldsAreBigEndian : Obligations.FieldsAreBigEndian :=
  ⟨fun x => ⟨beU_one x, beS_one x⟩, fun x => ⟨beU_be2 x, beS_be2 x⟩, fun x => ⟨beU_be4 x, beS_be4 x⟩⟩

/-- A record of fewer than 3 bytes has no head (R189). -/
theorem parseRecord_short (kinds : List (BitVec 6 × ParamKind)) {d : Bytes} (h : d.length < 3) :
    parseRecord kinds d = .error .recordTooShort := by
  match d, h with
  | [], _ => rfl
  | [_], _ => rfl
  | [_, _], _ => rfl
  | _ :: _ :: _ :: _, h => simp only [List.length_cons] at h; omega

theorem kindField_eq_setWidth (tb : Byte) : kindField tb = tb.setWidth 6 := by
  rw [kindField, ← BitVec.setWidth_eq_extractLsb' (by decide)]

/-- Settles O40: no head, no kind, and the codes of the default table. -/
theorem rejectedRecords : Obligations.RejectedRecords := by
  refine ⟨fun c num d h => ?short, fun c num parent tb body h => ?unmapped, by decide⟩
  case short => rw [decodeParameter, parseRecord_short c.kindCode h]
  case unmapped =>
    rw [← kindField_eq_setWidth] at h
    cases body with
    | nil => rfl
    | cons b tail => simp only [decodeParameter, parseRecord, h]

/-! ### A kind and its record (R193, log 12) -/

/-- The instructions of the parameter-kind format are those of a record's head. -/
theorem exists_recordInstr {i : Instr} (h : i.format = .paramKind) : ∃ hd, i = recordInstr hd := by
  cases i
  case uint8 p b body => exact ⟨⟨p, b, .uint8, body⟩, rfl⟩
  case int8 p b body => exact ⟨⟨p, b, .int8, body⟩, rfl⟩
  case uint16 p b body => exact ⟨⟨p, b, .uint16, body⟩, rfl⟩
  case int16 p b body => exact ⟨⟨p, b, .int16, body⟩, rfl⟩
  case uint32 p b body => exact ⟨⟨p, b, .uint32, body⟩, rfl⟩
  case int32 p b body => exact ⟨⟨p, b, .int32, body⟩, rfl⟩
  case float p b body => exact ⟨⟨p, b, .float, body⟩, rfl⟩
  case textSelection p b body => exact ⟨⟨p, b, .textSelection, body⟩, rfl⟩
  case string p b body => exact ⟨⟨p, b, .string, body⟩, rfl⟩
  case folder p b body => exact ⟨⟨p, b, .folder, body⟩, rfl⟩
  case info p b body => exact ⟨⟨p, b, .info, body⟩, rfl⟩
  case command p b body => exact ⟨⟨p, b, .command, body⟩, rfl⟩
  all_goals cases h

theorem recordInstr_wf (hd : RecordHead) : (recordInstr hd).wf = bodyOk hd.body := by
  obtain ⟨parent, hidden, kind, body⟩ := hd
  cases kind <;> rfl

/-- A kind's meaning is the reader that its kind selects, delivered. -/
theorem exec_recordInstr (hd : RecordHead) (s : State) :
    exec (recordInstr hd) s = .next (s.deliver (readRecord given s.eng.curParam hd)) := by
  obtain ⟨parent, hidden, kind, body⟩ := hd
  cases kind <;> rfl

/-- An encoded record is read by the reader of its kind (R193). -/
theorem decodeParameter_encodeRecord (num parent : Byte) (hidden : Bool) (k : ParamKind) {body : Bytes} (h : bodyOk body = true) :
    decodeParameter given num (encodeRecord parent hidden k body) = readRecord given num ⟨parent, hidden, k, body⟩ := by
  rw [decodeParameter, show given.kindCode = kindCodeDefault from rfl,
    parseRecord_encodeRecord parent hidden k (bodyOk_iff.mp h)]

/-- Settles O33: the meaning reads what the encoded record's head selects. -/
theorem kindDeliversItsRecord : Obligations.KindDeliversItsRecord := by
  intro s i hi hwf
  obtain ⟨hd, rfl⟩ := exists_recordInstr hi
  rw [recordInstr_wf] at hwf
  rw [exec_recordInstr, encode_recordInstr, decodeParameter_encodeRecord _ _ _ _ hwf, State.deliver_eq]
  rfl

/-! ### The four fields of an integer kind -/

/-- The name of a record, terminated or at the record's end, and what is left after it (R192). -/
theorem readName_head (c : Config) {name head tail : Bytes} (hn : 0 ∉ name)
    (hh : head = name ++ [0] ∨ head = name ∧ tail = []) :
    readName c (head ++ tail) = (name.take (c.capPName.size - 1), ⟨tail, true⟩) := by
  rcases hh with rfl | ⟨rfl, rfl⟩
  · rw [List.append_assoc]
    exact readName_append c hn tail
  · exact readName_ending c hn (.inl rfl)

/-- A tail reader of a field of `w` bytes: it reads the bytes `enc` gives a value, and gives 0 where they do not fit or `ok` is
clear (R181). -/
structure ReadsField {α : Type} (w : Nat) (field : Tail → Word32 × Tail) (enc : α → Bytes) (val : α → Word32) : Prop where
  fits : ∀ x rest, field ⟨enc x ++ rest, true⟩ = (val x, ⟨rest, true⟩)
  short : ∀ {rest : Bytes}, rest.length < w → field ⟨rest, true⟩ = (0, ⟨rest, false⟩)
  failed : ∀ rest, field ⟨rest, false⟩ = (0, ⟨rest, false⟩)

theorem readsField_u8 : ReadsField 1 (fldU 1) (fun x : Byte => [x]) (·.setWidth 32) := ⟨fldU_one, fldU_short, fldU_failed 1⟩
theorem readsField_s8 : ReadsField 1 (fldS 1) (fun x : Byte => [x]) (·.signExtend 32) := ⟨fldS_one, fldS_short, fldS_failed 1⟩
theorem readsField_u16 : ReadsField 2 (fldU 2) be2 (·.setWidth 32) := ⟨fldU_be2, fldU_short, fldU_failed 2⟩
theorem readsField_s16 : ReadsField 2 (fldS 2) be2 (·.signExtend 32) := ⟨fldS_be2, fldS_short, fldS_failed 2⟩
theorem readsField_u32 : ReadsField 4 (fldU 4) be4 id := ⟨fldU_be4, fldU_short, fldU_failed 4⟩
theorem readsField_s32 : ReadsField 4 (fldS 4) be4 id := ⟨fldS_be4, fldS_short, fldS_failed 4⟩

section
variable {α : Type} {w : Nat} {field : Tail → Word32 × Tail} {enc : α → Bytes} {val : α → Word32}

/-- A whole record of an integer kind (R195 to R200). -/
theorem readInteger_whole (hf : ReadsField w field enc val) (c : Config) (kind : ParamKind) (num parent : Byte) (hidden : Bool)
    {name unit ending : Bytes} (hn : 0 ∉ name) (hu : 0 ∉ unit) (he : ending = [] ∨ ending.head? = some 0) (cur min max dflt : α) :
    readInteger c kind field num parent hidden
        (name ++ [0] ++ (enc cur ++ (enc min ++ (enc max ++ (enc dflt ++ (unit ++ ending)))))) =
      some { zeroRecord kind num parent hidden (name.take (c.capPName.size - 1)) with
        cur := val cur, min := val min, max := val max, dflt := val dflt, unit := unit.take (c.capUnit.size - 1) } := by
  simp only [readInteger, readName_head c hn (.inl rfl), hf.fits, str_ending c.capUnit hu he, truncate_ok]

/-- A record of an integer kind that ends before all four fields: those read, and 0 for each of the others (R193 to R200). -/
theorem readInteger_truncated (hf : ReadsField w field enc val) {z : α} (hz : val z = 0) (c : Config) (kind : ParamKind)
    (num parent : Byte) (hidden : Bool) {name head rest : Bytes} {read : List α} (hn : 0 ∉ name) (h3 : read.length ≤ 3)
    (hr : rest.length < w) (hh : head = name ++ [0] ∨ head = name ∧ read = [] ∧ rest = []) :
    readInteger c kind field num parent hidden (head ++ (read.flatMap enc ++ rest)) =
      truncate c
        { zeroRecord kind num parent hidden (name.take (c.capPName.size - 1)) with
          cur := val (read.getD 0 z), min := val (read.getD 1 z), max := val (read.getD 2 z) } ⟨rest, false⟩ := by
  have hname : readName c (head ++ (read.flatMap enc ++ rest)) =
      (name.take (c.capPName.size - 1), ⟨read.flatMap enc ++ rest, true⟩) := by
    refine readName_head c hn (hh.imp_right ?_)
    rintro ⟨hhead, rfl, rfl⟩
    exact ⟨hhead, rfl⟩
  simp only [readInteger, hname]
  match read, h3 with
  | [], _ | [_], _ | [_, _], _ | [_, _, _], _ =>
    simp only [List.flatMap_cons, List.flatMap_nil, List.append_assoc, List.nil_append, hf.fits, hf.short hr, hf.failed, str_failed,
      List.getD_cons_zero, List.getD_cons_succ, List.getD_nil, hz]
    rfl

/-- An integer kind whose whole record is delivered. -/
theorem deliver_integer_whole (hf : ReadsField w field enc val) (s : State) (kind : ParamKind) (parent : Byte) (hidden : Bool)
    {name unit ending body : Bytes} (hn : 0 ∉ name) (hu : 0 ∉ unit) (he : ending = [] ∨ ending.head? = some 0)
    {cur min max dflt : α} (hb : body = name ++ [0] ++ (enc cur ++ (enc min ++ (enc max ++ (enc dflt ++ (unit ++ ending)))))) :
    Host.Outcome.next (φ := Fault) (ρ := Refusal) (s.deliver (readInteger given kind field s.eng.curParam parent hidden body)) =
      .next (s.plusEvents [.param
        { zeroRecord kind s.eng.curParam parent hidden (name.take (Config.openCapPName.size - 1)) with
          cur := val cur, min := val min, max := val max, dflt := val dflt,
          unit := unit.take (Config.openCapUnit.size - 1) }]) := by
  rw [hb, readInteger_whole hf given kind s.eng.curParam parent hidden hn hu he]
  rfl

/-- An integer kind whose truncated record is delivered or not, as TRUNC_POLICY says. -/
theorem deliver_integer_truncated (hf : ReadsField w field enc val) {z : α} (hz : val z = 0) (s : State) (kind : ParamKind)
    (parent : Byte) (hidden : Bool) {name head rest body : Bytes} {read : List α} (hn : 0 ∉ name) (h3 : read.length ≤ 3)
    (hr : rest.length < w) (hh : head = name ++ [0] ∨ head = name ∧ read = [] ∧ rest = [])
    (hb : body = head ++ (read.flatMap enc ++ rest)) :
    Host.Outcome.next (φ := Fault) (ρ := Refusal) (s.deliver (readInteger given kind field s.eng.curParam parent hidden body)) =
      .next (s.deliverTruncated
        { zeroRecord kind s.eng.curParam parent hidden (name.take (Config.openCapPName.size - 1)) with
          cur := val (read.getD 0 z), min := val (read.getD 1 z), max := val (read.getD 2 z) }) := by
  rw [hb, readInteger_truncated hf hz given kind s.eng.curParam parent hidden hn h3 hr hh, deliver_truncate_failed]
  rfl

end

/-- Settles O34: both kinds are the integer reader with a one-byte field. -/
theorem byteKinds : Obligations.ByteKinds := by
  refine ⟨fun s parent hidden name unit ending cur min max dflt hn hu he => ?_,
    fun s parent hidden name head read hn h3 hh => ?_⟩
  · have hb : name ++ [0] ++ [cur, min, max, dflt] ++ unit ++ ending =
        name ++ [0] ++ ([cur] ++ ([min] ++ ([max] ++ ([dflt] ++ (unit ++ ending))))) := by simp
    exact ⟨deliver_integer_whole readsField_u8 s .uint8 parent hidden hn hu he hb,
      deliver_integer_whole readsField_s8 s .int8 parent hidden hn hu he hb⟩
  · have hb : head ++ read = head ++ (read.flatMap (fun x => [x]) ++ []) := by simp
    have hh' := hh.imp_right fun h => And.intro h.1 (And.intro h.2 (Eq.refl ([] : Bytes)))
    exact ⟨deliver_integer_truncated readsField_u8 (z := 0) rfl s .uint8 parent hidden hn h3 (by decide) hh' hb,
      deliver_integer_truncated readsField_s8 (z := 0) rfl s .int8 parent hidden hn h3 (by decide) hh' hb⟩

/-- Settles O35: both kinds are the integer reader with a two-byte field. -/
theorem halfWordKinds : Obligations.HalfWordKinds := by
  refine ⟨fun s parent hidden name unit ending cur min max dflt hn hu he => ?_,
    fun s parent hidden name head rest read hn h3 hr hh => ?_⟩
  · have hb : name ++ [0] ++ be2 cur ++ be2 min ++ be2 max ++ be2 dflt ++ unit ++ ending =
        name ++ [0] ++ (be2 cur ++ (be2 min ++ (be2 max ++ (be2 dflt ++ (unit ++ ending))))) := by simp only [List.append_assoc]
    exact ⟨deliver_integer_whole readsField_u16 s .uint16 parent hidden hn hu he hb,
      deliver_integer_whole readsField_s16 s .int16 parent hidden hn hu he hb⟩
  · have hb := List.append_assoc head (read.flatMap be2) rest
    exact ⟨deliver_integer_truncated readsField_u16 (z := 0) rfl s .uint16 parent hidden hn h3 hr hh hb,
      deliver_integer_truncated readsField_s16 (z := 0) rfl s .int16 parent hidden hn h3 hr hh hb⟩

/-- Settles O36: both kinds are the integer reader with a four-byte field, which keeps its bits. -/
theorem wordKinds : Obligations.WordKinds := by
  refine ⟨fun s parent hidden name unit ending cur min max dflt hn hu he => ?_,
    fun s parent hidden name head rest read hn h3 hr hh => ?_⟩
  · have hb : name ++ [0] ++ be4 cur ++ be4 min ++ be4 max ++ be4 dflt ++ unit ++ ending =
        name ++ [0] ++ (be4 cur ++ (be4 min ++ (be4 max ++ (be4 dflt ++ (unit ++ ending))))) := by simp only [List.append_assoc]
    exact ⟨deliver_integer_whole readsField_u32 s .uint32 parent hidden hn hu he hb,
      deliver_integer_whole readsField_s32 s .int32 parent hidden hn hu he hb⟩
  · have hb := List.append_assoc head (read.flatMap be4) rest
    exact ⟨deliver_integer_truncated readsField_u32 (z := 0) rfl s .uint32 parent hidden hn h3 hr hh hb,
      deliver_integer_truncated readsField_s32 (z := 0) rfl s .int32 parent hidden hn h3 hr hh hb⟩

end Sys2Proof.Machine
end

section
/-! PROOF. The other parameter kinds: FLOAT (R201), TEXT_SELECTION (R204), STRING, FOLDER, INFO and COMMAND (R205 to R208). -/

namespace Sys2Proof.Machine

/-! ### FLOAT -/

/-- A whole FLOAT record: every pair takes the one decimal-point byte (R201). -/
theorem readFloat_whole (c : Config) (num parent : Byte) (hidden : Bool) {name unit ending : Bytes} (hn : 0 ∉ name) (hu : 0 ∉ unit)
    (he : ending = [] ∨ ending.head? = some 0) (cur min max dflt step : Word32) (dp : Byte) :
    readFloat c num parent hidden
        (name ++ [0] ++ (be4 cur ++ (be4 min ++ (be4 max ++ (be4 dflt ++ (dp :: (be4 step ++ (unit ++ ending)))))))) =
      some { zeroRecord .float num parent hidden (name.take (c.capPName.size - 1)) with
        fcur := ⟨cur, dp⟩, fmin := ⟨min, dp⟩, fmax := ⟨max, dp⟩, fdef := ⟨dflt, dp⟩, fstep := ⟨step, dp⟩, dp := dp,
        unit := unit.take (c.capUnit.size - 1) } := by
  simp only [readFloat, readName_head c hn (.inl rfl), fldS_be4, fldByte_one, str_ending c.capUnit hu he, truncate_ok]

/-- A FLOAT record that ends before its step: the fields read, the decimal-point byte where the record reaches it, and 0 for the
others (R193, R201). -/
theorem readFloat_truncated (c : Config) (num parent : Byte) (hidden : Bool) {name head rest : Bytes} {read : List Word32}
    (hn : 0 ∉ name) (hr : read.length ≤ 3 ∧ rest.length < 4 ∨ read.length = 4 ∧ rest.length < 5)
    (hh : head = name ++ [0] ∨ head = name ∧ read = [] ∧ rest = []) {dp : Byte}
    (hdp : dp = if read.length = 4 then rest.headD 0 else 0) :
    ∃ left,
      readFloat c num parent hidden (head ++ (read.flatMap be4 ++ rest)) =
        truncate c
          { zeroRecord .float num parent hidden (name.take (c.capPName.size - 1)) with
            fcur := ⟨read.getD 0 0, dp⟩, fmin := ⟨read.getD 1 0, dp⟩, fmax := ⟨read.getD 2 0, dp⟩,
            fdef := ⟨read.getD 3 0, dp⟩, fstep := ⟨0, dp⟩, dp := dp } ⟨left, false⟩ := by
  have hname : readName c (head ++ (read.flatMap be4 ++ rest)) =
      (name.take (c.capPName.size - 1), ⟨read.flatMap be4 ++ rest, true⟩) := by
    refine readName_head c hn (hh.imp_right ?_)
    rintro ⟨hhead, rfl, rfl⟩
    exact ⟨hhead, rfl⟩
  rw [readFloat, hname, hdp]
  rcases hr with ⟨h3, hshort⟩ | ⟨h4, hshort⟩
  · refine ⟨rest, ?_⟩
    match read, h3 with
    | [], _ | [_], _ | [_, _], _ | [_, _, _], _ =>
      simp only [List.flatMap_cons, List.flatMap_nil, List.append_assoc, List.nil_append, fldS_be4, fldS_short hshort, fldS_failed,
        fldByte_failed, str_failed]
      rfl
  · match read, h4 with
    | [cur, min, max, dflt], _ =>
      cases rest with
      | nil =>
        refine ⟨[], ?_⟩
        simp only [List.flatMap_cons, List.flatMap_nil, List.append_assoc, List.nil_append, fldS_be4, fldByte_empty, fldS_failed,
          str_failed]
        rfl
      | cons x rest =>
        have hstep : rest.length < 4 := by rw [List.length_cons] at hshort; omega
        refine ⟨rest, ?_⟩
        simp only [List.flatMap_cons, List.flatMap_nil, List.append_assoc, List.nil_append, fldS_be4, fldByte_one,
          fldS_short hstep, str_failed]
        rfl

/-- Settles O37: the whole record, and every place where it can end too early. -/
theorem floatKind : Obligations.FloatKind := by
  refine ⟨fun s parent hidden name unit ending cur min max dflt step dp hn hu he => ?whole,
    fun s parent hidden name head rest read hn hr hh => ?truncated⟩
  case whole =>
    have h := readFloat_whole given s.eng.curParam parent hidden hn hu he cur min max dflt step dp
    simp only [List.append_assoc] at h ⊢
    exact congrArg (fun r => Host.Outcome.next (s.deliver r)) h
  case truncated =>
    intro dp
    obtain ⟨left, h⟩ := readFloat_truncated given s.eng.curParam parent hidden hn hr hh (dp := dp) rfl
    rw [List.append_assoc]
    refine (congrArg (fun r => Host.Outcome.next (s.deliver r)) h).trans ?_
    rw [deliver_truncate_failed]
    rfl

/-! ### TEXT_SELECTION -/

/-- A string, terminated or at the record's end, and what is left after it (R181). -/
theorem str_head (cap : Capacity) {text head tail : Bytes} (ht : 0 ∉ text) (hh : head = text ++ [0] ∨ head = text ∧ tail = []) :
    str cap ⟨head ++ tail, true⟩ = (text.take (cap.size - 1), ⟨tail, true⟩) := by
  rcases hh with rfl | ⟨rfl, rfl⟩
  · rw [List.append_assoc]
    exact str_append cap ht tail
  · exact str_ending cap ht (.inl rfl)

/-- A whole TEXT_SELECTION record (R204). -/
theorem readTextSelection_whole (c : Config) (num parent : Byte) (hidden : Bool) {name options unit ending : Bytes} (hn : 0 ∉ name)
    (ho : 0 ∉ options) (hu : 0 ∉ unit) (he : ending = [] ∨ ending.head? = some 0) (cur min max dflt : Byte) :
    readTextSelection c num parent hidden
        (name ++ [0] ++ (options ++ [0] ++ (cur :: min :: max :: dflt :: (unit ++ ending)))) =
      some { zeroRecord .textSelection num parent hidden (name.take (c.capPName.size - 1)) with
        options := options.take (c.capOptions.size - 1), cur := cur.setWidth 32, min := min.setWidth 32, max := max.setWidth 32,
        dflt := dflt.setWidth 32, unit := unit.take (c.capUnit.size - 1) } := by
  simp only [readTextSelection, readName_head c hn (.inl rfl), str_head c.capOptions ho (.inl rfl), fldU_one,
    str_ending c.capUnit hu he, truncate_ok]

/-- A TEXT_SELECTION record that ends before its four indices, in its strings or after them (R193, R204). -/
theorem readTextSelection_truncated (c : Config) (num parent : Byte) (hidden : Bool)
    {name nameHead options optionsHead read : Bytes} (hn : 0 ∉ name) (ho : 0 ∉ options) (h3 : read.length ≤ 3)
    (hnh : nameHead = name ++ [0] ∨ nameHead = name ∧ optionsHead ++ read = [])
    (hoh : optionsHead = options ++ [0] ∨ optionsHead = options ∧ read = []) :
    readTextSelection c num parent hidden (nameHead ++ (optionsHead ++ read)) =
      truncate c
        { zeroRecord .textSelection num parent hidden (name.take (c.capPName.size - 1)) with
          options := options.take (c.capOptions.size - 1), cur := (read.getD 0 0).setWidth 32,
          min := (read.getD 1 0).setWidth 32, max := (read.getD 2 0).setWidth 32 } ⟨[], false⟩ := by
  have hend : fldU 1 ⟨[], true⟩ = (0, ⟨[], false⟩) := fldU_short (by decide)
  simp only [readTextSelection, readName_head c hn hnh, str_head c.capOptions ho hoh]
  match read, h3 with
  | [], _ | [_], _ | [_, _], _ | [_, _, _], _ =>
    simp only [fldU_one, hend, fldU_failed, str_failed]
    rfl

/-- Settles O38: the whole record, and each string or index at which it can end. -/
theorem textSelectionKind : Obligations.TextSelectionKind := by
  intro s parent hidden name options hn ho r
  refine ⟨fun unit ending cur min max dflt hu he => ?whole, fun head read h3 hh => ?truncated⟩
  case whole =>
    have h := readTextSelection_whole given s.eng.curParam parent hidden hn ho hu he cur min max dflt
    simp only [List.append_assoc] at h ⊢
    exact congrArg (fun r => Host.Outcome.next (s.deliver r)) h
  case truncated =>
    have hread : readTextSelection given s.eng.curParam parent hidden (head ++ read) =
        truncate given { r with
          cur := (read.getD 0 0).setWidth 32, min := (read.getD 1 0).setWidth 32, max := (read.getD 2 0).setWidth 32 }
          ⟨[], false⟩ := by
      rcases hh with rfl | ⟨rfl, rfl⟩ | ⟨rfl, rfl, rfl⟩
      · have h := readTextSelection_truncated given s.eng.curParam parent hidden hn ho h3 (.inl rfl) (.inl rfl)
        simp only [List.append_assoc] at h ⊢
        exact h
      · have h := readTextSelection_truncated given s.eng.curParam parent hidden hn ho h3 (.inl rfl) (.inr ⟨rfl, rfl⟩)
        simp only [List.append_assoc] at h ⊢
        exact h
      · exact readTextSelection_truncated (optionsHead := []) given s.eng.curParam parent hidden hn ho h3 (.inr ⟨rfl, rfl⟩)
          (.inr ⟨rfl, rfl⟩)
    refine (congrArg (fun r => Host.Outcome.next (s.deliver r)) hread).trans ?_
    rw [deliver_truncate_failed]

/-! ### STRING, FOLDER, INFO and COMMAND -/

section
variable (s : State) (parent : Byte) (hidden : Bool) {name head text ending : Bytes}

theorem exec_string_whole (hn : 0 ∉ name) (ht : 0 ∉ text) (maxlen : Byte) (extra : Bytes) :
    exec (.string parent hidden (name ++ [0] ++ text ++ [0] ++ [maxlen] ++ extra)) s =
      .next (s.plusEvents [.param
        { zeroRecord .string s.eng.curParam parent hidden (name.take (Config.openCapPName.size - 1)) with
          value := text.take (Config.openCapStrVal.size - 1), maxlen := maxlen }]) := by
  have hb : name ++ [0] ++ text ++ [0] ++ [maxlen] ++ extra = name ++ [0] ++ (text ++ [0] ++ (maxlen :: extra)) := by simp
  simp only [exec, execString, readString, hb, readName_head given hn (.inl rfl), str_head given.capStrVal ht (.inl rfl),
    fldByte_one, truncate_ok]
  rfl

/-- The record's end, or the terminator alone, is left for the max-length byte (R205). -/
theorem exec_string_truncated (hn : 0 ∉ name) (ht : 0 ∉ text) (he : ending = [] ∨ ending.head? = some 0)
    (hh : head = name ++ [0] ∨ head = name ∧ text = [] ∧ ending = []) :
    exec (.string parent hidden (head ++ text ++ ending.take 1)) s =
      .next (s.deliverTruncated
        { zeroRecord .string s.eng.curParam parent hidden (name.take (Config.openCapPName.size - 1)) with
          value := text.take (Config.openCapStrVal.size - 1) }) := by
  have hname : readName given (head ++ (text ++ ending.take 1)) =
      (name.take (given.capPName.size - 1), ⟨text ++ ending.take 1, true⟩) := by
    refine readName_head given hn (hh.imp_right ?_)
    rintro ⟨hhead, rfl, rfl⟩
    exact ⟨hhead, rfl⟩
  have hvalue : str given.capStrVal ⟨text ++ ending.take 1, true⟩ = (text.take (given.capStrVal.size - 1), ⟨[], true⟩) := by
    rw [str_ending given.capStrVal ht (he.imp (fun h => by rw [h]; rfl) fun h => (List.head?_take ..).trans h)]
    cases ending <;> rfl
  simp only [exec, execString, readString, List.append_assoc, hname, hvalue, fldByte_empty, deliver_truncate_failed]
  rfl

theorem exec_folder (hn : 0 ∉ name) (he : ending = [] ∨ ending.head? = some 0) :
    exec (.folder parent hidden (name ++ ending)) s =
      .next (s.plusEvents [.param
        (zeroRecord .folder s.eng.curParam parent hidden (name.take (Config.openCapPName.size - 1)))]) := by
  simp only [exec, execFolder, readFolder, readName_ending given hn he, truncate_ok]
  rfl

theorem exec_info (hn : 0 ∉ name) (ht : 0 ∉ text) (he : ending = [] ∨ ending.head? = some 0)
    (hh : head = name ++ [0] ∨ head = name ∧ text = [] ∧ ending = []) :
    exec (.info parent hidden (head ++ text ++ ending)) s =
      .next (s.plusEvents [.param
        { zeroRecord .info s.eng.curParam parent hidden (name.take (Config.openCapPName.size - 1)) with
          info := text.take (Config.openCapInfo.size - 1) }]) := by
  have hname : readName given (head ++ (text ++ ending)) = (name.take (given.capPName.size - 1), ⟨text ++ ending, true⟩) := by
    refine readName_head given hn (hh.imp_right ?_)
    rintro ⟨hhead, rfl, rfl⟩
    exact ⟨hhead, rfl⟩
  simp only [exec, execInfo, readInfo, List.append_assoc, hname, str_ending given.capInfo ht he, truncate_ok]
  rfl

theorem exec_command_whole (hn : 0 ∉ name) (ht : 0 ∉ text) (he : ending = [] ∨ ending.head? = some 0) (status timeout : Byte) :
    exec (.command parent hidden (name ++ [0] ++ [status, timeout] ++ text ++ ending)) s =
      .next (s.plusEvents [.param
        { zeroRecord .command s.eng.curParam parent hidden (name.take (Config.openCapPName.size - 1)) with
          status := status, timeout := timeout, info := text.take (Config.openCapInfo.size - 1) }]) := by
  have hb : name ++ [0] ++ [status, timeout] ++ text ++ ending = name ++ [0] ++ (status :: timeout :: (text ++ ending)) := by simp
  simp only [exec, execCommand, readCommand, hb, readName_head given hn (.inl rfl), fldByte_one, str_ending given.capInfo ht he,
    truncate_ok]
  rfl

theorem exec_command_noTimeout (hn : 0 ∉ name) (status : Byte) :
    exec (.command parent hidden (name ++ [0] ++ [status])) s =
      .next (s.deliverTruncated
        { zeroRecord .command s.eng.curParam parent hidden (name.take (Config.openCapPName.size - 1)) with status := status }) := by
  simp only [exec, execCommand, readCommand, readName_head given hn (.inl rfl), fldByte_one, fldByte_empty, str_failed,
    deliver_truncate_failed]
  rfl

theorem exec_command_nameOnly (hn : 0 ∉ name) (hh : head = name ++ [0] ∨ head = name) :
    exec (.command parent hidden head) s =
      .next (s.deliverTruncated
        (zeroRecord .command s.eng.curParam parent hidden (name.take (Config.openCapPName.size - 1)))) := by
  have hname := readName_head given hn (hh.imp_right fun h => And.intro h (Eq.refl ([] : Bytes)))
  rw [List.append_nil] at hname
  simp only [exec, execCommand, readCommand, hname, fldByte_empty, fldByte_failed, str_failed, deliver_truncate_failed]
  rfl

end

/-- Settles O39, one clause for each record. -/
theorem stringFolderInfoCommandKinds : Obligations.StringFolderInfoCommandKinds := fun s parent hidden _ _ _ _ extra maxlen status
    timeout hn ht he hh =>
  ⟨exec_string_whole s parent hidden hn ht maxlen extra, exec_string_truncated s parent hidden hn ht he hh,
    exec_folder s parent hidden hn he, exec_info s parent hidden hn ht he hh,
    exec_command_whole s parent hidden hn ht he status timeout, exec_command_noTimeout s parent hidden hn status,
    exec_command_nameOnly s parent hidden hn (hh.imp_right And.left)⟩

end Sys2Proof.Machine
end

section
/-! PROOF. What an instruction can do, said once for all of them, and what follows for the request, the outputs, the time and error
registers and the two receivers (R37, R48, R55, R161, R269, R272, R312). -/

namespace Sys2Proof.Machine

/-! ### What an instruction can do -/

/-- The results of an instruction that goes on: one constructor for each way in which it changes the state. -/
inductive ExecResult (s : State) : Instr → State → Prop where
  /-- Any event or none, and nothing else: reports of R305 and R307, delivered records, and all that is ignored. -/
  | emits (i : Instr) (es : List Event) : ExecResult s i { s with out := { s.out with ev := s.out.ev ++ es } }
  /-- A byte for the Frame Codec: a handler's result, and the codec's new receive state, reset after a frame (R231). -/
  | receives {b : Byte} {r : FeedResult} {t : State} (hf : feed .rxbuf rxLenMin s.rx b = .ok r) (h : HandlerResult given s t) :
      ExecResult s (.rxByte b) { t with rx := if r.done then Codec.fresh else r.unit }
  /-- A device heard while scanning (R263). -/
  | hears {d o : Byte} {p : Bytes} (h : s.eng.req = .scanning) (r : DeviceInfo) :
      ExecResult s (.deviceInfo d o p) ((s.storeDevice given r).emit (.deviceFound r))
  /-- A chunk accepted while reading (R264 to R268). -/
  | accepts {d o : Byte} {p : Bytes} {t : State} (h : s.eng.req = .reading) (e : EntryResult given s t) :
      ExecResult s (.paramEntry d o p) t
  /-- A byte for the detector (R165). -/
  | detects {b : Byte} {r : FeedResult} (hf : feed .ptbuf ptLenMin s.pt b = .ok r) (es : List Event) :
      ExecResult s (.ptByte b) { s with pt := r.unit, out := { s.out with ev := s.out.ev ++ es } }
  /-- The detector's frame freed (R166). -/
  | frees : ExecResult s .ptConsume { s with pt := Codec.fresh }
  /-- The end of a scan window (R232). -/
  | scanEnds (h : s.eng.req = .scanning) :
      ExecResult s .tick
        { s with eng := { s.eng with req := .idle }, out := { s.out with ev := s.out.ev ++ [.scanDone true false] } }
  /-- A load that times out (R232). -/
  | readExpires (h : s.eng.req = .reading) :
      ExecResult s .tick
        { s with
          eng := { s.eng with req := .idle, err := ⟨.readTimeout, s.eng.curParam⟩ }
          out := { s.out with ev := s.out.ev ++ [.loadDone false] } }
  /-- A write that times out (R232). -/
  | writeExpires (h : s.eng.req = .writing) :
      ExecResult s .tick
        { s with
          eng := { s.eng with req := .idle, err := ⟨.writeTimeout, s.eng.wParam⟩ }
          out := { s.out with ev := s.out.ev ++ [.writeDone false false] } }
  /-- A scan that starts (R233). -/
  | scans (h : s.eng.req = .idle) :
      ExecResult s .startScan
        { s with
          dev := { list := [] }
          eng := { s.eng with req := .scanning, scanStart := s.now, lastActivity := s.now }
          out := { s.out with tx := s.out.tx ++ frameBytes typeDevicePing addrBroadcast addrSelf [] } }
  /-- A scan cancelled (R234). -/
  | cancelsScan (h : s.eng.req = .scanning) : ExecResult s .cancelScan { s with eng := { s.eng with req := .idle } }
  /-- A load cancelled (R236). -/
  | cancelsLoad (h : s.eng.req = .reading) : ExecResult s .cancelLoad { s with eng := { s.eng with req := .idle } }
  /-- A load that starts (R235). -/
  | loads (dev : Byte) {cnt : Byte} (h : cnt ≠ 0) :
      ExecResult s (.loadParams dev cnt)
        { s with
          eng := { s.eng with req := .reading, target := dev, count := cnt, curParam := 1, curChunk := 0, lastActivity := s.now }
          reasm := { buf := [], len := 0 }
          out := { s.out with tx := s.out.tx ++ frameBytes typeParamRead dev addrSelf [1, 0] } }
  /-- A load of no parameter (R235). -/
  | loadsNone (dev : Byte) :
      ExecResult s (.loadParams dev 0)
        { s with
          eng := { s.eng with req := .idle, target := dev, count := 0, curParam := 1, curChunk := 0 }
          reasm := { buf := [], len := 0 }
          out := { s.out with ev := s.out.ev ++ [.loadDone true] } }
  /-- A write sent and ended (R237). -/
  | writes (dev param : Byte) {v : Bytes} (hv : v.length ≤ 57) (h : s.eng.req = .idle) :
      ExecResult s (.writeParam dev param v)
        { s with
          eng := { s.eng with wParam := param, lastActivity := s.now }
          out := { s.out with
            tx := s.out.tx ++ frameBytes typeParamWrite dev addrSelf (param :: v), ev := s.out.ev ++ [.writeDone true false] } }
  /-- A frame sent for the host (R167). -/
  | sends {type : Byte} (dest origin : Byte) {p : Bytes} (ht : 0x28 ≤ type) (hp : p.length ≤ 58) :
      ExecResult s (.txFrame type dest origin p)
        { s with
          eng := { s.eng with lastActivity := s.now }
          out := { s.out with tx := s.out.tx ++ frameBytes type dest origin p } }

/-- An instruction may change nothing. -/
theorem ExecResult.unchanged (s : State) (i : Instr) : ExecResult s i s := by
  have h := ExecResult.emits (s := s) i []
  rwa [List.append_nil] at h

/-- All that RX_BYTE can leave (R231), with the receive state it leaves. -/
theorem execRxByte_result {b : Byte} {s t : State} (h : exec (.rxByte b) s = .next t) : ExecResult s (.rxByte b) t := by
  obtain ⟨r, hf, ⟨hd, rfl⟩ | ⟨hd, f, s', -, hr, rfl⟩⟩ := rxByte_cases (c := given) h
  · have hres := ExecResult.receives hf (.unchanged (c := given))
    rwa [hd] at hres
  · have e := route_withCodecs hr s.rx s.pt
    have hres := ExecResult.receives hf (route_result e)
    rw [hd, State.withCodecs, ← (route_codecs hr).2] at hres
    exact hres

/-- All that PT_BYTE can leave (R165). -/
theorem ptByte_result {b : Byte} {s t : State} (h : exec (.ptByte b) s = .next t) : ExecResult s (.ptByte b) t := by
  obtain ⟨r, hf, ⟨-, rfl⟩ | ⟨-, f, ty, -, -, rfl⟩⟩ := execPtByte_cases h
  · have hres := ExecResult.detects hf []
    rwa [List.append_nil] at hres
  · exact .detects hf _

/-- All that TICK can leave (R232). -/
theorem tick_result (s : State) : ExecResult s .tick (tick given s) := by
  cases hr : s.eng.req with
  | idle =>
    rw [tick_idle given hr]
    exact .unchanged s _
  | scanning =>
    rw [tick_scanning given hr, State.complete_of_event none (congrArg (completionEvent true) hr)]
    split
    · exact .scanEnds hr
    · exact .unchanged s _
  | reading =>
    rw [tick_reading given hr, State.complete_of_event _ (congrArg (completionEvent false) hr)]
    split
    · exact .readExpires hr
    · exact .unchanged s _
  | writing =>
    rw [tick_writing given hr, State.complete_of_event _ (congrArg (completionEvent false) hr)]
    split
    · exact .writeExpires hr
    · exact .unchanged s _

/-! The host's requests (R233 to R237): each result is one of those settled for its command. -/

theorem startScan_result {s t : State} (h : exec .startScan s = .next t) : ExecResult s .startScan t := by
  obtain ⟨hidle, hbusy⟩ := startScanResult s
  by_cases hr : s.eng.req = .idle
  · rw [hidle hr, ← frameBytes_ping] at h
    cases h
    exact .scans hr
  · rw [hbusy hr] at h
    cases h
    exact .emits _ _

theorem cancelScan_result {s t : State} (h : exec .cancelScan s = .next t) : ExecResult s .cancelScan t := by
  rw [(cancelResults s).1] at h
  cases h
  split
  · exact .cancelsScan ‹_›
  · exact .unchanged s _

theorem cancelLoad_result {s t : State} (h : exec .cancelLoad s = .next t) : ExecResult s .cancelLoad t := by
  rw [(cancelResults s).2] at h
  cases h
  split
  · exact .cancelsLoad ‹_›
  · exact .unchanged s _

theorem loadParams_result {dev cnt : Byte} {s t : State} (h : exec (.loadParams dev cnt) s = .next t) :
    ExecResult s (.loadParams dev cnt) t := by
  obtain ⟨hsome, hnone⟩ := loadParamsResult s dev cnt
  by_cases hc : cnt = 0
  · rw [hnone hc] at h
    cases h
    cases hc
    exact .loadsNone dev
  · rw [hsome hc] at h
    cases h
    exact .loads dev hc

theorem writeParam_result {dev param : Byte} {v : Bytes} {s t : State} (h : exec (.writeParam dev param v) s = .next t) :
    ExecResult s (.writeParam dev param v) t := by
  obtain ⟨hlong, hbusy, hsent⟩ := writeParamResult s dev param v
  by_cases hv : v.length ≤ 57
  · by_cases hr : s.eng.req = .idle
    · rw [hsent hv hr] at h
      cases h
      exact .writes dev param hv hr
    · rw [hbusy hv hr] at h
      cases h
      exact .emits _ _
  · rw [hlong (by omega)] at h
    cases h
    exact .emits _ _

theorem txFrame_result {type dest origin : Byte} {p : Bytes} {s t : State} (h : exec (.txFrame type dest origin p) s = .next t) :
    ExecResult s (.txFrame type dest origin p) t := by
  obtain ⟨hsent, hrefused⟩ := txFrameResult s type dest origin p
  by_cases hok : 0x28 ≤ type ∧ p.length ≤ 58
  · obtain ⟨ht, hp⟩ := hok
    rw [hsent ht hp] at h
    cases h
    exact .sends dest origin ht hp
  · rw [not_and_or, BitVec.not_le, Nat.not_le] at hok
    rw [hrefused hok] at h
    cases h
    exact .emits _ _

theorem ptConsume_result {s t : State} (h : exec .ptConsume s = .next t) : ExecResult s .ptConsume t := by
  obtain ⟨hheld, hother⟩ := ptConsumeResult s
  by_cases hs : s.pt.state = .complete
  · rw [hheld hs] at h
    cases h
    exact .frees
  · rw [hother hs] at h
    cases h
    exact .unchanged s _

theorem deviceInfo_result (d o : Byte) (p : Bytes) (s : State) : ExecResult s (.deviceInfo d o p) (onDeviceInfo given o p s) := by
  rcases onDeviceInfo_cases given o p s with e | ⟨r, -, hr, e⟩
  · rw [e]
    exact .unchanged s _
  · rw [e]
    exact .hears hr r

theorem paramEntry_result {d o : Byte} {p : Bytes} {s t : State} (h : exec (.paramEntry d o p) s = .next t) :
    ExecResult s (.paramEntry d o p) t := by
  rcases onParamEntry_cases (c := given) (o := o) (p := p) (s := s) with e | ⟨remaining, data, -, -, hr, e⟩
  · cases e.symm.trans h
    exact .unchanged s _
  · exact .accepts hr (acceptChunk_result hr (e.symm.trans h))

theorem recordInstr_result (hd : RecordHead) {s t : State} (h : exec (recordInstr hd) s = .next t) :
    ExecResult s (recordInstr hd) t := by
  rw [exec_recordInstr, State.deliver_eq] at h
  cases h
  exact .emits _ _

/-- All that an instruction can leave. -/
theorem exec_result {i : Instr} {s t : State} (h : exec i s = .next t) : ExecResult s i t := by
  by_cases hk : i.format = .paramKind
  · obtain ⟨hd, rfl⟩ := exists_recordInstr hk
    exact recordInstr_result hd h
  cases i
  case rxByte => exact execRxByte_result h
  case tick => cases h; exact tick_result s
  case startScan => exact startScan_result h
  case cancelScan => exact cancelScan_result h
  case loadParams => exact loadParams_result h
  case cancelLoad => exact cancelLoad_result h
  case writeParam => exact writeParam_result h
  case ptByte => exact ptByte_result h
  case ptConsume => exact ptConsume_result h
  case txFrame => exact txFrame_result h
  case deviceInfo d o p => cases h; exact deviceInfo_result d o p s
  case paramEntry => exact paramEntry_result h
  case devicePing | paramRead | paramWrite => cases h; exact .unchanged s _
  all_goals exact absurd rfl hk

/-! ### The outputs and the registers -/

/-- Settles O50: each result that changes the request is one line of the table. -/
theorem requestTransitions : Obligations.RequestTransitions := by
  intro s t i hi hw h
  cases exec_result h with
  | emits | detects | frees | sends => exact .inl rfl
  | hears | accepts => cases hi
  | scans hr => exact .inr (.inl ⟨rfl, hr, rfl, rfl⟩)
  | cancelsScan hr => exact .inr (.inr (.inl ⟨rfl, hr, rfl, rfl⟩))
  | scanEnds hr => exact .inr (.inr (.inr (.inl ⟨rfl, hr, rfl, rfl⟩)))
  | loads dev hc => exact .inr (.inr (.inr (.inr (.inl ⟨dev, _, rfl, hc, rfl, rfl⟩))))
  | loadsNone dev => exact .inr (.inr (.inr (.inr (.inr (.inl ⟨dev, rfl, rfl, rfl⟩)))))
  | cancelsLoad hr => exact .inr (.inr (.inr (.inr (.inr (.inr (.inl ⟨rfl, hr, rfl, rfl⟩))))))
  | readExpires hr => exact .inr (.inr (.inr (.inr (.inr (.inr (.inr (.inl ⟨rfl, hr, rfl, rfl⟩)))))))
  | writeExpires hr => exact absurd hr hw
  | writes dev param hv hr => exact .inl rfl
  | receives hf hres =>
    cases hres with
    | unchanged => exact .inl rfl
    | device _ r => exact .inl (by simp)
    | entry hr e =>
      cases e with
      | overflow =>
        exact .inr (.inr (.inr (.inr (.inr (.inr (.inr (.inr ⟨_, [], false, rfl, hr, rfl, by simp⟩)))))))
      | nextChunk | nextParam => exact .inl rfl
      | lastParam d hc => exact .inr (.inr (.inr (.inr (.inr (.inr (.inr (.inr ⟨_, _, true, rfl, hr, rfl, rfl⟩)))))))

/-- A frame within the encoder's bounds is what it gives. -/
theorem encodeFrame_of_bounds {t : Byte} (d o : Byte) {p : Bytes} (ht : 0x28 ≤ t) (hp : p.length ≤ 58) :
    encodeFrame t d o p = some (frameBytes t d o p) :=
  if_pos (txOperandsOk_iff.mpr ⟨ht, hp⟩)

/-- The effect of an instruction on the TX stream: nothing, or one extended frame with the stamp (R55, R156). -/
def SendsFrame (s t : State) : Prop :=
  t.out.tx = s.out.tx ∨
    ∃ type dest origin p, 0x28 ≤ type ∧ p.length ≤ 58 ∧ t.out.tx = s.out.tx ++ frameBytes type dest origin p ∧
      t.eng.lastActivity = s.now

theorem EntryResult.sendsFrame {c : Config} {s t : State} (e : EntryResult c s t) : SendsFrame s t := by
  cases e with
  | overflow | lastParam => exact .inl rfl
  | nextChunk | nextParam => exact .inr ⟨_, _, _, _, by decide, by simp, rfl, rfl⟩

theorem HandlerResult.sendsFrame {c : Config} {s t : State} (h : HandlerResult c s t) : SendsFrame s t := by
  cases h with
  | unchanged => exact .inl rfl
  | device => exact .inl (by simp)
  | entry _ e => exact e.sendsFrame

theorem ExecResult.sendsFrame {i : Instr} {s t : State} (h : ExecResult s i t) : SendsFrame s t := by
  cases h with
  | emits | detects | frees | scanEnds | readExpires | writeExpires | cancelsScan | cancelsLoad | loadsNone => exact .inl rfl
  | receives _ h => exact h.sendsFrame
  | hears _ r => exact .inl (by simp)
  | accepts _ e => exact e.sendsFrame
  | scans | loads => exact .inr ⟨_, _, _, _, by decide, by simp, rfl, rfl⟩
  | writes dev param hv => exact .inr ⟨_, _, _, _, by decide, by simp only [List.length_cons]; omega, rfl, rfl⟩
  | sends dest origin ht hp => exact .inr ⟨_, _, _, _, ht, hp, rfl, rfl⟩

/-- Settles O51: the frames sent are those of the results, each within the encoder's bounds. -/
theorem sendsWholeFrames : Obligations.SendsWholeFrames := by
  intro s t i h
  refine (exec_result h).sendsFrame.imp_right ?_
  rintro ⟨type, dest, origin, p, ht, hp, htx, hstamp⟩
  exact ⟨type, dest, origin, p, _, ht, hp, encodeFrame_of_bounds dest origin ht hp, htx, hstamp⟩

/-- A stream to which a frame has been added is another one. -/
theorem append_frameBytes_ne (tx : Bytes) (t d o : Byte) (p : Bytes) : tx ++ frameBytes t d o p ≠ tx :=
  fun h => List.cons_ne_nil _ _ (List.append_right_eq_self.mp h)

/-- What a received frame does to the time registers (R272). -/
structure HandlerTimes (s t : State) : Prop where
  scanStart : t.eng.scanStart = s.eng.scanStart
  lastActivity : t.eng.lastActivity = s.eng.lastActivity ∨
    (t.eng.lastActivity = s.now ∧ (t.out.tx ≠ s.out.tx ∨ (s.eng.req = .reading ∧ t.eng.req = .idle)))

theorem EntryResult.times {c : Config} {s t : State} (hr : s.eng.req = .reading) (e : EntryResult c s t) : HandlerTimes s t := by
  cases e with
  | overflow => exact ⟨rfl, .inl rfl⟩
  | nextChunk | nextParam => exact ⟨rfl, .inr ⟨rfl, .inl (append_frameBytes_ne _ _ _ _ _)⟩⟩
  | lastParam => exact ⟨rfl, .inr ⟨rfl, .inr ⟨hr, rfl⟩⟩⟩

theorem HandlerResult.times {c : Config} {s t : State} (h : HandlerResult c s t) : HandlerTimes s t := by
  cases h with
  | unchanged => exact ⟨rfl, .inl rfl⟩
  | device => exact ⟨by simp, .inl (by simp)⟩
  | entry hr e => exact e.times hr

/-- Settles O52: the results that stamp a register, one by one. -/
theorem timeRegisterWriters : Obligations.TimeRegisterWriters := by
  intro s t i h
  cases exec_result h with
  | emits | detects | frees | scanEnds | readExpires | writeExpires | cancelsScan | cancelsLoad | loadsNone =>
    exact ⟨.inl rfl, .inl rfl⟩
  | hears _ r => exact ⟨.inl (by simp), .inl (by simp)⟩
  | receives _ hres =>
    obtain ⟨hscan, hlast⟩ := hres.times
    exact ⟨.inl hscan, hlast.imp_right (.imp_right (.imp_right fun ⟨hr, hidle⟩ => ⟨hr, hidle, .inl ⟨_, rfl⟩⟩))⟩
  | accepts hr e =>
    obtain ⟨hscan, hlast⟩ := e.times hr
    exact ⟨.inl hscan, hlast.imp_right (.imp_right (.imp_right fun ⟨hr, hidle⟩ => ⟨hr, hidle, .inr ⟨_, _, _, rfl⟩⟩))⟩
  | scans hr => exact ⟨.inr ⟨rfl, hr, rfl⟩, .inr ⟨rfl, .inl (append_frameBytes_ne _ _ _ _ _)⟩⟩
  | loads | writes | sends => exact ⟨.inl rfl, .inr ⟨rfl, .inl (append_frameBytes_ne _ _ _ _ _)⟩⟩

/-- What a received frame does to the last error (R48, R265). -/
theorem HandlerResult.err {c : Config} {s t : State} (h : HandlerResult c s t) :
    t.eng.err = s.eng.err ∨
      (s.eng.req = .reading ∧ t.eng.req = .idle ∧ t.eng.err = ⟨.bufOverflow, s.eng.curParam⟩) := by
  cases h with
  | unchanged => exact .inl rfl
  | device => exact .inl (by simp)
  | entry hr e =>
    cases e with
    | overflow => exact .inr ⟨hr, rfl, rfl⟩
    | nextChunk | nextParam | lastParam => exact .inl rfl

/-- Settles O53: the results that write the error, one by one. -/
theorem errorWrittenOnlyByFailure : Obligations.ErrorWrittenOnlyByFailure := by
  intro s t i h
  cases exec_result h with
  | emits | detects | frees | scanEnds | scans | cancelsScan | cancelsLoad | loads | loadsNone | writes | sends => exact .inl rfl
  | hears _ r => exact .inl (by simp)
  | receives _ hres => exact hres.err.imp_right fun ⟨hr, hidle, herr⟩ => .inl ⟨hr, hidle, herr, .inl ⟨_, rfl⟩⟩
  | accepts hr e =>
    exact (HandlerResult.entry hr e).err.imp_right fun ⟨hr, hidle, herr⟩ => .inl ⟨hr, hidle, herr, .inr ⟨_, _, _, rfl⟩⟩
  | readExpires hr => exact .inr (.inr (.inl ⟨hr, rfl, rfl, rfl⟩))
  | writeExpires hr => exact .inr (.inr (.inr ⟨hr, rfl, rfl, rfl⟩))

/-! ### What RX_BYTE leaves unchanged, and its events -/

theorem EntryResult.events {c : Config} {s t : State} (e : EntryResult c s t) :
    ∃ es, t.out.ev = s.out.ev ++ es ∧
      (es = [] ∨ es = [.loadDone false] ∨ es = [.loadDone true] ∨ (∃ r, es = [.param r]) ∨
        ∃ r, es = [.param r, .loadDone true]) := by
  cases e with
  | overflow => exact ⟨_, rfl, .inr (.inl rfl)⟩
  | nextChunk => exact ⟨[], (List.append_nil _).symm, .inl rfl⟩
  | nextParam d =>
    refine ⟨_, rfl, ?_⟩
    cases decodeParameter c s.eng.curParam d with
    | none => exact .inl rfl
    | some r => exact .inr (.inr (.inr (.inl ⟨r, rfl⟩)))
  | lastParam d =>
    refine ⟨_, List.append_assoc _ _ _, ?_⟩
    cases decodeParameter c s.eng.curParam d with
    | none => exact .inr (.inr (.inl rfl))
    | some r => exact .inr (.inr (.inr (.inr ⟨r, rfl⟩)))

/-- Settles O16: the events of each handler's result. -/
theorem rxByteEvents : Obligations.RxByteEvents := by
  intro s t b h
  obtain ⟨u, s', hres, rfl⟩ := rxByte_result (c := given) h
  cases hres with
  | unchanged => exact ⟨[], (List.append_nil _).symm, .inl rfl⟩
  | device hr r => exact ⟨[.deviceFound r], by simp, .inr (.inl ⟨hr, r, rfl⟩)⟩
  | entry hr e =>
    obtain ⟨es, hev, hes⟩ := e.events
    exact ⟨es, hev, hes.imp_right fun h => .inr ⟨hr, h⟩⟩

/-- The state a handler leaves as it was, and the streams it only adds to (R263 to R267). -/
structure HandlerFrame (s t : State) : Prop where
  pt : t.pt = s.pt
  now : t.now = s.now
  inputs : t.inputs = s.inputs
  registers : t.eng.scanStart = s.eng.scanStart ∧ t.eng.target = s.eng.target ∧ t.eng.count = s.eng.count ∧
    t.eng.wParam = s.eng.wParam
  tx : s.out.tx <+: t.out.tx
  ev : s.out.ev <+: t.out.ev
  devList : s.dev.list <+: t.dev.list
  load : s.eng.req ≠ .reading → t.reasm = s.reasm ∧ t.eng = s.eng ∧ t.out.tx = s.out.tx
  dev : s.eng.req ≠ .scanning → t.dev = s.dev

theorem EntryResult.frame {c : Config} {s t : State} (hr : s.eng.req = .reading) (e : EntryResult c s t) : HandlerFrame s t := by
  obtain ⟨es, hev, -⟩ := e.events
  have htx : s.out.tx <+: t.out.tx := by
    rcases e.sendsFrame with h | ⟨_, _, _, _, -, -, h, -⟩
    · exact ⟨[], (List.append_nil _).trans h.symm⟩
    · exact ⟨_, h.symm⟩
  cases e
  all_goals exact
    { pt := rfl, now := rfl, inputs := rfl, registers := ⟨rfl, rfl, rfl, rfl⟩, tx := htx, ev := ⟨es, hev.symm⟩,
      devList := ⟨[], List.append_nil _⟩, load := fun h => absurd hr h, dev := fun _ => rfl }

/-- A handler's result has that frame. -/
theorem HandlerResult.frame {c : Config} {s t : State} (h : HandlerResult c s t) : HandlerFrame s t := by
  cases h with
  | unchanged =>
    exact
      { pt := rfl, now := rfl, inputs := rfl, registers := ⟨rfl, rfl, rfl, rfl⟩, tx := ⟨[], List.append_nil _⟩,
        ev := ⟨[], List.append_nil _⟩, devList := ⟨[], List.append_nil _⟩, load := fun _ => ⟨rfl, rfl, rfl⟩, dev := fun _ => rfl }
  | device hr r =>
    refine ⟨by simp, by simp, by simp, by simp, by simp, by simp, ?_, fun _ => by simp, fun h => absurd hr h⟩
    simp only [State.emit_dev, State.storeDevice_dev]
    split
    · exact ⟨[r], rfl⟩
    · exact ⟨[], List.append_nil _⟩
  | entry hr e => exact e.frame hr

/-- Settles O15: the frame of the handler's result, the codec apart. -/
theorem rxByteFrame : Obligations.RxByteFrame := by
  intro s t b h
  obtain ⟨u, s', hres, rfl⟩ := rxByte_result (c := given) h
  obtain ⟨hpt, hnow, hin, ⟨hscan, htarget, hcount, hw⟩, htx, hev, hlist, hload, hdev⟩ := hres.frame
  exact ⟨hpt, fun a => congrArg (fun v : Codec => Memory.read v.buf a) hpt, hnow, hin, hscan, htarget, hcount, hw, htx, hev, hlist,
    hload, hdev⟩

/-! ### The two receivers -/

/-- RX_BYTE with another detector. -/
theorem rxByte_with_pt {c : Config} {b : Byte} {s t : State} (h : rxByte c b s = .next t) (u : Codec) :
    rxByte c b { s with pt := u } = .next { t with pt := u } := by
  obtain ⟨⟨v, done, noise⟩, hf, ⟨hd, rfl⟩ | ⟨hd, f, s', hheld, hr, rfl⟩⟩ := rxByte_cases h
  · cases hd
    exact rxByte_open hf
  · cases hd
    have hroute := route_withCodecs hr v u
    rw [State.withCodecs] at hroute
    rw [rxByte_done (s := { s with pt := u }) hf hheld, hroute]
    rfl

/-- PT_BYTE with another engine side. -/
theorem execPtByte_with_engine {b : Byte} {s t : State} (h : execPtByte b s = .next t) (u : Codec) (e : Engine) (r : Reasm)
    (d : DevList) :
    execPtByte b { s with rx := u, eng := e, reasm := r, dev := d } = .next { t with rx := u, eng := e, reasm := r, dev := d } := by
  obtain ⟨⟨v, done, noise⟩, hf, ⟨hd, rfl⟩ | ⟨hd, f, ty, hheld, hty, rfl⟩⟩ := execPtByte_cases h
  · cases hd
    exact execPtByte_open hf
  · cases hd
    exact execPtByte_done hf hheld hty

/-- Settles O20, one clause for each receiver. -/
theorem receiversDoNotInterfere : Obligations.ReceiversDoNotInterfere :=
  ⟨fun _ _ _ u h => rxByte_with_pt h u, fun _ _ _ u e r d h => execPtByte_with_engine h u e r d⟩

end Sys2Proof.Machine
end

section
/-! PROOF. The whole machine: the step by its next input (R230, R340, R345), the invariant (R36, R37, R46, R47, R53), that no step
stops (R58, R72, R308), the canonical memories and the status view (R51). -/

namespace Sys2Proof.Machine

/-! ### The step -/

/-- With nothing presented there is nothing to take (R345). -/
theorem step_of_no_input {s : State} (h : s.inputs = []) : step s = .next s := by simp only [step, fetch, h]

/-- Settles O10. -/
theorem nothingPresentedNothingDone : Obligations.NothingPresentedNothingDone := fun _ => step_of_no_input

/-- Settles O7: what decodes in the command space is what the step runs. -/
theorem stepRunsDecodedCommand : Obligations.StepRunsDecodedCommand := fun _ _ _ _ _ hin hd =>
  step_of_decodeCommand_ok hin (decode_hostCmd_ok_iff.mp hd)

/-- `s` with its next input taken (R54): the time latched, and what is left of the queue. -/
def State.taken (s : State) (t : Time) (rest : List HostInput) : State := { s with now := t, inputs := rest }

/-- What a step does: nothing, a reset, the report of a command that does not decode, or an instruction. -/
theorem step_eq_cases (s : State) :
    step s = .next s ∨ (∃ rest, step s = .next { s with inputs := rest }.resetAll) ∨
      (∃ now rest op r, step s = .next ((s.taken now rest).malformed op r)) ∨ ∃ now rest i, step s = exec i (s.taken now rest) := by
  match hin : s.inputs with
  | [] => exact .inl (step_of_no_input hin)
  | ⟨c, t, true⟩ :: rest => exact .inr (.inl ⟨rest, step_of_reset hin⟩)
  | ⟨c, t, false⟩ :: rest =>
    cases hd : decodeCommand c with
    | error r => exact .inr (.inr (.inl ⟨t, rest, _, r, step_of_decodeCommand_error hin hd⟩))
    | ok i => exact .inr (.inr (.inr ⟨t, rest, i, step_of_decodeCommand_ok hin hd⟩))

/-- A property of states that the queue and the time latch do not enter is kept by every step, where reset has it, a report keeps it
and every instruction keeps it. -/
theorem step_keeps {P : State → Prop} (htaken : ∀ s now rest, P s → P (s.taken now rest))
    (hreset : ∀ s : State, P s.resetAll) (hreport : ∀ s op r, P s → P (s.malformed op r))
    (hexec : ∀ s t i, P s → exec i s = .next t → P t) {s t : State} (hs : P s) (h : step s = .next t) : P t := by
  rcases step_eq_cases s with e | ⟨rest, e⟩ | ⟨now, rest, op, r, e⟩ | ⟨now, rest, i, e⟩
  · cases e.symm.trans h
    exact hs
  · cases e.symm.trans h
    exact hreset _
  · cases e.symm.trans h
    exact hreport _ _ _ (htaken _ _ _ hs)
  · exact hexec _ _ _ (htaken _ _ _ hs) (e.symm.trans h)

/-! ### The invariant -/

/-- Settles O45: nothing is held and no request is in progress. -/
theorem resetMeetsInvariant : Obligations.ResetMeetsInvariant where
  rx := rfl
  rxOpen := by decide
  pt := rfl
  request := by decide
  reading := by intro h; cases h
  reasm := rfl
  reasmLen := Nat.zero_le _
  devices := Nat.zero_le _

/-- The codec after a byte: its invariant, and no completed frame held (R36, R231). -/
theorem rx_after_byte {s : State} {b : Byte} {r : FeedResult} (h : s.Inv) (hf : feed .rxbuf rxLenMin s.rx b = .ok r) :
    Codec.inv rxLenMin (if r.done then Codec.fresh else r.unit) = true ∧
      (if r.done then Codec.fresh else r.unit).state ≠ .complete := by
  obtain ⟨r', hf', hinv, hdone⟩ := feed_of_inv (m := .rxbuf) b rfl le_rfl h.rx
  obtain rfl : r' = r := Except.ok.inj (hf'.symm.trans hf)
  by_cases hd : r'.done = true
  · rw [if_pos hd]
    exact ⟨rfl, by decide⟩
  · rw [if_neg hd]
    exact ⟨hinv, fun hc => hd (hdone.mpr ⟨h.rxOpen, hc⟩)⟩

/-- The buffer a chunk is added to lists the bytes below its length (R46, R265). -/
theorem startChunk_addresses {s : State} (h : s.Inv) :
    Memory.addresses (startChunk s).reasm.buf = List.range (startChunk s).reasm.len := by
  rw [startChunk_reasm]
  split
  · rfl
  · exact h.reasm

/-- The number of the next parameter, where there is one, neither wraps nor passes the count (R53, R268). -/
theorem next_param_bounds {p n : Byte} (h : p < n) : 1 ≤ p + 1 ∧ p + 1 ≤ n := by bv_omega

theorem EntryResult.inv {s t : State} (h : s.Inv) (hr : s.eng.req = .reading) (e : EntryResult given s t) : t.Inv := by
  cases e with
  | overflow =>
    refine { h with request := by simp, reading := by simp, reasm := startChunk_addresses h, reasmLen := ?_ }
    simp only [startChunk_reasm]
    split
    · exact Nat.zero_le _
    · exact h.reasmLen
  | nextChunk data hfit =>
    exact { h with reasm := Memory.addresses_writeRange_next data _ _ (startChunk_addresses h), reasmLen := hfit }
  | nextParam d hlt =>
    obtain ⟨hcount, -, -⟩ := h.reading hr
    exact { h with reading := fun _ => ⟨hcount, next_param_bounds hlt⟩, reasm := rfl, reasmLen := Nat.zero_le _ }
  | lastParam => exact { h with request := by simp, reading := by simp, reasm := rfl, reasmLen := Nat.zero_le _ }

/-- A device stored where there is room (R47, R263). -/
theorem device_inv {s : State} (h : s.Inv) (r : DeviceInfo) : ((s.storeDevice given r).emit (.deviceFound r)).Inv := by
  have hdev : ((s.storeDevice given r).emit (.deviceFound r)).dev.n ≤ given.maxDevices.size := by
    simp only [State.emit_dev, State.storeDevice_dev, DevList.n]
    split
    · rw [List.length_append]
      exact ‹_›
    · exact h.devices
  rw [State.storeDevice_eq] at hdev ⊢
  exact { h with devices := hdev }

theorem HandlerResult.inv {s t : State} (h : s.Inv) (hres : HandlerResult given s t) : t.Inv := by
  cases hres with
  | unchanged => exact h
  | device _ r => exact device_inv h r
  | entry hr e => exact e.inv h hr

/-- The detector after a byte (R37). -/
theorem pt_after_byte {s : State} {b : Byte} {r : FeedResult} (h : s.Inv) (hf : feed .ptbuf ptLenMin s.pt b = .ok r) :
    r.unit.inv ptLenMin = true := by
  obtain ⟨r', hf', hinv, -⟩ := feed_of_inv (m := .ptbuf) b rfl (by decide) h.pt
  obtain rfl : r' = r := Except.ok.inj (hf'.symm.trans hf)
  exact hinv

/-- Every instruction keeps the invariant. -/
theorem exec_inv {s t : State} {i : Instr} (h : s.Inv) (he : exec i s = .next t) : t.Inv := by
  cases exec_result he with
  | emits | sends | writes => exact { h with }
  | receives hf hres =>
    obtain ⟨hrx, hopen⟩ := rx_after_byte h hf
    exact { hres.inv h with rx := hrx, rxOpen := hopen }
  | hears _ r => exact device_inv h r
  | accepts hr e => exact e.inv h hr
  | detects hf => exact { h with pt := pt_after_byte h hf }
  | frees => exact { h with pt := rfl }
  | scanEnds | readExpires | writeExpires | cancelsScan | cancelsLoad =>
    exact { h with request := by simp, reading := by simp }
  | scans => exact { h with request := by simp, reading := by simp, devices := Nat.zero_le _ }
  | loads dev hc =>
    exact { h with
      request := by simp, reading := fun _ => ⟨by bv_omega, BitVec.le_refl _, by bv_omega⟩, reasm := rfl,
      reasmLen := Nat.zero_le _ }
  | loadsNone => exact { h with request := by simp, reading := by simp, reasm := rfl, reasmLen := Nat.zero_le _ }

/-- Settles O46: every instruction keeps the invariant, and reset has it. -/
theorem stepKeepsInvariant : Obligations.StepKeepsInvariant := fun _ _ hs h =>
  step_keeps (P := State.Inv) (fun _ _ _ h => { h with }) (fun _ => { resetMeetsInvariant with }) (fun _ _ _ h => { h with })
    (fun _ _ _ h he => exec_inv h he) hs h

/-! ### No step stops -/

/-- An accepted chunk's record reads whole (R46, R267). -/
theorem acceptChunk_goes_on (c : Config) {s : State} (h : s.Inv) (remaining : Byte) (data : Bytes) :
    ∃ t, acceptChunk c remaining data s = .next t := by
  by_cases ho : reasmCap < (startChunk s).reasm.len + data.length
  · exact ⟨_, acceptChunk_overflow ho⟩
  · by_cases hrem : remaining = 0
    · subst hrem
      obtain ⟨d, hd⟩ := Reasm.bytes_isSome (r := ((startChunk s).appendReasm data).stamp.reasm)
        (Memory.addresses_writeRange_next data _ _ (startChunk_addresses h))
      exact ⟨_, (acceptChunk_last (by omega)).trans (lastChunk_of_bytes hd)⟩
    · exact ⟨_, acceptChunk_next (by omega) hrem⟩

theorem onParamEntry_goes_on (c : Config) {s : State} (h : s.Inv) (o : Byte) (p : Bytes) : ∃ t, onParamEntry c o p s = .next t := by
  rcases onParamEntry_cases (c := c) (o := o) (p := p) (s := s) with e | ⟨remaining, data, -, -, -, e⟩
  · exact ⟨s, e⟩
  · rw [e]
    exact acceptChunk_goes_on c h remaining data

theorem route_goes_on (c : Config) {s : State} (h : s.Inv) (f : Bytes) : ∃ t, route c f s = .next t := by
  rcases route_cases c f s with e | ⟨o, p, e⟩ | ⟨o, p, e⟩
  · exact ⟨s, e⟩
  · exact ⟨_, e⟩
  · rw [e]
    exact onParamEntry_goes_on c h o p

/-- RX_BYTE: Feed does not fault, a completed frame reads whole, and no handler depends on the codec. -/
theorem rxByte_goes_on (c : Config) {s : State} (h : s.Inv) (b : Byte) : ∃ t, rxByte c b s = .next t := by
  obtain ⟨⟨u, done, noise⟩, hf, hinv, hdone⟩ := feed_of_inv (m := .rxbuf) b rfl le_rfl h.rx
  cases done with
  | false => exact ⟨_, rxByte_open hf⟩
  | true =>
    obtain ⟨-, hc⟩ := hdone.mp rfl
    obtain ⟨f, hheld, -⟩ := heldFrame_of_inv (m := .rxbuf) hinv hc
    obtain ⟨t, ht⟩ := route_goes_on c h f
    have hroute := route_withCodecs ht u s.pt
    rw [State.withCodecs] at hroute
    exact ⟨_, by rw [rxByte_done hf hheld, hroute]; rfl⟩

/-- A frame the detector holds has a TYPE: its length is at least 3 (R132, R160). -/
theorem held_type {u : Codec} (h : u.inv ptLenMin = true) (hs : u.state = .complete) : ∃ ty, Memory.read u.buf 2 = some ty := by
  obtain ⟨ha, -, len, -, -, -, hlo, -, hn, -, -, -⟩ := (Codec.inv_complete hs).mp h
  refine Option.isSome_iff_exists.mp ((Memory.read_isSome_iff _ _).mpr ?_)
  rw [ha, List.mem_range, hn]
  simp only [ptLenMin] at hlo
  omega

theorem execPtByte_goes_on {s : State} (h : s.Inv) (b : Byte) : ∃ t, execPtByte b s = .next t := by
  obtain ⟨⟨u, done, noise⟩, hf, hinv, hdone⟩ := feed_of_inv (m := .ptbuf) b rfl (by decide) h.pt
  cases done with
  | false => exact ⟨_, execPtByte_open hf⟩
  | true =>
    obtain ⟨-, hc⟩ := hdone.mp rfl
    obtain ⟨f, hheld, -⟩ := heldFrame_of_inv (m := .ptbuf) hinv hc
    obtain ⟨ty, hty⟩ := held_type hinv hc
    exact ⟨_, execPtByte_done hf hheld hty⟩

/-- Every instruction goes on. -/
theorem exec_goes_on {s : State} (h : s.Inv) (i : Instr) : ∃ t, exec i s = .next t := by
  by_cases hk : i.format = .paramKind
  · obtain ⟨hd, rfl⟩ := exists_recordInstr hk
    exact ⟨_, exec_recordInstr hd s⟩
  cases i
  case rxByte b => exact rxByte_goes_on given h b
  case ptByte b => exact execPtByte_goes_on h b
  case paramEntry d o p => exact onParamEntry_goes_on given h o p
  case tick | deviceInfo | devicePing | paramRead | paramWrite => exact ⟨_, rfl⟩
  case startScan => rw [exec, execStartScan, ← apply_ite]; exact ⟨_, rfl⟩
  case cancelScan => exact ⟨_, (cancelResults s).1⟩
  case cancelLoad => exact ⟨_, (cancelResults s).2⟩
  case loadParams dev cnt => rw [exec, execLoadParams, ← apply_ite]; exact ⟨_, rfl⟩
  case writeParam dev param v => rw [exec, execWriteParam, ← apply_ite, ← apply_ite]; exact ⟨_, rfl⟩
  case ptConsume => rw [exec, execPtConsume, ← apply_ite]; exact ⟨_, rfl⟩
  case txFrame type dest origin p => rw [exec, execTxFrame, ← apply_ite]; exact ⟨_, rfl⟩
  all_goals exact absurd rfl hk

/-- Settles O47: every instruction goes on from a state that meets the invariant, which the queue and the latch do not enter. -/
theorem stepNeverStops : Obligations.StepNeverStops := by
  intro s hs
  rcases step_eq_cases s with e | ⟨_, e⟩ | ⟨_, _, _, _, e⟩ | ⟨now, rest, i, e⟩
  · exact ⟨_, e⟩
  · exact ⟨_, e⟩
  · exact ⟨_, e⟩
  · rw [e]
    exact exec_goes_on (s := s.taken now rest) { hs with } i

/-- A run from a state that meets the invariant goes on and keeps it. -/
theorem run_of_inv (k : Nat) {s : State} (hs : s.Inv) : ∃ t : State, Sys2Proof.core.run k s = .next t ∧ t.Inv := by
  induction k generalizing s with
  | zero => exact ⟨s, rfl, hs⟩
  | succ k ih =>
    obtain ⟨s', hstep⟩ := stepNeverStops s hs
    obtain ⟨t, hrun, ht⟩ := ih (stepKeepsInvariant s s' hs hstep)
    exact ⟨t, (run_succ (M := Sys2Proof.core) hstep).trans hrun, ht⟩

/-- Settles O48: the invariant holds at reset whatever the queue. -/
theorem everyRunFromResetGoesOn : Obligations.EveryRunFromResetGoesOn := fun _ k => run_of_inv k { resetMeetsInvariant with }

/-! ### The canonical memories -/

/-- What Feed can give, from every receive state and whatever the buffer holds (R143 to R147). -/
inductive FeedOutcome (u : Codec) (b : Byte) : FeedResult → Prop where
  | sync : FeedOutcome u b ⟨{ state := .awaitLen, buf := Memory.write u.buf 0 b, count := 1 }, false, false⟩
  | length : FeedOutcome u b ⟨{ state := .accum, buf := Memory.write u.buf 1 b, count := 2 }, false, false⟩
  | push : FeedOutcome u b ⟨u.push b, false, false⟩
  | frame : FeedOutcome u b ⟨{ u.push b with state := .complete }, true, false⟩
  | dropped (h : u.state = .awaitSync ∨ u.state = .complete) : FeedOutcome u b ⟨u, false, true⟩
  | discarded : FeedOutcome u b ⟨Codec.fresh, false, true⟩

/-- Check keeps the frame or discards it (R146). -/
theorem check_cases {m : MemName} {u : Codec} {r : FeedResult} (h : check m u = .ok r) :
    r = ⟨{ u with state := .complete }, true, false⟩ ∨ r = ⟨Codec.fresh, false, true⟩ := by
  unfold check at h
  split at h
  · cases h
  · split at h
    · split at h
      · exact .inl (Except.ok.inj h).symm
      · exact .inr (Except.ok.inj h).symm
    · cases h

theorem feedAccum_outcome {m : MemName} {u : Codec} {b : Byte} {r : FeedResult} (h : feedAccum m u b = .ok r) :
    FeedOutcome u b r := by
  unfold feedAccum at h
  split at h
  · cases h
  · next buf hstore =>
    have hbuf : Memory.write u.buf u.count b = buf := by
      unfold storeByte at hstore
      split at hstore
      · exact Except.ok.inj hstore
      · cases hstore
    subst hbuf
    dsimp only at h
    split at h
    · cases h
    · split at h
      · rcases check_cases h with rfl | rfl
        · exact .frame
        · exact .discarded
      · cases h
        exact .push

theorem feed_outcome {m : MemName} {lmin : Nat} {u : Codec} {b : Byte} {r : FeedResult} (h : feed m lmin u b = .ok r) :
    FeedOutcome u b r := by
  cases hs : u.state with
  | awaitSync =>
    rw [feed_awaitSync b hs, feedSync] at h
    cases h
    split
    · exact .sync
    · exact .dropped (.inl hs)
  | awaitLen =>
    rw [feed_awaitLen b hs, feedLen] at h
    cases h
    split
    · exact .length
    · exact .discarded
  | accum => exact feedAccum_outcome ((feed_accum b hs).symm.trans h)
  | complete =>
    rw [feed_complete b hs] at h
    cases h
    exact .dropped (.inr hs)

/-- Feed keeps the canonical form of its buffer. -/
theorem feed_wf {m : MemName} {lmin : Nat} {u : Codec} {b : Byte} {r : FeedResult} (h : Memory.wf u.buf = true)
    (hf : feed m lmin u b = .ok r) : Memory.wf r.unit.buf = true := by
  cases feed_outcome hf with
  | sync | length | push | frame => exact Memory.write_wf _ _ _ h
  | dropped => exact h
  | discarded => rfl

theorem State.memoriesWf_iff {s : State} :
    s.memoriesWf = true ↔ Memory.wf s.rx.buf = true ∧ Memory.wf s.pt.buf = true ∧ Memory.wf s.reasm.buf = true := by
  rw [State.memoriesWf, Bool.and_eq_true, Bool.and_eq_true, and_assoc]

theorem startChunk_wf {s : State} (h : Memory.wf s.reasm.buf = true) : Memory.wf (startChunk s).reasm.buf = true := by
  rw [startChunk_reasm]
  split
  · rfl
  · exact h

theorem HandlerResult.memoriesWf {c : Config} {s t : State} (h : s.memoriesWf = true) (hres : HandlerResult c s t) :
    t.memoriesWf = true := by
  obtain ⟨hrx, hpt, hreasm⟩ := State.memoriesWf_iff.mp h
  cases hres with
  | unchanged => exact h
  | device _ r => exact State.memoriesWf_iff.mpr (by simp [hrx, hpt, hreasm])
  | entry _ e =>
    cases e with
    | overflow => exact State.memoriesWf_iff.mpr ⟨hrx, hpt, startChunk_wf hreasm⟩
    | nextChunk data => exact State.memoriesWf_iff.mpr ⟨hrx, hpt, Memory.writeRange_wf data _ _ (startChunk_wf hreasm)⟩
    | nextParam | lastParam => exact State.memoriesWf_iff.mpr ⟨hrx, hpt, rfl⟩

/-- Every instruction keeps the canonical form. -/
theorem exec_memoriesWf {s t : State} {i : Instr} (h : s.memoriesWf = true) (he : exec i s = .next t) : t.memoriesWf = true := by
  obtain ⟨hrx, hpt, hreasm⟩ := State.memoriesWf_iff.mp h
  cases exec_result he with
  | emits | scanEnds | readExpires | writeExpires | scans | cancelsScan | cancelsLoad | writes | sends => exact h
  | receives hf hres =>
    obtain ⟨-, hpt', hreasm'⟩ := State.memoriesWf_iff.mp (hres.memoriesWf h)
    refine State.memoriesWf_iff.mpr ⟨?_, hpt', hreasm'⟩
    dsimp only
    split
    · rfl
    · exact feed_wf hrx hf
  | hears hr r => exact (HandlerResult.device (c := given) hr r).memoriesWf h
  | accepts hr e => exact (HandlerResult.entry hr e).memoriesWf h
  | detects hf => exact State.memoriesWf_iff.mpr ⟨hrx, feed_wf hpt hf, hreasm⟩
  | frees => exact State.memoriesWf_iff.mpr ⟨hrx, rfl, hreasm⟩
  | loads | loadsNone => exact State.memoriesWf_iff.mpr ⟨hrx, hpt, rfl⟩

/-- Settles O49: every write keeps the form, and an emptied memory has it. -/
theorem memoriesStayCanonical : Obligations.MemoriesStayCanonical := fun _ _ hs h =>
  step_keeps (P := fun s => s.memoriesWf = true) (fun _ _ _ h => h) (fun _ => rfl) (fun _ _ _ h => h)
    (fun _ _ _ h he => exec_memoriesWf h he) hs h

/-! ### Chunk index 0 -/

/-- READING with chunk index 0 means an empty reassembly buffer (R53). -/
def State.ChunkZeroEmpty (s : State) : Prop := s.eng.req = .reading → s.eng.curChunk = 0 → s.reasm.len = 0

/-- A chunk index that wraps was 255. -/
theorem chunk_wraps {n : Byte} (h : n + 1 = 0) : n = 255 := by bv_omega

theorem EntryResult.chunkZeroEmpty {c : Config} {s t : State} (hr : s.eng.req = .reading) (e : EntryResult c s t) :
    t.ChunkZeroEmpty ∨ (s.eng.req = .reading ∧ s.eng.curChunk = 255) := by
  cases e with
  | overflow => exact .inl fun h _ => nomatch h
  | nextChunk =>
    by_cases h0 : s.eng.curChunk + 1 = 0
    · exact .inr ⟨hr, chunk_wraps h0⟩
    · exact .inl fun _ h => absurd h h0
  | nextParam | lastParam => exact .inl fun _ _ => rfl

theorem HandlerResult.chunkZeroEmpty {c : Config} {s t : State} (h : s.ChunkZeroEmpty) (hres : HandlerResult c s t) :
    t.ChunkZeroEmpty ∨ (s.eng.req = .reading ∧ s.eng.curChunk = 255) := by
  cases hres with
  | unchanged => exact .inl h
  | device hs r => exact .inl fun hr _ => by simp [hs] at hr
  | entry hr e => exact e.chunkZeroEmpty hr

theorem exec_chunkZeroEmpty {s t : State} {i : Instr} (h : s.ChunkZeroEmpty) (he : exec i s = .next t) :
    t.ChunkZeroEmpty ∨ (s.eng.req = .reading ∧ s.eng.curChunk = 255) := by
  cases exec_result he with
  | emits | detects | frees | writes | sends => exact .inl h
  | receives _ hres =>
    have hkeep := hres.chunkZeroEmpty h
    exact hkeep
  | hears hr r => exact (HandlerResult.device (c := given) hr r).chunkZeroEmpty h
  | accepts hr e => exact e.chunkZeroEmpty hr
  | scanEnds | readExpires | writeExpires | scans | cancelsScan | cancelsLoad => exact .inl fun hr _ => nomatch hr
  | loads | loadsNone => exact .inl fun _ _ => rfl

/-- Settles O54: only NextChunk raises the chunk index, and a load begins with an empty buffer. -/
theorem chunkZeroMeansEmptyBuffer : Obligations.ChunkZeroMeansEmptyBuffer := by
  intro s t hs h
  rcases step_eq_cases s with e | ⟨_, e⟩ | ⟨_, _, _, _, e⟩ | ⟨now, rest, i, e⟩
  · cases e.symm.trans h
    exact .inl hs
  · cases e.symm.trans h
    exact .inl fun hr _ => nomatch hr
  · cases e.symm.trans h
    exact .inl hs
  · exact exec_chunkZeroEmpty (s := s.taken now rest) hs (e.symm.trans h)

/-! ### The status view -/

/-- A value that fits its width is shown whole (R51). -/
theorem shown_of_lt {width value : Nat} (h : value < 2 ^ width) : some (shown width value) = some (.reg width value) := by
  rw [shown, Nat.mod_eq_of_lt h]

theorem shown_byte (b : Byte) : some (shown 8 b.toNat) = some (.reg 8 b.toNat) := shown_of_lt b.isLt

theorem shown_word (x : Word32) : some (shown 32 x.toNat) = some (.reg 32 x.toNat) := shown_of_lt x.isLt

/-- A codec that meets its invariant counts at most MAX_FRAME bytes (R34, R36). -/
theorem Codec.inv_count {lmin : Nat} {u : Codec} (h : u.inv lmin = true) : u.count ≤ 64 := by
  cases hs : u.state with
  | awaitSync =>
    obtain ⟨-, hc⟩ := (Codec.inv_awaitSync hs).mp h
    omega
  | awaitLen =>
    obtain ⟨-, hc, -⟩ := (Codec.inv_awaitLen hs).mp h
    omega
  | accum =>
    obtain ⟨-, -, -, len, -, -, hhi, hlt⟩ := (Codec.inv_accum hs).mp h
    simp only [rxLenMax] at hhi
    omega
  | complete =>
    obtain ⟨-, -, len, _, _, -, -, hhi, hn, -⟩ := (Codec.inv_complete hs).mp h
    simp only [rxLenMax] at hhi
    omega

theorem shown_count {lmin : Nat} {u : Codec} (h : u.inv lmin = true) : some (shown 7 u.count) = some (.reg 7 u.count) :=
  shown_of_lt (Nat.lt_of_le_of_lt (Codec.inv_count h) (by decide))

theorem shown_codecState (x : CodecState) :
    some (shown 2 x.number) = some (.reg 2 (match x with | .awaitSync => 0 | .awaitLen => 1 | .accum => 2 | .complete => 3)) := by
  cases x <;> rfl

theorem shown_request (x : Request) :
    some (shown 2 x.number) = some (.reg 2 (match x with | .idle => 0 | .scanning => 1 | .reading => 2 | .writing => 3)) := by
  cases x <;> rfl

theorem shown_errCode (x : ErrCode) :
    some (shown 8 x.number) =
      some (.reg 8 (match x with | .none => 0 | .bufOverflow => 1 | .readTimeout => 2 | .writeTimeout => 3)) := by
  cases x <;> rfl

theorem status_device (s : State) (i : Nat) : s.status (16 + i) = s.dev.list[i]?.map .device := by
  rw [Nat.add_comm]
  rfl

/-- Settles O56: each register's width holds its value, the counts by the invariant. -/
theorem statusViewShowsState : Obligations.StatusViewShowsState := by
  intro s hs
  exact ⟨shown_codecState _, shown_count hs.rx, shown_codecState _, shown_count hs.pt, shown_request _, shown_errCode _,
    shown_byte _, fun h => shown_of_lt h, shown_byte _, shown_byte _, shown_byte _, shown_byte _,
    shown_of_lt (Nat.lt_of_le_of_lt hs.reasmLen (by decide)), shown_word _, shown_word _, shown_byte _,
    fun i d h => by rw [status_device, h]; rfl, fun i h => by rw [status_device, List.getElem?_eq_none h]; rfl⟩

end Sys2Proof.Machine
end

section
/-! PROOF. The error classes (R300 to R309): which instruction raises which, and all that Noise, Mismatch, Busy and Malformed
change. -/

namespace Sys2Proof.Machine

/-! ### What raises a class -/

theorem recordClass_eq_some {r : Option ParameterRecord} {e : ErrorClass} (h : recordClass r = some e) :
    r = none ∧ e = .mismatch := by
  cases r with
  | none => exact ⟨rfl, (Option.some.inj h).symm⟩
  | some r => cases h

theorem deviceInfoClass_eq_some {c : Config} {o : Byte} {p : Bytes} {s : State} {e : ErrorClass}
    (h : deviceInfoClass c o p s = some e) :
    e = .mismatch ∧ (s.eng.req ≠ .scanning ∨ decodeDeviceInfo c o p = none) := by
  unfold deviceInfoClass at h
  split at h
  · cases h
  · next hn =>
    refine ⟨(Option.some.inj h).symm, (not_and_or.mp hn).imp_right fun hd => ?_⟩
    rwa [Bool.not_eq_true, Option.isSome_eq_false_iff, Option.isNone_iff_eq_none] at hd

/-- A chunk overflows, or it is a record's last and the record is rejected (R309). -/
theorem chunkClass_eq_some {c : Config} {remaining : Byte} {data : Bytes} {s : State} {e : ErrorClass}
    (h : chunkClass c remaining data s = some e) :
    e = .overflow ∨
      (e = .mismatch ∧ remaining = 0 ∧ (startChunk s).reasm.len + data.length ≤ reasmCap ∧
        ∃ d, ((startChunk s).appendReasm data).reasm.bytes = some d ∧ decodeParameter c s.eng.curParam d = none) := by
  simp only [chunkClass, startChunk_eng] at h
  split at h
  · exact .inl (Option.some.inj h).symm
  · next ho =>
    split at h
    · next hrem =>
      split at h
      · next d hd =>
        obtain ⟨hnone, rfl⟩ := recordClass_eq_some h
        have hfit : ¬ reasmCap < (startChunk s).reasm.len + data.length := fun hlt => ho (decide_eq_true hlt)
        exact .inr ⟨rfl, hrem, by omega, d, hd, hnone⟩
      · cases h
    · cases h

theorem paramEntryClass_cases {c : Config} {o : Byte} {p : Bytes} {s : State} {e : ErrorClass}
    (h : paramEntryClass c o p s = some e) : e = .mismatch ∨ e = .overflow := by
  unfold paramEntryClass at h
  split at h
  · split at h
    · exact (chunkClass_eq_some h).symm.imp_left And.left
    · exact .inl (Option.some.inj h).symm
  · exact .inl (Option.some.inj h).symm

/-- A completed frame raises Mismatch or Overflow (R302, R303). -/
theorem frameClass_cases {c : Config} {f : Bytes} {s : State} {e : ErrorClass} (h : frameClass c f s = some e) :
    e = .mismatch ∨ e = .overflow := by
  unfold frameClass at h
  split at h
  · exact .inl (Option.some.inj h).symm
  · split at h
    · exact .inl (deviceInfoClass_eq_some h).1
    · split at h
      · exact paramEntryClass_cases h
      · exact .inl (Option.some.inj h).symm

/-- RX_BYTE raises Noise as Feed says, else the completed frame's class (R309). -/
theorem rxByteClass_eq_some {c : Config} {b : Byte} {s : State} {e : ErrorClass} (h : rxByteClass c b s = some e) :
    ∃ r, feed .rxbuf rxLenMin s.rx b = .ok r ∧
      ((r.noise = true ∧ e = .noise) ∨
        (r.done = true ∧ ∃ f, heldFrame .rxbuf r.unit = .ok f ∧ frameClass c f { s with rx := r.unit } = some e)) := by
  unfold rxByteClass at h
  split at h
  · cases h
  · next r hf =>
    refine ⟨r, hf, ?_⟩
    split at h
    · next hn => exact .inl ⟨hn, (Option.some.inj h).symm⟩
    · split at h
      · next hd =>
        split at h
        · next f hheld => exact .inr ⟨hd, f, hheld, h⟩
        · cases h
      · cases h

theorem ptByteClass_eq_some {b : Byte} {s : State} {e : ErrorClass} (h : ptByteClass b s = some e) :
    e = .noise ∧ ∃ r, feed .ptbuf ptLenMin s.pt b = .ok r ∧ r.noise = true := by
  unfold ptByteClass at h
  split at h
  · cases h
  · next r hf =>
    split at h
    · next hn => exact ⟨(Option.some.inj h).symm, r, hf, hn⟩
    · cases h

theorem busyClass_eq_some {s : State} {e : ErrorClass} (h : busyClass s = some e) : e = .busy ∧ s.eng.req ≠ .idle := by
  unfold busyClass at h
  split at h
  · next hr => exact ⟨(Option.some.inj h).symm, hr⟩
  · cases h

/-- Which instruction raises which class, with what makes it raise Noise, Busy or Malformed (R301, R302, R305, R307). -/
inductive Raises (s : State) : Instr → ErrorClass → Prop where
  | mismatch {i : Instr} (hi : (∃ b, i = .rxByte b) ∨ i.format ≠ .hostCmd) : Raises s i .mismatch
  | overflow (i : Instr) : Raises s i .overflow
  | timeout (i : Instr) : Raises s i .timeout
  | supersede (i : Instr) : Raises s i .supersede
  | rxNoise {b : Byte} {r : FeedResult} (hf : feed .rxbuf rxLenMin s.rx b = .ok r) (hn : r.noise = true) :
      Raises s (.rxByte b) .noise
  | ptNoise {b : Byte} {r : FeedResult} (hf : feed .ptbuf ptLenMin s.pt b = .ok r) (hn : r.noise = true) :
      Raises s (.ptByte b) .noise
  | scanBusy (h : s.eng.req ≠ .idle) : Raises s .startScan .busy
  | writeBusy (dev param : Byte) {v : Bytes} (hv : v.length ≤ 57) (h : s.eng.req ≠ .idle) : Raises s (.writeParam dev param v) .busy
  | writeMalformed (dev param : Byte) {v : Bytes} (hv : 57 < v.length) : Raises s (.writeParam dev param v) .malformed
  | txMalformed {type : Byte} (dest origin : Byte) {p : Bytes} (h : type < 0x28 ∨ 58 < p.length) :
      Raises s (.txFrame type dest origin p) .malformed

/-- A kind raises the class of the record it reads. -/
theorem raised_recordInstr (c : Config) (hd : RecordHead) (s : State) :
    raised c (recordInstr hd) s = recordClass (readRecord c s.eng.curParam hd) := by
  obtain ⟨parent, hidden, kind, body⟩ := hd
  cases kind <;> rfl

theorem Raises.of_mismatch_or_overflow {s : State} {i : Instr} {e : ErrorClass}
    (hi : (∃ b, i = .rxByte b) ∨ i.format ≠ .hostCmd) (h : e = .mismatch ∨ e = .overflow) : Raises s i e := by
  rcases h with rfl | rfl
  · exact .mismatch hi
  · exact .overflow i

theorem raises_rxByte {c : Config} {b : Byte} {s : State} {e : ErrorClass} (h : raised c (.rxByte b) s = some e) :
    Raises s (.rxByte b) e := by
  obtain ⟨r, hf, ⟨hn, rfl⟩ | ⟨-, f, -, hc⟩⟩ := rxByteClass_eq_some h
  · exact .rxNoise hf hn
  · exact .of_mismatch_or_overflow (.inl ⟨b, rfl⟩) (frameClass_cases hc)

theorem raises_tick {c : Config} {s : State} {e : ErrorClass} (h : raised c .tick s = some e) : Raises s .tick e := by
  rw [raised, tickClass] at h
  split at h
  · cases h
    exact .timeout _
  · cases h

theorem raises_loadParams {c : Config} {dev cnt : Byte} {s : State} {e : ErrorClass}
    (h : raised c (.loadParams dev cnt) s = some e) : Raises s (.loadParams dev cnt) e := by
  rw [raised] at h
  split at h
  · cases h
    exact .supersede _
  · cases h

theorem raises_writeParam {c : Config} {dev param : Byte} {v : Bytes} {s : State} {e : ErrorClass}
    (h : raised c (.writeParam dev param v) s = some e) : Raises s (.writeParam dev param v) e := by
  rw [raised] at h
  split at h
  · next hv =>
    obtain ⟨rfl, hr⟩ := busyClass_eq_some h
    exact .writeBusy dev param (writeOperandsOk_iff.mp hv) hr
  · next hv =>
    cases h
    exact .writeMalformed dev param (writeOperandsOk_eq_false_iff.mp (Bool.eq_false_iff.mpr hv))

theorem raises_txFrame {c : Config} {type dest origin : Byte} {p : Bytes} {s : State} {e : ErrorClass}
    (h : raised c (.txFrame type dest origin p) s = some e) : Raises s (.txFrame type dest origin p) e := by
  rw [raised] at h
  split at h
  · cases h
  · next hok =>
    cases h
    exact .txMalformed dest origin (txOperandsOk_eq_false_iff.mp (Bool.eq_false_iff.mpr hok)).symm

theorem raised_raises {c : Config} {i : Instr} {s : State} {e : ErrorClass} (h : raised c i s = some e) : Raises s i e := by
  by_cases hk : i.format = .paramKind
  · obtain ⟨hd, rfl⟩ := exists_recordInstr hk
    rw [raised_recordInstr] at h
    obtain ⟨-, rfl⟩ := recordClass_eq_some h
    exact .mismatch (.inr (by rw [hk]; decide))
  cases i
  case rxByte => exact raises_rxByte h
  case tick => exact raises_tick h
  case startScan =>
    obtain ⟨rfl, hr⟩ := busyClass_eq_some h
    exact .scanBusy hr
  case loadParams => exact raises_loadParams h
  case writeParam => exact raises_writeParam h
  case ptByte =>
    obtain ⟨rfl, r, hf, hn⟩ := ptByteClass_eq_some h
    exact .ptNoise hf hn
  case txFrame => exact raises_txFrame h
  case deviceInfo =>
    obtain ⟨rfl, -⟩ := deviceInfoClass_eq_some h
    exact .mismatch (.inr nofun)
  case paramEntry => exact .of_mismatch_or_overflow (.inr nofun) (paramEntryClass_cases h)
  case devicePing | paramRead | paramWrite => cases h; exact .mismatch (.inr nofun)
  case cancelScan | cancelLoad | ptConsume => cases h
  all_goals exact absurd rfl hk

/-! ### Noise -/

/-- A noisy byte completes no frame, and leaves the receiver seeking SYNC or, where a frame is held, as it was (R301). -/
theorem feed_noise {m : MemName} {lmin : Nat} {u : Codec} {b : Byte} {r : FeedResult} (hf : feed m lmin u b = .ok r)
    (hn : r.noise = true) : r.done = false ∧ (r.unit.state = .awaitSync ∨ (u.state = .complete ∧ r.unit = u)) := by
  cases feed_outcome hf with
  | sync | length | push | frame => cases hn
  | dropped h => exact ⟨rfl, h.imp_right fun hc => ⟨hc, rfl⟩⟩
  | discarded => exact ⟨rfl, .inl rfl⟩

theorem rxByte_noise {c : Config} {b : Byte} {s t : State} {r : FeedResult} (hf : feed .rxbuf rxLenMin s.rx b = .ok r)
    (hn : r.noise = true) (h : rxByte c b s = .next t) :
    ∃ u, t = { s with rx := u } ∧ (u.state = .awaitSync ∨ (s.rx.state = .complete ∧ u = s.rx)) := by
  obtain ⟨hd, hu⟩ := feed_noise hf hn
  obtain ⟨u, done, noise⟩ := r
  cases hd
  cases (rxByte_open hf).symm.trans h
  exact ⟨u, rfl, hu⟩

theorem execPtByte_noise {b : Byte} {s t : State} {r : FeedResult} (hf : feed .ptbuf ptLenMin s.pt b = .ok r)
    (hn : r.noise = true) (h : execPtByte b s = .next t) :
    ∃ u, t = { s with pt := u } ∧ (u.state = .awaitSync ∨ (s.pt.state = .complete ∧ u = s.pt)) := by
  obtain ⟨hd, hu⟩ := feed_noise hf hn
  obtain ⟨u, done, noise⟩ := r
  cases hd
  cases (execPtByte_open hf).symm.trans h
  exact ⟨u, rfl, hu⟩

/-! ### Mismatch -/

/-- All that a Mismatch of a received frame leaves (R302): the state as it was, or a rejected record's load moved on. -/
def MismatchResult (s t : State) : Prop := t = s ∨ (s.eng.req = .reading ∧ t = s.movedOn [])

theorem onDeviceInfo_mismatch {c : Config} {o : Byte} {p : Bytes} {s : State} (h : deviceInfoClass c o p s = some .mismatch) :
    onDeviceInfo c o p s = s := by
  obtain ⟨-, hr | hd⟩ := deviceInfoClass_eq_some h
  · exact onDeviceInfo_of_not_scanning hr
  · exact onDeviceInfo_of_rejected hd

theorem acceptChunk_mismatch {c : Config} {remaining : Byte} {data : Bytes} {s t : State} (hr : s.eng.req = .reading)
    (h : chunkClass c remaining data s = some .mismatch) (ht : acceptChunk c remaining data s = .next t) : t = s.movedOn [] := by
  obtain h | ⟨-, rfl, hfit, d, hd, hnone⟩ := chunkClass_eq_some h
  · cases h
  · rw [acceptChunk_last_of_bytes hr hfit hd, hnone] at ht
    exact (Host.Outcome.next.inj ht).symm

theorem onParamEntry_mismatch {c : Config} {o : Byte} {p : Bytes} {s t : State} (h : paramEntryClass c o p s = some .mismatch)
    (ht : onParamEntry c o p s = .next t) : MismatchResult s t := by
  rcases onParamEntry_cases (c := c) (o := o) (p := p) (s := s) with e | ⟨remaining, data, rfl, rfl, hr, e⟩
  · exact .inl (Host.Outcome.next.inj (ht.symm.trans e))
  · have hclass : paramEntryClass c s.eng.target (s.eng.curParam :: remaining :: data) s = chunkClass c remaining data s :=
      if_pos ⟨hr, rfl, rfl⟩
    exact .inr ⟨hr, acceptChunk_mismatch hr (hclass.symm.trans h) (e.symm.trans ht)⟩

/-- The class of a decoded frame is that of its handler (R260, R302). -/
theorem route_mismatch {c : Config} {f : Bytes} {s t : State} (h : frameClass c f s = some .mismatch) (ht : route c f s = .next t) :
    MismatchResult s t := by
  unfold frameClass at h
  unfold route at ht
  split at h
  · next hp =>
    rw [hp] at ht
    exact .inl (Host.Outcome.next.inj ht).symm
  · next fr hp =>
    rw [hp] at ht
    dsimp only at ht
    unfold routeFrame at ht
    split at ht
    · exact .inl (Host.Outcome.next.inj ht).symm
    split at ht
    · rw [if_pos ‹_›] at h
      cases ht
      exact .inl (onDeviceInfo_mismatch h)
    split at ht
    · rw [if_neg ‹_›, if_pos ‹_›] at h
      exact onParamEntry_mismatch h ht
    split at ht
    · exact .inl (Host.Outcome.next.inj ht).symm
    split at ht <;> exact .inl (Host.Outcome.next.inj ht).symm

/-- A Mismatch while another receive state is in place is the same Mismatch. -/
theorem MismatchResult.withRx {s t : State} (h : MismatchResult s t) (u : Codec) :
    MismatchResult { s with rx := u } { t with rx := u } := by
  rcases h with rfl | ⟨hr, rfl⟩
  · exact .inl rfl
  · refine .inr ⟨hr, ?_⟩
    unfold State.movedOn
    split <;> rfl

theorem rxByte_mismatch {c : Config} {b : Byte} {s t : State} (h : rxByteClass c b s = some .mismatch)
    (ht : rxByte c b s = .next t) : MismatchResult { s with rx := Codec.fresh } t := by
  obtain ⟨r, hf, ⟨-, hc⟩ | ⟨hd, f, hheld, hc⟩⟩ := rxByteClass_eq_some h
  · cases hc
  obtain ⟨u, done, noise⟩ := r
  cases hd
  rw [rxByte_done hf hheld] at ht
  cases hroute : route c f { s with rx := u } with
  | next s' =>
    rw [hroute] at ht
    cases ht
    exact (route_mismatch hc hroute).withRx Codec.fresh
  | fault e => rw [hroute] at ht; cases ht
  | refused e => rw [hroute] at ht; cases ht

/-- A Mismatch of a frame or record instruction: only a PARAM_ENTRY moves a load on. -/
theorem exec_mismatch {i : Instr} {s t : State} (hi : i.format ≠ .hostCmd) (h : raised given i s = some .mismatch)
    (ht : exec i s = .next t) : t = s ∨ (s.eng.req = .reading ∧ (∃ d o p, i = .paramEntry d o p) ∧ t = s.movedOn []) := by
  by_cases hk : i.format = .paramKind
  · obtain ⟨hd, rfl⟩ := exists_recordInstr hk
    rw [raised_recordInstr] at h
    rw [exec_recordInstr, (recordClass_eq_some h).1] at ht
    exact .inl (Host.Outcome.next.inj ht).symm
  cases i
  case deviceInfo => exact .inl ((Host.Outcome.next.inj ht).symm.trans (onDeviceInfo_mismatch h))
  case paramEntry d o p => exact (onParamEntry_mismatch h ht).imp_right fun ⟨hr, hmoved⟩ => ⟨hr, ⟨d, o, p, rfl⟩, hmoved⟩
  case devicePing | paramRead | paramWrite => exact .inl (Host.Outcome.next.inj ht).symm
  case rxByte | tick | startScan | cancelScan | loadParams | cancelLoad | writeParam | ptByte | ptConsume | txFrame =>
    exact absurd rfl hi
  all_goals exact absurd rfl hk

/-- A load moved on with nothing delivered. -/
theorem State.movedOn_nil (s : State) :
    s.movedOn [] =
      if s.eng.count ≤ s.eng.curParam then
        { s with
          reasm := { buf := [], len := 0 }
          eng := { s.eng with req := .idle, curParam := s.eng.curParam + 1, curChunk := 0, lastActivity := s.now } }.plusEvents
            [.loadDone true]
      else
        { s with
          reasm := { buf := [], len := 0 }
          eng := { s.eng with curParam := s.eng.curParam + 1, curChunk := 0, lastActivity := s.now } }.plusTx
            (frameBytes typeParamRead s.eng.target addrSelf [s.eng.curParam + 1, 0]) := by
  simp only [State.movedOn, State.plusEvents, List.append_nil, List.nil_append]

/-- Settles O55, class by class; a Mismatch of RX_BYTE is that of the frame it completes. -/
theorem errorClassActions : Obligations.ErrorClassActions := by
  intro s t i ht movedOn
  have hmoved (u : State) : u.movedOn [] = movedOn u := u.movedOn_nil
  refine ⟨fun h => ?noise, fun h => ?mismatch, fun h => ?busy, fun h => ?malformed⟩
  case noise =>
    cases raised_raises h with
    | rxNoise hf hn =>
      obtain ⟨u, htu, hu⟩ := rxByte_noise hf hn ht
      exact .inl ⟨_, u, rfl, htu, hu⟩
    | ptNoise hf hn =>
      obtain ⟨u, htu, hu⟩ := execPtByte_noise hf hn ht
      exact .inr ⟨_, u, rfl, htu, hu⟩
  case mismatch =>
    cases raised_raises h with
    | mismatch hi =>
      rcases hi with ⟨b, rfl⟩ | hi
      · refine ⟨{ s with rx := Codec.fresh }, .inr ⟨⟨b, rfl⟩, rfl⟩, ?_⟩
        refine (rxByte_mismatch h ht).imp_right fun ⟨hr, htu⟩ => ⟨hr, .inl ⟨b, rfl⟩, ?_⟩
        rw [htu, hmoved]
      · refine ⟨s, .inl ⟨fun b hb => hi (by rw [hb]; rfl), rfl⟩, ?_⟩
        refine (exec_mismatch hi h ht).imp_right fun ⟨hr, hentry, htu⟩ => ⟨hr, .inr hentry, ?_⟩
        rw [htu, hmoved]
  case busy =>
    cases raised_raises h with
    | scanBusy hr => exact .inl ⟨rfl, Host.Outcome.next.inj (ht.symm.trans ((startScanResult s).2 hr))⟩
    | writeBusy dev param hv hr =>
      obtain ⟨-, hbusy, -⟩ := writeParamResult s dev param _
      exact .inr ⟨dev, param, _, rfl, Host.Outcome.next.inj (ht.symm.trans (hbusy hv hr))⟩
  case malformed =>
    cases raised_raises h with
    | writeMalformed dev param hv =>
      obtain ⟨hlong, -, -⟩ := writeParamResult s dev param _
      exact .inl ⟨dev, param, _, rfl, Host.Outcome.next.inj (ht.symm.trans (hlong hv))⟩
    | txMalformed dest origin hout =>
      obtain ⟨-, hrefused⟩ := txFrameResult s _ dest origin _
      exact .inr ⟨_, dest, origin, _, rfl, Host.Outcome.next.inj (ht.symm.trans (hrefused hout))⟩

end Sys2Proof.Machine
end
